-- ==== Sys2Proof/Word.lean ====
section
/-! DEFINITION. The bit-vector types of the block's contents (spec/00_scope.md R10 to R12). -/

namespace Sys2Proof

/-- A byte: one buffer cell, a tag, an attribute length, an 8-bit immediate. -/
abbrev Byte := BitVec 8

/-- A 16-bit value: a frame type, a frame's payload length, a 16-bit immediate. -/
abbrev Half := BitVec 16

/-- A 32-bit value: a register or a command word (R10). -/
abbrev Word := BitVec 32

/-- `not32(v)` of R12. -/
abbrev not32 (v : Word) : Word := v ^^^ 0xFFFFFFFF#32

end Sys2Proof
end

