-- ==== Sys2Proof/Syntax.lean ====
section
/-! DEFINITION. The commands (spec/30_encoding.md R75), the reasons a word is no command (R76), and the
assembler's abstract syntax (R86, R88). -/

namespace Sys2Proof

/-- The 13 commands of the opcode map (R75), with the immediate of their format (R71 to R74). -/
inductive Instr where
  /-- NOP, op 0x00, format N (spec/43_buffer_control.md R150). -/
  | nop
  /-- CRC_INIT, op 0x01, format N (spec/40_crc.md R93). -/
  | crcInit
  /-- CRC_BYTE imm8, op 0x02, format A (R94). -/
  | crcByte (imm8 : Byte)
  /-- CRC_BUF, op 0x03, format N (R95). -/
  | crcBuf
  /-- FRM_ENC imm16, op 0x10, format B (spec/41_frame.md R114). -/
  | frmEnc (imm16 : Half)
  /-- FRM_DEC, op 0x11, format N (R115). -/
  | frmDec
  /-- TLV_PARSE, op 0x20, format N (spec/42_tlv.md R133). -/
  | tlvParse
  /-- OBUF_CLR, op 0x30, format N (R151). -/
  | obufClr
  /-- TLV_PUT imm8, op 0x31, format A (R134). -/
  | tlvPut (imm8 : Byte)
  /-- TLV_PUTA imm16, op 0x32, format B (R135). -/
  | tlvPuta (imm16 : Half)
  /-- TLV_BUILD, op 0x33, format N (R136). -/
  | tlvBuild
  /-- MOV_O2I, op 0x40, format N (R152). -/
  | movO2i
  /-- SRST, op 0x7F, format N (R156). -/
  | srst
deriving DecidableEq, Repr

/-- Why `decode` refuses a word (R76, R78). -/
inductive DecodeReject where
  /-- `op` is one of the 243 unassigned values. -/
  | unassignedOp
  /-- `op` is assigned and a must-be-zero field is not zero. -/
  | nonzeroMustBeZero
deriving DecidableEq, Repr

/-- The three command formats (R71 to R73). -/
inductive Format where
  /-- No immediate. -/
  | N
  /-- `imm8` in bits 23:16. -/
  | A
  /-- `imm16` in bits 15:0. -/
  | B
deriving DecidableEq, Repr

/-- The 13 mnemonics (R75). -/
inductive Mnemonic where
  | NOP | CRC_INIT | CRC_BYTE | CRC_BUF | FRM_ENC | FRM_DEC | TLV_PARSE
  | OBUF_CLR | TLV_PUT | TLV_PUTA | TLV_BUILD | MOV_O2I | SRST
deriving DecidableEq, Repr

/-- One command line of the assembler before it is checked (R86): a mnemonic and a number, if one is written. -/
structure AsmCommand where
  mnemonic : Mnemonic
  imm : Option Nat
deriving DecidableEq, Repr

/-- A pseudo-instruction (R88): `CRC32C`, and `FRAME t` with the number as it is written. -/
inductive AsmPseudo where
  | crc32c
  | frame (t : Nat)
deriving DecidableEq, Repr

end Sys2Proof
end

