-- ==== Sys2Proof/WellFormed.lean ====
section
/-! DEFINITION. Which assembler commands are well formed (spec/30_encoding.md R86: "An immediate out of its
field's range is an assembly error, not a truncation"), and the command each stands for. A command of `Instr` is
well formed by its types; `Instr.wf` says so through the same check. -/

namespace Sys2Proof

/-- The format column of the opcode map (R75). -/
def Mnemonic.format : Mnemonic → Format
  | .NOP | .CRC_INIT | .CRC_BUF | .FRM_DEC | .TLV_PARSE | .OBUF_CLR | .TLV_BUILD | .MOV_O2I | .SRST => .N
  | .CRC_BYTE | .TLV_PUT => .A
  | .FRM_ENC | .TLV_PUTA => .B

/-- The immediate a format takes: none, a number below 2^8, a number below 2^16 (R71 to R74). -/
def Format.admits : Format → Option Nat → Bool
  | .N, none => true
  | .N, some _ => false
  | .A, none => false
  | .A, some n => decide (n < 256)
  | .B, none => false
  | .B, some n => decide (n < 65536)

/-- An assembler command is well formed when its format admits its immediate (R86). -/
def AsmCommand.wf (c : AsmCommand) : Bool := c.mnemonic.format.admits c.imm

/-- The command a mnemonic and an immediate stand for; the number is in range by `wf`. -/
def instrOf (m : Mnemonic) (n : Nat) : Instr :=
  match m with
  | .NOP => .nop
  | .CRC_INIT => .crcInit
  | .CRC_BYTE => .crcByte (BitVec.ofNat 8 n)
  | .CRC_BUF => .crcBuf
  | .FRM_ENC => .frmEnc (BitVec.ofNat 16 n)
  | .FRM_DEC => .frmDec
  | .TLV_PARSE => .tlvParse
  | .OBUF_CLR => .obufClr
  | .TLV_PUT => .tlvPut (BitVec.ofNat 8 n)
  | .TLV_PUTA => .tlvPuta (BitVec.ofNat 16 n)
  | .TLV_BUILD => .tlvBuild
  | .MOV_O2I => .movO2i
  | .SRST => .srst

/-- Assembling one command line: the command, or nothing where R86 makes it an assembly error. -/
def AsmCommand.toInstr (c : AsmCommand) : Option Instr :=
  if c.wf then some (instrOf c.mnemonic (c.imm.getD 0)) else none

/-- The line that R86 writes for a command. -/
def Instr.toAsm : Instr → AsmCommand
  | .nop => ⟨.NOP, none⟩
  | .crcInit => ⟨.CRC_INIT, none⟩
  | .crcByte imm8 => ⟨.CRC_BYTE, some imm8.toNat⟩
  | .crcBuf => ⟨.CRC_BUF, none⟩
  | .frmEnc imm16 => ⟨.FRM_ENC, some imm16.toNat⟩
  | .frmDec => ⟨.FRM_DEC, none⟩
  | .tlvParse => ⟨.TLV_PARSE, none⟩
  | .obufClr => ⟨.OBUF_CLR, none⟩
  | .tlvPut imm8 => ⟨.TLV_PUT, some imm8.toNat⟩
  | .tlvPuta imm16 => ⟨.TLV_PUTA, some imm16.toNat⟩
  | .tlvBuild => ⟨.TLV_BUILD, none⟩
  | .movO2i => ⟨.MOV_O2I, none⟩
  | .srst => ⟨.SRST, none⟩

/-- A command is well formed when its line is; every command is, since its immediate has its field's width. -/
def Instr.wf (i : Instr) : Bool := i.toAsm.wf

/-- The expansion of a pseudo-instruction (R88); nothing where its immediate is out of range. -/
def AsmPseudo.expand : AsmPseudo → Option (List Instr)
  | .crc32c => some [.crcInit, .crcBuf]
  | .frame t => (AsmCommand.mk .FRM_ENC (some t)).toInstr.map fun enc => [.movO2i, enc]

end Sys2Proof
end

