-- ==== Sys2Proof/Decode.lean ====
section
/-! DEFINITION. The command word: decoding, total on 32-bit words and rejecting by name (spec/30_encoding.md R70
to R78), and the encoder (R77). Both are written from the opcode map R75. -/

namespace Sys2Proof

/-- The field `op = w[31:24]` (R70). -/
def fieldOp (w : Word) : Byte := w.extractLsb' 24 8

/-- The field `a = w[23:16]` (R70). -/
def fieldA (w : Word) : Byte := w.extractLsb' 16 8

/-- The field `b = w[15:0]` (R70). -/
def fieldB (w : Word) : Half := w.extractLsb' 0 16

/-- The `op` column of the opcode map, read as a table from values to mnemonics (R75). -/
def mnemonicOfOp (op : Byte) : Option Mnemonic :=
  if op = 0x00#8 then some .NOP
  else if op = 0x01#8 then some .CRC_INIT
  else if op = 0x02#8 then some .CRC_BYTE
  else if op = 0x03#8 then some .CRC_BUF
  else if op = 0x10#8 then some .FRM_ENC
  else if op = 0x11#8 then some .FRM_DEC
  else if op = 0x20#8 then some .TLV_PARSE
  else if op = 0x30#8 then some .OBUF_CLR
  else if op = 0x31#8 then some .TLV_PUT
  else if op = 0x32#8 then some .TLV_PUTA
  else if op = 0x33#8 then some .TLV_BUILD
  else if op = 0x40#8 then some .MOV_O2I
  else if op = 0x7F#8 then some .SRST
  else none

/-- `decode` of R76 on the three fields of a word. -/
def decodeFields (op a : Byte) (b : Half) : Except DecodeReject Instr :=
  match mnemonicOfOp op with
  | none => .error .unassignedOp
  | some m =>
    match m.format with
    | .N => if a = 0#8 ∧ b = 0#16 then .ok (instrOf m 0) else .error .nonzeroMustBeZero
    | .A => if b = 0#16 then .ok (instrOf m a.toNat) else .error .nonzeroMustBeZero
    | .B => if a = 0#8 then .ok (instrOf m b.toNat) else .error .nonzeroMustBeZero

/-- `decode(w)` of R76: the command, or why the word is illegal. It reads no state. -/
def decode (w : Word) : Except DecodeReject Instr := decodeFields (fieldOp w) (fieldA w) (fieldB w)

/-- The `op` column of the opcode map, read as a table from commands to values (R75). -/
def opOf : Instr → Byte
  | .nop => 0x00#8
  | .crcInit => 0x01#8
  | .crcByte _ => 0x02#8
  | .crcBuf => 0x03#8
  | .frmEnc _ => 0x10#8
  | .frmDec => 0x11#8
  | .tlvParse => 0x20#8
  | .obufClr => 0x30#8
  | .tlvPut _ => 0x31#8
  | .tlvPuta _ => 0x32#8
  | .tlvBuild => 0x33#8
  | .movO2i => 0x40#8
  | .srst => 0x7F#8

/-- A word of format N: `op << 24` (R77). -/
def wordN (op : Byte) : Word := op ++ 0#8 ++ 0#16

/-- A word of format A: `op << 24 | imm8 << 16` (R77). -/
def wordA (op imm8 : Byte) : Word := op ++ imm8 ++ 0#16

/-- A word of format B: `op << 24 | imm16` (R77). -/
def wordB (op : Byte) (imm16 : Half) : Word := op ++ 0#8 ++ imm16

/-- `encode(cmd)` of R77. -/
def encode (i : Instr) : Word :=
  match i with
  | .crcByte imm8 | .tlvPut imm8 => wordA (opOf i) imm8
  | .frmEnc imm16 | .tlvPuta imm16 => wordB (opOf i) imm16
  | .nop | .crcInit | .crcBuf | .frmDec | .tlvParse | .obufClr | .tlvBuild | .movO2i | .srst => wordN (opOf i)

/-- The command word in the low `nbits` bits of `w`, every bit above them 0. A command is one 32-bit value and
the bus has no byte order (spec/20_memory.md R60), so no layout in bytes comes in. -/
def tableWord (nbits w : Nat) : Word := BitVec.ofNat 32 (w % 2 ^ nbits)

/-- The command this decoder reads from a word numbered as spec/opcode_table.json numbers it. -/
def decodeTableWord (nbits w : Nat) : Option Instr :=
  match decode (tableWord nbits w) with
  | .ok i => some i
  | .error _ => none

/-- One row of the opcode map: `match` and `mask` (R75). -/
structure OpcodeRow where
  mnemonic : Mnemonic
  value : Word
  mask : Word
deriving DecidableEq, Repr

/-- The `match` and `mask` columns of the opcode map, as R75 writes them. -/
def opcodeRows : List OpcodeRow :=
  [⟨.NOP, 0x00000000#32, 0xFFFFFFFF#32⟩,
   ⟨.CRC_INIT, 0x01000000#32, 0xFFFFFFFF#32⟩,
   ⟨.CRC_BYTE, 0x02000000#32, 0xFF00FFFF#32⟩,
   ⟨.CRC_BUF, 0x03000000#32, 0xFFFFFFFF#32⟩,
   ⟨.FRM_ENC, 0x10000000#32, 0xFFFF0000#32⟩,
   ⟨.FRM_DEC, 0x11000000#32, 0xFFFFFFFF#32⟩,
   ⟨.TLV_PARSE, 0x20000000#32, 0xFFFFFFFF#32⟩,
   ⟨.OBUF_CLR, 0x30000000#32, 0xFFFFFFFF#32⟩,
   ⟨.TLV_PUT, 0x31000000#32, 0xFF00FFFF#32⟩,
   ⟨.TLV_PUTA, 0x32000000#32, 0xFFFF0000#32⟩,
   ⟨.TLV_BUILD, 0x33000000#32, 0xFFFFFFFF#32⟩,
   ⟨.MOV_O2I, 0x40000000#32, 0xFFFFFFFF#32⟩,
   ⟨.SRST, 0x7F000000#32, 0xFFFFFFFF#32⟩]

/-- The word selects the row: `(w and mask) = match` (R75). -/
def OpcodeRow.selects (r : OpcodeRow) (w : Word) : Bool := w &&& r.mask == r.value

end Sys2Proof
end

