-- ==== Sys2Proof/Config.lean ====
section
/-! DEFINITION. What is fixed when the block is built, and the values the spec leaves open.
Parameters: spec/00_scope.md R8 to R10. Free values: opaque constants with no body, so that nothing can be
proved of the value they give (spec/93_implementation_defined.md U3 to U6). -/

namespace Sys2Proof.Config

/-- `BUF_SIZE`, legal by its type: 1460 to 65536 (R8, U11). -/
abbrev BufSize := { n : Nat // 1460 ≤ n ∧ n ≤ 65536 }

/-- The default of `BUF_SIZE` (R8, U12). DESIGN CHOICE, log 1: State.reset takes it. -/
def defaultBufSize : BufSize := ⟨1460, by decide⟩

/-- `ATAB_SIZE` is half of `BUF_SIZE`, rounded down (R8). -/
def atabSize (n : BufSize) : Nat := n.val / 2

/-- The largest attribute length the TLV codec supports (R9). -/
def maxAttrLen : Nat := 127

/-- Header and trailer of a frame, 4 bytes each (R9). -/
def frameOverhead : Nat := 8

/-- The contract on the host, 1460 bytes a packet (R9, spec/44_host_protocol.md R162). No command reads it. -/
def maxPacket : Nat := 1460

/-- The contract on the host, 1452 bytes a payload (R9, R162). No command reads it. -/
def maxPayload : Nat := 1452

/-- FREE VALUE (U3, spec/10_state.md R39). The byte of IBUF at an index that nothing has written since the
`epoch`-th hardware reset: drawn at that reset and stable until the next. Log 2. -/
opaque ibufAtReset (epoch index : Nat) : Byte

/-- FREE VALUE (R47). A byte of OBUF below OLEN that nothing has written since the `epoch`-th hardware reset.
No reachable state has one. Log 8. -/
opaque obufAtReset (epoch index : Nat) : Byte

/-- FREE VALUE (R47). The three fields of an ATAB entry below ACNT that nothing has written since the
`epoch`-th hardware reset: tag, length, value offset. No reachable state has one. Log 8. -/
opaque atabAtReset (epoch index : Nat) : Byte × Byte × Word

/-- FREE VALUE (U4, R41). The byte delivered by the `draw`-th read of an unspecified place. Log 3. -/
opaque freeByte (draw : Nat) : Byte

/-- FREE VALUE (U5, U6, R43, spec/20_memory.md R58). The word delivered by the `draw`-th read of an unspecified
place, or beside an error response. Log 3, log 4. -/
opaque freeWord (draw : Nat) : Word

end Sys2Proof.Config
end

