-- ==== Sys2Proof/Machine/State.lean ====
section
/-! DEFINITION. The machine's state as plain data (spec/10_state.md R20 to R48), the host's accesses
(spec/20_memory.md R52 to R58), the reasons a step could stop, and the state after hardware reset (R47). -/

namespace Sys2Proof.Machine

/-- A byte buffer: its written bytes as (index, byte) pairs, indices strictly rising. An index that is not listed
has not been written since hardware reset; what it reads as is `Config.ibufAtReset` or `Config.obufAtReset`. -/
abbrev Memory := List Host.Cell

/-- The stored fields of STATUS (R23). Bits 7:2 and 31:16 are no storage: they always read 0 (log 10). -/
structure Status where
  err : Bool
  sticky : Bool
  ecode : Byte
deriving DecidableEq, Repr

/-- The seven command errors (spec/60_exceptions.md R190). -/
inductive CmdError where
  | badLength | badChecksum | unsupportedLength | truncated | overflow | range | illegalCommand
deriving DecidableEq, Repr

/-- One entry of ATAB (R42): tag, length byte, absolute IBUF index of the first value byte. -/
structure AtabEntry where
  tag : Byte
  len : Byte
  voff : Word
deriving DecidableEq, Repr

/-- The twelve addressable registers (R20, R21). -/
inductive Reg where
  | cmd | status | einfo | soff | slen | olen | ftype | crc | crcval | acnt | cur | cap
deriving DecidableEq, Repr

/-- The width of a host read. -/
inductive Width where
  | w8 | w16 | w32
deriving DecidableEq, Repr

/-- What can happen to the block next: one host access at a 19-bit address (R52), or hardware reset
(spec/70_reset_and_hazards.md R220, R221). -/
inductive BusEvent where
  | read (addr : BitVec 19) (width : Width)
  | write8 (addr : BitVec 19) (data : Byte)
  | write16 (addr : BitVec 19) (data : Half)
  | write32 (addr : BitVec 19) (data : Word)
  | hardwareReset
deriving DecidableEq, Repr

/-- How the bus answers an access. -/
inductive BusResponse where
  /-- A write the block accepts has completed. -/
  | written
  /-- An accepted 8-bit read. -/
  | readByte (data : Byte)
  /-- An accepted 32-bit read. -/
  | readWord (data : Word)
  /-- The error response to a write (R58). -/
  | writeError
  /-- The error response to a read, with the unspecified data beside it (R58, U6; log 14). -/
  | readError (data : Word)
deriving DecidableEq, Repr

/-- Everything the spec gives the block, the build-time parameter, and the model's own fields (log 5, log 9). -/
structure State where
  /-- BUF_SIZE (spec/00_scope.md R8), fixed when the block is built: no step writes it. Log 1. -/
  bufSize : Config.BufSize
  /-- STATUS (R23). -/
  status : Status
  /-- EINFO (R24). -/
  einfo : Word
  /-- SOFF (R25). -/
  soff : Word
  /-- SLEN (R26). -/
  slen : Word
  /-- OLEN (R27). -/
  olen : Word
  /-- FTYPE (R28): bits 15:0, the storage; bits 31:16 always read 0 (log 10). -/
  ftype : Half
  /-- CRC (R29). -/
  crc : Word
  /-- ACNT (R31). -/
  acnt : Word
  /-- CUR (R32). -/
  cur : Word
  /-- IBUF (R37 to R39). -/
  ibuf : Memory
  /-- OBUF (R40, R41): only indices below OLEN are defined. -/
  obuf : Memory
  /-- ATAB (R42, R43): entry k stands at position k; only positions below ACNT are defined. -/
  atab : List AtabEntry
  /-- MODEL'S OWN: the events still to come, oldest first (spec/70_reset_and_hazards.md R239). Log 5. -/
  pending : List BusEvent
  /-- MODEL'S OWN: the bus's answers so far, newest first. Log 5. -/
  responses : List BusResponse
  /-- MODEL'S OWN: the number of hardware resets, which selects the draw of R39. Log 9. -/
  resets : Nat
  /-- MODEL'S OWN: the number of fresh unspecified values delivered, R41 and R43. Log 9. -/
  draws : Nat
deriving DecidableEq, Repr

/-- The faults of the model: none. A command error is an ordinary outcome of a step, a bus error a step that
changes nothing, and the block is never stuck (spec/60_exceptions.md R207). Log 11. -/
inductive Fault where
deriving DecidableEq, Repr

/-- The refusals of the model. -/
inductive Refusal where
  /-- An instruction without a meaning; raised by `exec`'s refused arms alone, of which there is none. Safe. -/
  | notModelled (mnemonic : String)
deriving DecidableEq, Repr

/-- The answer of a command and of a step. -/
abbrev Answer := Host.Outcome State Fault Refusal

/-- The state right after hardware reset (R47): every register at its value, no byte of IBUF, OBUF or ATAB
written. BUF_SIZE is the default (log 1); the model's own fields are empty (log 5, log 9). -/
def State.reset : State where
  bufSize := Config.defaultBufSize
  status := ⟨false, false, 0x00#8⟩
  einfo := 0x00000000#32
  soff := 0x00000000#32
  slen := 0x00000000#32
  olen := 0x00000000#32
  ftype := 0x0000#16
  crc := 0xFFFFFFFF#32
  acnt := 0x00000000#32
  cur := 0x00000000#32
  ibuf := []
  obuf := []
  atab := []
  pending := []
  responses := []
  resets := 0
  draws := 0

end Sys2Proof.Machine
end

