-- ==== Sys2Proof/Machine/Flags.lean ====
section
/-! DEFINITION. The two flags and the error code of STATUS (spec/10_state.md R23, R35), and what the end of a
command makes of them (spec/60_exceptions.md R190, R194, R195). -/

namespace Sys2Proof.Machine

/-- The number STATUS.ECODE holds after an error (R190). -/
def CmdError.code : CmdError → Byte
  | .badLength => 1#8
  | .badChecksum => 2#8
  | .unsupportedLength => 3#8
  | .truncated => 4#8
  | .overflow => 5#8
  | .range => 6#8
  | .illegalCommand => 7#8

/-- STATUS after a command that succeeded: ERR and ECODE 0, STICKY as it was (R194). -/
def Status.succeeded (st : Status) : Status := { st with err := false, ecode := 0#8 }

/-- STATUS after a command that failed with `e`: ERR and STICKY 1, ECODE the error's code (R195). -/
def Status.failed (e : CmdError) : Status := ⟨true, true, e.code⟩

/-- STATUS after a host write of the word `v`: bit 1 clears STICKY, the rest is ignored (R23). -/
def Status.hostWrite (v : Word) (st : Status) : Status :=
  if v.getLsbD 1 then { st with sticky := false } else st

/-- The 32 bits of STATUS: ERR in bit 0, STICKY in bit 1, ECODE in bits 15:8, zero elsewhere (R23). -/
def Status.word (st : Status) : Word :=
  0#16 ++ st.ecode ++ 0#6 ++ BitVec.ofBool st.sticky ++ BitVec.ofBool st.err

/-- STATUS after reset (R47). -/
def Status.cleared : Status := ⟨false, false, 0#8⟩

end Sys2Proof.Machine
end

