-- ==== Sys2Proof/Machine/Ops.lean ====
section
/-! DEFINITION. The operations the meanings share: byte buffers, the attribute table, the end of a command,
reset, and the register map. -/

namespace Sys2Proof.Machine

/-! ## Byte buffers -/

/-- The canonical form: indices strictly rising. An unlisted index is an unwritten one, so no entry says what an
unlisted index says (log 2). -/
def Memory.wf : Memory → Bool
  | [] => true
  | [_] => true
  | c :: d :: m => decide (c.1 < d.1) && Memory.wf (d :: m)

/-- The byte written at an index, if one was. -/
def Memory.read? : Memory → Nat → Option Byte
  | [], _ => none
  | c :: m, i => if c.1 = i then some c.2 else Memory.read? m i

/-- Write one byte, keeping the indices rising. -/
def Memory.write : Memory → Nat → Byte → Memory
  | [], i, b => [(i, b)]
  | c :: m, i, b =>
    if i < c.1 then (i, b) :: c :: m
    else if i = c.1 then (i, b) :: m
    else c :: Memory.write m i b

/-- Write a byte sequence at rising indices from `at`. -/
def Memory.writeBytes (m : Memory) (start : Nat) : List Byte → Memory
  | [] => m
  | b :: bs => Memory.writeBytes (m.write start b) (start + 1) bs

/-- The byte of IBUF at an index: what was written there, else the draw made at hardware reset (R37, R39). -/
def ibufByte (s : State) (i : Nat) : Byte := (s.ibuf.read? i).getD (Config.ibufAtReset s.resets i)

/-- The byte of OBUF at an index below OLEN (R40, R41); log 8 for one that nothing has written. -/
def obufByte (s : State) (i : Nat) : Byte := (s.obuf.read? i).getD (Config.obufAtReset s.resets i)

/-- `IBUF[start .. start+n)`. -/
def ibufBytes (s : State) (start n : Nat) : List Byte := (List.range n).map fun j => ibufByte s (start + j)

/-- `OBUF[start .. start+n)`. -/
def obufBytes (s : State) (start n : Nat) : List Byte := (List.range n).map fun j => obufByte s (start + j)

/-! ## The attribute table -/

/-- `ATAB[k]` for `k` below ACNT (R42, R43); log 8 for one that nothing has written. -/
def atabEntry (s : State) (k : Nat) : AtabEntry :=
  match s.atab[k]? with
  | some e => e
  | none =>
    let free := Config.atabAtReset s.resets k
    ⟨free.1, free.2.1, free.2.2⟩

/-- Write entries at positions 0, 1, ... of the table; later positions keep what they hold (log 7). -/
def writeAtab (entries old : List AtabEntry) : List AtabEntry := entries ++ old.drop entries.length

/-- The two words of an entry that a host read returns (spec/20_memory.md R56). -/
def AtabEntry.word0 (e : AtabEntry) : Word := 0#16 ++ e.len ++ e.tag

/-- The second word of an entry: `voff` (R56). -/
def AtabEntry.word1 (e : AtabEntry) : Word := e.voff

/-! ## The end of a command -/

/-- `raise E(info)`: error entry (spec/60_exceptions.md R195). There is no trap: ERR, ECODE, EINFO and STICKY are
all that changes. -/
def raise (e : CmdError) (info : Word) (s : State) : State :=
  { s with status := Status.failed e, einfo := info }

/-- A command that completes without `raise` (R194). The next command's end overwrites what an error left: there
is no other return from one (R197). -/
def succeed (s : State) : State := { s with status := s.status.succeeded, einfo := 0#32 }

/-! ## Reset -/

/-- Every stored register at its reset value (R47, spec/43_buffer_control.md R156). -/
def resetRegisters (s : State) : State :=
  { s with
    status := Status.cleared, einfo := 0#32, soff := 0#32, slen := 0#32, olen := 0#32, ftype := 0#16,
    crc := 0xFFFFFFFF#32, acnt := 0#32, cur := 0#32 }

/-- Hardware reset: the registers, and the three memories unspecified again, by a new draw (R47, R220, R221). -/
def hardwareReset (s : State) : State :=
  { resetRegisters s with ibuf := [], obuf := [], atab := [], resets := s.resets + 1 }

/-! ## The register map -/

/-- The offset of a register (R21). -/
def Reg.offset : Reg → Nat
  | .cmd => 0x000
  | .status => 0x004
  | .einfo => 0x008
  | .soff => 0x00C
  | .slen => 0x010
  | .olen => 0x014
  | .ftype => 0x018
  | .crc => 0x01C
  | .crcval => 0x020
  | .acnt => 0x024
  | .cur => 0x028
  | .cap => 0x02C

/-- The twelve registers in map order (R21). -/
def Reg.all : List Reg :=
  [.cmd, .status, .einfo, .soff, .slen, .olen, .ftype, .crc, .crcval, .acnt, .cur, .cap]

/-- The register at an offset, if one stands there. -/
def Reg.ofOffset (a : Nat) : Option Reg := Reg.all.find? fun r => r.offset == a

/-- What a host read of a register returns (R22 to R33, R53). CMD reads 0; CRCVAL and CAP are no storage. -/
def readReg (s : State) : Reg → Word
  | .cmd => 0#32
  | .status => s.status.word
  | .einfo => s.einfo
  | .soff => s.soff
  | .slen => s.slen
  | .olen => s.olen
  | .ftype => s.ftype.zeroExtend 32
  | .crc => s.crc
  | .crcval => not32 s.crc
  | .acnt => s.acnt
  | .cur => s.cur
  | .cap => BitVec.ofNat 32 s.bufSize.val

/-- What a host write of `v` to a register other than CMD does (R53): SOFF, SLEN and CRC take `v` whole, STATUS
clears STICKY, the read-only registers ignore the write (R21). -/
def writeReg (s : State) (r : Reg) (v : Word) : State :=
  match r with
  | .status => { s with status := s.status.hostWrite v }
  | .soff => { s with soff := v }
  | .slen => { s with slen := v }
  | .crc => { s with crc := v }
  | .cmd | .einfo | .olen | .ftype | .crcval | .acnt | .cur | .cap => s

end Sys2Proof.Machine
end

