-- ==== Sys2Proof/Machine/Operands.lean ====
section
/-! DEFINITION. The operand forms: the source window (spec/00_scope.md R17), the four ways a command reaches
memory (spec/20_memory.md R61), and the big-endian integers of the wire formats (R13, R59). -/

namespace Sys2Proof.Machine

/-! ## Big-endian integers -/

/-- `be16(v)`: most significant byte first (R13). -/
def be16 (v : Half) : List Byte := [v.extractLsb' 8 8, v.extractLsb' 0 8]

/-- `be32(v)`: most significant byte first (R13). -/
def be32 (v : Word) : List Byte :=
  [v.extractLsb' 24 8, v.extractLsb' 16 8, v.extractLsb' 8 8, v.extractLsb' 0 8]

/-- The number whose big-endian bytes these are. -/
def fromBe (bs : List Byte) : Nat := bs.foldl (fun acc b => acc * 256 + b.toNat) 0

/-- `frombe16` on two bytes (R13). -/
def frombe16 (bs : List Byte) : Half := BitVec.ofNat 16 (fromBe bs)

/-- `frombe32` on four bytes (R13). -/
def frombe32 (bs : List Byte) : Word := BitVec.ofNat 32 (fromBe bs)

/-- `s[a..b)` (R13). -/
def slice (bs : List Byte) (a b : Nat) : List Byte := (bs.take b).drop a

/-! ## The window -/

/-- `SOFF + SLEN <= BUF_SIZE`, without wrap-around (R17). -/
def windowInRange (s : State) : Bool := decide (s.soff.toNat + s.slen.toNat ≤ s.bufSize.val)

/-- The window `IBUF[SOFF .. SOFF+SLEN)` (R17; R61 form a). -/
def window (s : State) : List Byte := ibufBytes s s.soff.toNat s.slen.toNat

/-! ## Table-indirect, append and absolute -/

/-- The value bytes of a table entry, read from IBUF now (R61 form b, R45). -/
def entryValue (s : State) (e : AtabEntry) : List Byte := ibufBytes s e.voff.toNat e.len.toNat

/-- `ATAB[0 .. ACNT)`, the valid part. -/
def validEntries (s : State) : List AtabEntry := (List.range s.acnt.toNat).map (atabEntry s)

/-- `OBUF[0 .. OLEN)`, the valid part. -/
def validOutput (s : State) : List Byte := obufBytes s 0 s.olen.toNat

/-- The OLEN that appending an attribute with a value of `n` bytes would give, an unbounded number. -/
def appendedLen (s : State) (n : Nat) : Nat := s.olen.toNat + 2 + n

/-- Append a tag, a length byte and a value at `OBUF[OLEN ..]` and raise OLEN (R61 form c). -/
def appendAttr (tag len : Byte) (value : List Byte) (s : State) : State :=
  { s with
    obuf := s.obuf.writeBytes s.olen.toNat (tag :: len :: value)
    olen := BitVec.ofNat 32 (appendedLen s value.length) }

/-- Append a table entry with the value bytes IBUF holds now. -/
def appendEntry (s : State) (e : AtabEntry) : State := appendAttr e.tag e.len (entryValue s e) s

/-- Write an output at `OBUF[0 ..]` and set OLEN to its length (R61 form d). -/
def setOutput (bs : List Byte) (s : State) : State :=
  { s with obuf := s.obuf.writeBytes 0 bs, olen := BitVec.ofNat 32 bs.length }

end Sys2Proof.Machine
end

