-- ==== Sys2Proof/Machine/Control.lean ====
section
/-! DEFINITION. The buffer and control commands NOP, OBUF_CLR, MOV_O2I, SRST (spec/43_buffer_control.md). None can
fail. -/

namespace Sys2Proof.Machine

/-- NOP (R150): only the end of a command that succeeds. -/
def execNop (s : State) : Answer := .next (succeed s)

/-- OBUF_CLR (R151). -/
def execObufClr (s : State) : Answer := .next (succeed { s with olen := 0#32 })

/-- MOV_O2I (R152): the valid part of OBUF to the start of IBUF, and the window onto the copy. -/
def execMovO2i (s : State) : Answer :=
  .next (succeed { s with ibuf := s.ibuf.writeBytes 0 (validOutput s), soff := 0#32, slen := s.olen })

/-- SRST (R156): every stored register at its reset value, STICKY too; the memories keep their bytes, of which
OBUF's and ATAB's are unspecified from then on, because OLEN and ACNT are 0. -/
def execSrst (s : State) : Answer := .next (resetRegisters s)

end Sys2Proof.Machine
end

