-- ==== Sys2Proof/Machine/Crc.lean ====
section
/-! DEFINITION. The CRC32C engine: the checksum function and CRC_INIT, CRC_BYTE, CRC_BUF (spec/40_crc.md). The
polynomial's numbers are the spec's general knowledge (spec/93_implementation_defined.md G1; log 13). -/

namespace Sys2Proof.Machine

/-- The generator polynomial, bit-reflected (R90). -/
def crcPoly : Word := 0x82F63B78#32

/-- The initial remainder (R90). -/
def crcInitial : Word := 0xFFFFFFFF#32

/-- One round of the bitwise loop (R91). -/
def crcBit (c : Word) : Word := if c.getLsbD 0 then (c >>> 1) ^^^ crcPoly else c >>> 1

/-- `crc_step(c, b)`: exclusive-or the byte in, then eight rounds (R91). -/
def crcStep (c : Word) (b : Byte) : Word := Nat.repeat crcBit 8 (c ^^^ b.zeroExtend 32)

/-- `crc_run(c, s)`: fold a byte sequence in from index 0 upward (R91). -/
def crcRun (c : Word) (bs : List Byte) : Word := bs.foldl crcStep c

/-- `crc32c(s)` (R92). -/
def crc32c (bs : List Byte) : Word := not32 (crcRun crcInitial bs)

/-- CRC_INIT (R93). -/
def execCrcInit (s : State) : Answer := .next (succeed { s with crc := crcInitial })

/-- CRC_BYTE imm8 (R94). -/
def execCrcByte (imm8 : Byte) (s : State) : Answer := .next (succeed { s with crc := crcStep s.crc imm8 })

/-- CRC_BUF (R95): Range before any byte is folded. -/
def execCrcBuf (s : State) : Answer :=
  if windowInRange s then .next (succeed { s with crc := crcRun s.crc (window s) })
  else .next (raise .range s.soff s)

end Sys2Proof.Machine
end

