-- ==== Sys2Proof/Machine/Frame.lean ====
section
/-! DEFINITION. The frame codec: `frame_encode`, `frame_decode`, FRM_ENC and FRM_DEC (spec/41_frame.md; the layout is
spec/30_encoding.md R79). No literal 1452 stands here (spec/90_conflicts.md C3). -/

namespace Sys2Proof.Machine

/-- The 4-byte header: type and payload length (R110). -/
def frameHeader (t : Half) (payload : List Byte) : List Byte :=
  be16 t ++ be16 (BitVec.ofNat 16 payload.length)

/-- Header, payload and the checksum of both (R110). -/
def frameBytes (t : Half) (payload : List Byte) : List Byte :=
  frameHeader t payload ++ payload ++ be32 (crc32c (frameHeader t payload ++ payload))

/-- `frame_encode(t, p)`, not defined above 65535 payload bytes (R110, U1). -/
def frameEncode (t : Half) (payload : List Byte) : Option (List Byte) :=
  if payload.length ≤ 65535 then some (frameBytes t payload) else none

/-- The two errors of `frame_decode` (R111). -/
inductive FrameError where
  | badLength | badChecksum
deriving DecidableEq, Repr

/-- The payload length field of a frame (R111; spec/30_encoding.md R79). -/
def frameLengthField (bs : List Byte) : Nat := fromBe (slice bs 2 4)

/-- The checksum computed over all but the last four bytes: header and payload once the length field has been
checked (R111). -/
def frameChecksum (bs : List Byte) : Word := crc32c (slice bs 0 (bs.length - 4))

/-- The trailer: the last four bytes once the length field has been checked (R111). -/
def frameTrailer (bs : List Byte) : Word := frombe32 (slice bs (bs.length - 4) bs.length)

/-- `frame_decode(s)` (R111): length before checksum (R112). -/
def frameDecode (bs : List Byte) : Except FrameError (Half × List Byte) :=
  if bs.length < 8 then .error .badLength
  else if frameLengthField bs ≠ bs.length - 8 then .error .badLength
  else if frameChecksum bs ≠ frameTrailer bs then .error .badChecksum
  else .ok (frombe16 (slice bs 0 2), slice bs 4 (bs.length - 4))

/-- FRM_ENC imm16 (R114): the window is the payload, OBUF takes the frame. Range, then Overflow. -/
def execFrmEnc (imm16 : Half) (s : State) : Answer :=
  if windowInRange s then
    if s.slen.toNat + Config.frameOverhead ≤ s.bufSize.val then
      let frame := frameBytes imm16 (window s)
      let checksum := crc32c (slice frame 0 (s.slen.toNat + 4))
      .next (succeed (setOutput frame { s with crc := not32 checksum }))
    else
      .next (raise .overflow (BitVec.ofNat 32 (s.slen.toNat + Config.frameOverhead)) { s with olen := 0#32 })
  else .next (raise .range s.soff { s with olen := 0#32 })

/-- FRM_DEC (R115): the window is a received frame; FTYPE and OBUF take its type and payload. Range, BadLength,
BadChecksum. The checksum stays in CRC after BadChecksum (spec/60_exceptions.md R196). -/
def execFrmDec (s : State) : Answer :=
  if windowInRange s then
    let frame := window s
    match frameDecode frame with
    | .error .badLength => .next (raise .badLength s.slen { s with olen := 0#32 })
    | .error .badChecksum =>
      .next (raise .badChecksum (frameChecksum frame)
        { s with crc := not32 (frameChecksum frame), olen := 0#32 })
    | .ok (t, payload) =>
      .next (succeed (setOutput payload { s with crc := not32 (frameChecksum frame), ftype := t }))
  else .next (raise .range s.soff { s with olen := 0#32 })

end Sys2Proof.Machine
end

