-- ==== Sys2Proof/Machine/Tlv.lean ====
section
/-! DEFINITION. The TLV codec: `tlv_parse`, `tlv_build`, TLV_PARSE, TLV_PUT, TLV_PUTA, TLV_BUILD (spec/42_tlv.md; the
layout is spec/30_encoding.md R82 to R84). -/

namespace Sys2Proof.Machine

/-- An attribute; its length byte is the length of its value (spec/30_encoding.md R82). -/
structure Attr where
  tag : Byte
  value : List Byte
deriving DecidableEq, Repr

/-- The two errors of `tlv_parse`, each with the offset of the tag byte at which parsing stopped (R130). -/
inductive TlvError where
  | unsupportedLength (offset : Nat)
  | truncated (offset : Nat)
deriving DecidableEq, Repr

/-- What one pass over the input finds: the attributes accepted, each with the offset of its tag byte, and how the
pass ended: at a cursor, or with an error. -/
structure TlvScan where
  found : List (Nat × Attr)
  ending : Except TlvError Nat
deriving DecidableEq, Repr

/-- Put an accepted attribute in front of what the rest of the pass finds. -/
def TlvScan.push (offset : Nat) (a : Attr) (r : TlvScan) : TlvScan := ⟨(offset, a) :: r.found, r.ending⟩

/-- The loop of R130 and R133 at cursor `cur`, `rest` being the input from there on: a missing length byte, then a
length above 127, then a value past the end (R132). Every round consumes at least two bytes, so the fuel
`rest.length` is never used up before the input is (theorem `tlvScan_fuel`). -/
def tlvScan (fuel cur : Nat) (rest : List Byte) : TlvScan :=
  match rest with
  | [] => ⟨[], .ok cur⟩
  | [_] => ⟨[], .error (.truncated cur)⟩
  | tag :: len :: tail =>
    if Config.maxAttrLen < len.toNat then ⟨[], .error (.unsupportedLength cur)⟩
    else if tail.length < len.toNat then ⟨[], .error (.truncated cur)⟩
    else
      match fuel with
      | 0 => ⟨[], .error (.truncated cur)⟩
      | fuel + 1 =>
        (tlvScan fuel (cur + 2 + len.toNat) (tail.drop len.toNat)).push cur ⟨tag, tail.take len.toNat⟩

/-- One pass over a whole input. -/
def tlvScanAll (bs : List Byte) : TlvScan := tlvScan bs.length 0 bs

/-- `tlv_parse(s)` (R130): all the attributes, or the error. -/
def tlvParse (bs : List Byte) : Except TlvError (List Attr) :=
  match (tlvScanAll bs).ending with
  | .ok _ => .ok ((tlvScanAll bs).found.map Prod.snd)
  | .error e => .error e

/-- One attribute as bytes: tag, length, value (R131). -/
def attrBytes (a : Attr) : List Byte := a.tag :: BitVec.ofNat 8 a.value.length :: a.value

/-- The concatenation of attributes as bytes (R131). -/
def tlvBytes (as : List Attr) : List Byte := as.flatMap attrBytes

/-- `tlv_build(as)`, not defined where a value is longer than 127 bytes (R131, U2). -/
def tlvBuild (as : List Attr) : Option (List Byte) :=
  if as.all fun a => decide (a.value.length ≤ Config.maxAttrLen) then some (tlvBytes as) else none

/-- The table entry for an attribute found at an offset of a window that starts at `base` (R133): `voff` is the
absolute index of the first value byte. -/
def entryOf (base : Nat) (found : Nat × Attr) : AtabEntry :=
  ⟨found.2.tag, BitVec.ofNat 8 found.2.value.length, BitVec.ofNat 32 (base + found.1 + 2)⟩

/-- TLV_PARSE (R133): all or nothing in ACNT; CUR keeps the offending offset after an error. The entries accepted
before an error are written and lie outside the valid part. -/
def execTlvParse (s : State) : Answer :=
  if windowInRange s then
    let scan := tlvScanAll (window s)
    let entries := scan.found.map (entryOf s.soff.toNat)
    let s' := { s with atab := writeAtab entries s.atab }
    match scan.ending with
    | .ok cur =>
      .next (succeed { s' with acnt := BitVec.ofNat 32 entries.length, cur := BitVec.ofNat 32 cur })
    | .error (.unsupportedLength cur) =>
      .next (raise .unsupportedLength (BitVec.ofNat 32 cur) { s' with acnt := 0#32, cur := BitVec.ofNat 32 cur })
    | .error (.truncated cur) =>
      .next (raise .truncated (BitVec.ofNat 32 cur) { s' with acnt := 0#32, cur := BitVec.ofNat 32 cur })
  else .next (raise .range s.soff { s with acnt := 0#32, cur := 0#32 })

/-- TLV_PUT imm8 (R134): append (imm8, window). Range, UnsupportedLength, Overflow; nothing written on error. -/
def execTlvPut (imm8 : Byte) (s : State) : Answer :=
  if windowInRange s then
    if s.slen.toNat ≤ Config.maxAttrLen then
      if appendedLen s s.slen.toNat ≤ s.bufSize.val then
        .next (succeed (appendAttr imm8 (s.slen.setWidth 8) (window s) s))
      else .next (raise .overflow (BitVec.ofNat 32 (appendedLen s s.slen.toNat)) s)
    else .next (raise .unsupportedLength s.slen s)
  else .next (raise .range s.soff s)

/-- TLV_PUTA imm16 (R135): append ATAB[imm16], its value read from IBUF now. Range, Overflow; nothing written on
error; no check of `voff` (spec/10_state.md R44). -/
def execTlvPuta (imm16 : Half) (s : State) : Answer :=
  if imm16.toNat < s.acnt.toNat then
    let e := atabEntry s imm16.toNat
    if appendedLen s e.len.toNat ≤ s.bufSize.val then .next (succeed (appendEntry s e))
    else .next (raise .overflow (BitVec.ofNat 32 (appendedLen s e.len.toNat)) s)
  else .next (raise .range (imm16.zeroExtend 32) s)

/-- TLV_BUILD (R136): empty OBUF, then append every valid entry in table order. It cannot fail. -/
def execTlvBuild (s : State) : Answer :=
  .next (succeed ((validEntries s).foldl appendEntry { s with olen := 0#32 }))

end Sys2Proof.Machine
end

