-- ==== Sys2Proof/Machine/Dispatch.lean ====
section
/-! DEFINITION. One arm per command, each a direct call of its meaning. -/

namespace Sys2Proof.Machine

def exec (i : Instr) (s : State) : Host.Outcome State Fault Refusal :=
  match i with
  | .nop => Sys2Proof.Machine.execNop s
  | .crcInit => Sys2Proof.Machine.execCrcInit s
  | .crcByte imm8 => Sys2Proof.Machine.execCrcByte imm8 s
  | .crcBuf => Sys2Proof.Machine.execCrcBuf s
  | .frmEnc imm16 => Sys2Proof.Machine.execFrmEnc imm16 s
  | .frmDec => Sys2Proof.Machine.execFrmDec s
  | .tlvParse => Sys2Proof.Machine.execTlvParse s
  | .obufClr => Sys2Proof.Machine.execObufClr s
  | .tlvPut imm8 => Sys2Proof.Machine.execTlvPut imm8 s
  | .tlvPuta imm16 => Sys2Proof.Machine.execTlvPuta imm16 s
  | .tlvBuild => Sys2Proof.Machine.execTlvBuild s
  | .movO2i => Sys2Proof.Machine.execMovO2i s
  | .srst => Sys2Proof.Machine.execSrst s

end Sys2Proof.Machine
end

