-- ==== Sys2Proof/Machine/Bus.lean ====
section
/-! DEFINITION. The host's accesses (spec/20_memory.md R52 to R58): the address map, what each accepted access does,
the bus error, and the write to CMD that runs a command (spec/10_state.md R22). -/

namespace Sys2Proof.Machine

/-- What stands at an address of the map (R52). -/
inductive Place where
  | reg (r : Reg)
  | ibuf (i : Nat)
  | obuf (i : Nat)
  | atab (k : Nat) (second : Bool)
  | unmapped
deriving DecidableEq, Repr

/-- What stands at an offset of the ATAB aperture: the first or second word of an entry, or nothing where the offset
is not word-aligned or the entry does not exist (R52, R56, R58). -/
def placeInAtab (n : Config.BufSize) (off : Nat) : Place :=
  if off % 4 = 0 ∧ off / 8 < Config.atabSize n then .atab (off / 8) (decide (off % 8 = 4)) else .unmapped

/-- The address map (R52). A register stands only at its own aligned offset, so a misaligned register address is
unmapped here, which is the same bus error (R58). -/
def placeAt (n : Config.BufSize) (addr : BitVec 19) : Place :=
  let a := addr.toNat
  if a < 0x10000 then
    match Reg.ofOffset a with
    | some r => .reg r
    | none => .unmapped
  else if a < 0x20000 then (if a - 0x10000 < n.val then .ibuf (a - 0x10000) else .unmapped)
  else if a < 0x30000 then (if a - 0x20000 < n.val then .obuf (a - 0x20000) else .unmapped)
  else if a < 0x40000 then .unmapped
  else placeInAtab n (a - 0x40000)

/-- Record the bus's answer (log 5). -/
def respond (r : BusResponse) (s : State) : State := { s with responses := r :: s.responses }

/-- Deliver a fresh unspecified byte (R41; log 3). -/
def respondFreeByte (s : State) : State :=
  { respond (.readByte (Config.freeByte s.draws)) s with draws := s.draws + 1 }

/-- Deliver a fresh unspecified word (R43; log 3). -/
def respondFreeWord (s : State) : State :=
  { respond (.readWord (Config.freeWord s.draws)) s with draws := s.draws + 1 }

/-- The error response to a read, with unspecified data beside it (R58, U6; log 4). -/
def busReadError (s : State) : State :=
  { respond (.readError (Config.freeWord s.draws)) s with draws := s.draws + 1 }

/-- A host read (R53 to R58). -/
def busRead (addr : BitVec 19) (width : Width) (s : State) : State :=
  match placeAt s.bufSize addr, width with
  | .reg r, .w32 => respond (.readWord (readReg s r)) s
  | .ibuf i, .w8 => respond (.readByte (ibufByte s i)) s
  | .obuf i, .w8 => if i < s.olen.toNat then respond (.readByte (obufByte s i)) s else respondFreeByte s
  | .atab k second, .w32 =>
    if k < s.acnt.toNat then
      respond (.readWord (if second then (atabEntry s k).word1 else (atabEntry s k).word0)) s
    else respondFreeWord s
  | _, _ => busReadError s

/-- A write to CMD (R22): the word's command, or IllegalCommand and nothing else (spec/30_encoding.md R78). -/
def runCommand (w : Word) (s : State) : Answer :=
  match decode w with
  | .ok i => exec i s
  | .error _ => .next (raise .illegalCommand w s)

/-- A 32-bit host write (R53, R56, R58). -/
def busWrite32 (addr : BitVec 19) (v : Word) (s : State) : Answer :=
  match placeAt s.bufSize addr with
  | .reg .cmd => runCommand v (respond .written s)
  | .reg r => .next (respond .written (writeReg s r v))
  | .atab _ _ => .next (respond .written s)
  | _ => .next (respond .writeError s)

/-- An 8-bit host write (R54, R55, R58). -/
def busWrite8 (addr : BitVec 19) (b : Byte) (s : State) : State :=
  match placeAt s.bufSize addr with
  | .ibuf i => respond .written { s with ibuf := s.ibuf.write i b }
  | .obuf _ => respond .written s
  | _ => respond .writeError s

/-- A 16-bit host write: no range accepts one (R57, R58). -/
def busWrite16 (s : State) : State := respond .writeError s

/-- One event at the block. -/
def handle (ev : BusEvent) (s : State) : Answer :=
  match ev with
  | .read addr width => .next (busRead addr width s)
  | .write8 addr b => .next (busWrite8 addr b s)
  | .write16 _ _ => .next (busWrite16 s)
  | .write32 addr v => busWrite32 addr v s
  | .hardwareReset => .next (hardwareReset s)

/-- The next event to happen, and the state without it in the queue. -/
def takeEvent (s : State) : Option (BusEvent × State) :=
  match s.pending with
  | [] => none
  | ev :: rest => some (ev, { s with pending := rest })

end Sys2Proof.Machine
end

