-- ==== Sys2Proof/Machine/Step.lean ====
section
/-! DEFINITION. One step: the next event of the host happens. With no event left nothing happens, since the block never
acts on its own (spec/20_memory.md R63, spec/70_reset_and_hazards.md R239; log 5). -/

namespace Sys2Proof.Machine

def step (s : State) : Host.Outcome State Fault Refusal :=
  match takeEvent s with
  | none => .next s
  | some (ev, s') => handle ev s'

/-- `s` with the write of the command word to CMD as the host's next access: the place a command word comes from
(spec/20_memory.md R65; log 5, log 18). -/
def State.withFetchWord (s : State) (nbits w : Nat) : State :=
  { s with pending := .write32 0x00000#19 (tableWord nbits w) :: s.pending }

end Sys2Proof.Machine
end

