-- ==== Sys2Proof/Machine/Assembler.lean ====
section
/-! DEFINITION. The assembler's text (spec/30_encoding.md R86, R88): one command a line, `;` starts a comment, a mnemonic in
upper case and at most one number. Numbers: log 16. -/

namespace Sys2Proof.Machine

/-- A mnemonic's letters (R75). -/
def mnemonicLetters : Mnemonic → List Char
  | .NOP => ['N', 'O', 'P']
  | .CRC_INIT => ['C', 'R', 'C', '_', 'I', 'N', 'I', 'T']
  | .CRC_BYTE => ['C', 'R', 'C', '_', 'B', 'Y', 'T', 'E']
  | .CRC_BUF => ['C', 'R', 'C', '_', 'B', 'U', 'F']
  | .FRM_ENC => ['F', 'R', 'M', '_', 'E', 'N', 'C']
  | .FRM_DEC => ['F', 'R', 'M', '_', 'D', 'E', 'C']
  | .TLV_PARSE => ['T', 'L', 'V', '_', 'P', 'A', 'R', 'S', 'E']
  | .OBUF_CLR => ['O', 'B', 'U', 'F', '_', 'C', 'L', 'R']
  | .TLV_PUT => ['T', 'L', 'V', '_', 'P', 'U', 'T']
  | .TLV_PUTA => ['T', 'L', 'V', '_', 'P', 'U', 'T', 'A']
  | .TLV_BUILD => ['T', 'L', 'V', '_', 'B', 'U', 'I', 'L', 'D']
  | .MOV_O2I => ['M', 'O', 'V', '_', 'O', '2', 'I']
  | .SRST => ['S', 'R', 'S', 'T']

/-- The 13 mnemonics in table order. -/
def allMnemonics : List Mnemonic :=
  [.NOP, .CRC_INIT, .CRC_BYTE, .CRC_BUF, .FRM_ENC, .FRM_DEC, .TLV_PARSE, .OBUF_CLR, .TLV_PUT, .TLV_PUTA, .TLV_BUILD,
   .MOV_O2I, .SRST]

/-- The value of a digit of a base up to 16, its letter in either case. -/
def digitValue (base : Nat) (c : Char) : Option Nat :=
  (List.range base).find? fun d => c == Nat.digitChar d || c == (Nat.digitChar d).toUpper

/-- The number that at least one digit of a base stands for, most significant digit first. -/
def numberInBase (base : Nat) (digits : List Char) : Option Nat :=
  if digits.isEmpty then none else digits.foldlM (fun n c => (digitValue base c).map (base * n + ·)) 0

/-- A number: `0x` and hexadecimal digits (spec/00_scope.md R11), or decimal digits. -/
def numeral (text : List Char) : Option Nat :=
  if text.take 2 = ['0', 'x'] then numberInBase 16 (text.drop 2) else numberInBase 10 text

/-- The words of a line, separated by spaces or tabs. -/
def lineWords (line : List Char) : List (List Char) :=
  (line.foldr (fun c ws =>
    if c = ' ' ∨ c = '\t' then [] :: ws
    else match ws with
      | [] => [[c]]
      | w :: ws => (c :: w) :: ws) [[]]).filter fun w => !w.isEmpty

/-- The commands a mnemonic and an optional number stand for: a command (R86) or a pseudo-instruction (R88). -/
def assembleWords (name : List Char) (imm : Option Nat) : Option (List Instr) :=
  if name = ['C', 'R', 'C', '3', '2', 'C'] then
    match imm with
    | none => AsmPseudo.crc32c.expand
    | some _ => none
  else if name = ['F', 'R', 'A', 'M', 'E'] then
    match imm with
    | none => none
    | some t => (AsmPseudo.frame t).expand
  else
    match allMnemonics.find? fun m => mnemonicLetters m == name with
    | none => none
    | some m => (AsmCommand.mk m imm).toInstr.map fun i => [i]

/-- The commands of one line: none for an assembly error, the empty list for a line that holds no command. -/
def assembleLine (line : List Char) : Option (List Instr) :=
  match lineWords (line.takeWhile fun c => c != ';') with
  | [] => some []
  | [name] => assembleWords name none
  | [name, n] =>
    match numeral n with
    | none => none
    | some v => assembleWords name (some v)
  | _ => none

end Sys2Proof.Machine
end

