-- ==== Sys2Proof/Machine/HostSoftware.lean ====
section
/-! DEFINITION. The host software the block serves, which spec/00_scope.md R5 places outside the hardware: the
constants, the ProtocolHandler and the listeners of spec/44_host_protocol.md as pure functions. No step of the machine
uses this file; it says what a host program is for. Log 15, log 20. -/

namespace Sys2Proof.Machine

/-! ## Constants (R160, R161) -/

/-- Frame type DISCOVER_REQ (R160). -/
def discoverReq : Half := 0x0002#16

/-- Frame type DISCOVER_RPY (R160). -/
def discoverRpy : Half := 0x0003#16

/-- Frame type GETSET_REQ (R160). -/
def getsetReq : Half := 0x0004#16

/-- Frame type GETSET_RPY (R160). -/
def getsetRpy : Half := 0x0005#16

/-- Tag device-type (R161). -/
def tagDeviceType : Byte := 0x01#8

/-- Tag device-id (R161). -/
def tagDeviceId : Byte := 0x02#8

/-- Tag getset-name (R161). -/
def tagName : Byte := 0x03#8

/-- Tag getset-value (R161). -/
def tagValue : Byte := 0x04#8

/-- Tag tuner-count (R161). -/
def tagTunerCount : Byte := 0x10#8

/-- The tags that are defined and unused: error-message, lock-key, the two auth tags, base-URL (R161). -/
def unusedTags : List Byte := [0x05#8, 0x15#8, 0x29#8, 0x2B#8, 0x2A#8]

/-- The tuner-class constant (R161, R165). -/
def tunerClass : Word := 0x00000001#32

/-- The default of the host parameter `DISCOVER_URL_TAG` (R166, spec/90_conflicts.md C1). -/
def defaultUrlTag : Byte := tagName

/-- DeviceIdentity (R163), less the fixed device type. -/
structure DeviceIdentity where
  deviceId : Word
  tunerCount : Byte
  baseUrl : List Byte
deriving DecidableEq, Repr

/-! ## The ProtocolHandler (R164 to R170) -/

/-- The four attributes of a discovery reply, in order (R165). -/
def discoverAttrs (urlTag : Byte) (d : DeviceIdentity) : List Attr :=
  [⟨tagDeviceType, be32 tunerClass⟩, ⟨tagDeviceId, be32 d.deviceId⟩, ⟨urlTag, d.baseUrl⟩,
   ⟨tagTunerCount, [d.tunerCount]⟩]

/-- A frame of type `t` whose payload is these attributes; none where an attribute has no encoding. -/
def replyFrame (t : Half) (as : List Attr) : Option (List Byte) := (tlvBuild as).bind (frameEncode t)

/-- The first attribute with a tag, in table order (R168, D32). -/
def firstWithTag (tag : Byte) (as : List Attr) : Option Attr := as.find? fun a => a.tag == tag

/-- The attributes a get/set reply echoes: NAME, then VALUE if there is one; nothing without a NAME (R167, R168). -/
def echoAttrs (as : List Attr) : Option (List Attr) :=
  (firstWithTag tagName as).map fun name => name :: (firstWithTag tagValue as).toList

/-- The reply to a get/set request with this payload (R167, R168, R170). -/
def getsetReply (payload : List Byte) : Option (List Byte) :=
  match tlvParse payload with
  | .error _ => none
  | .ok as => (echoAttrs as).bind (replyFrame getsetRpy)

/-- The ProtocolHandler: from received bytes and the identity to an optional reply frame (R164 to R170). -/
def protocolHandler (urlTag : Byte) (d : DeviceIdentity) (received : List Byte) : Option (List Byte) :=
  match frameDecode received with
  | .error _ => none
  | .ok (t, payload) =>
    if t = discoverReq then replyFrame discoverRpy (discoverAttrs urlTag d)
    else if t = getsetReq then getsetReply payload
    else none

/-! ## The listeners (R173 to R175) -/

/-- A sender's IP address; the source gives it no format (log 15). -/
abbrev Sender := Nat

/-- What a listener meets next (R172): bytes from a sender, a TransportFault in the handling of one accepted connection
(its receive or its send fails), or a TransportFault of the listener's own socket (bind, accept; for datagrams every one). -/
inductive ListenerInput where
  | received (sender : Sender) (bytes : List Byte)
  | connectionFault (sender : Sender)
  | transportFault
deriving DecidableEq, Repr

/-- How a listener stands after its inputs: still blocked on its socket, shut down by a zero-length receive, or ended
early (R172 to R174). -/
inductive ListenerEnd where
  | waiting | shutdown | stopped
deriving DecidableEq, Repr

/-- How much one failed request ends: its connection alone, or the whole listener. -/
inductive FailureExtent where
  | connection | listener
deriving DecidableEq, Repr

/-- THE OPEN QUESTION U8 (R177; spec/93_implementation_defined.md U8) as a parameter of the host software: how much a malformed
request ends, and how much an exception in the handling of one connection ends. The spec takes no position; neither does
the model, which has no default. Log 20. -/
structure FailurePolicy where
  malformed : FailureExtent
  exception : FailureExtent
deriving DecidableEq, Repr

/-- The request is malformed: its frame, or the payload of a get/set request, does not decode (R170; log 20). -/
def malformedRequest (bytes : List Byte) : Bool :=
  match frameDecode bytes with
  | .error _ => true
  | .ok (t, payload) =>
    match tlvParse payload with
    | .error _ => t == getsetReq
    | .ok _ => false

/-- The replies a listener sends, in order, and how it stands. `receive` is what one receive keeps of the bytes. -/
def listener (receive : List Byte → List Byte) (policy : FailurePolicy) (ignored : List Sender)
    (handler : List Byte → Option (List Byte)) : List ListenerInput → List (Sender × List Byte) × ListenerEnd
  | [] => ([], .waiting)
  | .transportFault :: _ => ([], .stopped)
  | .connectionFault _ :: rest =>
    match policy.exception with
    | .listener => ([], .stopped)
    | .connection => listener receive policy ignored handler rest
  | .received sender bytes :: rest =>
    if (receive bytes).isEmpty then ([], .shutdown)
    else if sender ∈ ignored then listener receive policy ignored handler rest
    else if malformedRequest (receive bytes) ∧ policy.malformed = .listener then ([], .stopped)
    else
      let later := listener receive policy ignored handler rest
      match handler (receive bytes) with
      | none => later
      | some reply => ((sender, reply) :: later.1, later.2)

/-- DiscoveryListener: one datagram a round; a malformed one gets no reply and nothing more (R170), a socket error ends the
loop (R172, R173). -/
def discoveryListener (ignored : List Sender) (handler : List Byte → Option (List Byte)) :
    List ListenerInput → List (Sender × List Byte) × ListenerEnd := listener id ⟨.connection, .listener⟩ ignored handler

/-- ControlListener: one connection a round, of which up to the maximum packet size is received once (R174). How much a
failed request ends is the open question U8: the source's own listener stops on every exception, `exception := .listener`
(R174), and goes on after a malformed request by R170 and R172, `malformed := .connection`, or stops by the words of R177,
`malformed := .listener`. Log 20. -/
def controlListener (policy : FailurePolicy) (ignored : List Sender) (handler : List Byte → Option (List Byte)) :
    List ListenerInput → List (Sender × List Byte) × ListenerEnd :=
  listener (List.take Config.maxPacket) policy ignored handler

end Sys2Proof.Machine
end

