-- ==== Sys2Proof/Machine/HostProgram.lean ====
section
/-! DEFINITION. Host programs: the directives (spec/30_encoding.md R87), the programs of spec/44_host_protocol.md R178 and
R179 with the host's decisions between their parts (R171, R179; spec/30_encoding.md R89), and placing a program in the
host's queue (log 5). No step of the machine uses this file. -/

namespace Sys2Proof.Machine

/-- The lines of a host program (R87). -/
inductive Directive where
  | wr (r : Reg) (v : Word)
  | rd (r : Reg)
  | ld (i : Nat) (bytes : List Byte)
  | rdo (i n : Nat)
  | rda (k : Nat)
  | command (c : Instr)
deriving DecidableEq, Repr

/-- The host address of a register. -/
def regAddr (r : Reg) : BitVec 19 := BitVec.ofNat 19 r.offset

/-- The host address of `IBUF[i]` (R52). DESIGN CHOICE, log 19: for an `i` the range does not have, R87 gives the access no
meaning; the address is the sum modulo 2^19, so `LD 0x80000` writes `IBUF[0]`. -/
def ibufAddr (i : Nat) : BitVec 19 := BitVec.ofNat 19 (0x10000 + i)

/-- The host address of `OBUF[i]` (R52); an `i` the range does not have: the sum modulo 2^19 (DESIGN CHOICE, log 19). -/
def obufAddr (i : Nat) : BitVec 19 := BitVec.ofNat 19 (0x20000 + i)

/-- The host address of a word of `ATAB[k]` (R52); a `k` the range does not have: the sum modulo 2^19 (DESIGN CHOICE,
log 19). -/
def atabAddr (k : Nat) (second : Bool) : BitVec 19 := BitVec.ofNat 19 (0x40000 + 8 * k + if second then 4 else 0)

/-- The bus accesses a line stands for (R87). An index the range does not have is no error here: log 19. -/
def Directive.events : Directive → List BusEvent
  | .wr r v => [.write32 (regAddr r) v]
  | .rd r => [.read (regAddr r) .w32]
  | .ld i bytes => bytes.mapIdx fun j b => .write8 (ibufAddr (i + j)) b
  | .rdo i n => (List.range n).map fun j => .read (obufAddr (i + j)) .w8
  | .rda k => [.read (atabAddr k false) .w32, .read (atabAddr k true) .w32]
  | .command c => [.write32 (regAddr .cmd) (encode c)]

/-- A program's accesses, in order. -/
def programEvents (p : List Directive) : List BusEvent := p.flatMap Directive.events

/-- The state with a program as what the host does next. -/
def State.withProgram (s : State) (p : List Directive) : State := { s with pending := programEvents p }

/-- The window set to `IBUF[off .. off+len)`. -/
def setWindow (off len : Nat) : List Directive :=
  [.wr .soff (BitVec.ofNat 32 off), .wr .slen (BitVec.ofNat 32 len)]

/-- The discovery reply with the block (R178). -/
def discoveryProgram (urlTag : Byte) (d : DeviceIdentity) : List Directive :=
  let u := d.baseUrl.length
  [.ld 0 (be32 tunerClass ++ be32 d.deviceId ++ d.baseUrl ++ [d.tunerCount]), .command .obufClr]
    ++ setWindow 0 4 ++ [.command (.tlvPut tagDeviceType)]
    ++ setWindow 4 4 ++ [.command (.tlvPut tagDeviceId)]
    ++ setWindow 8 u ++ [.command (.tlvPut urlTag)]
    ++ setWindow (8 + u) 1 ++ [.command (.tlvPut tagTunerCount)]
    ++ [.command .movO2i, .command (.frmEnc discoverRpy)]

/-- A received frame into IBUF, the window onto it, FRM_DEC, and the read of STATUS (R179). -/
def getsetDecodeProgram (received : List Byte) : List Directive :=
  [.ld 0 received] ++ setWindow 0 received.length ++ [.command .frmDec, .rd .status]

/-- The request's payload parsed, and the read of STATUS (R179). -/
def getsetParseProgram : List Directive := [.command .movO2i, .command .tlvParse, .rd .status]

/-- The table's `n` entries read (R179). -/
def getsetTableProgram (n : Nat) : List Directive := (List.range n).map .rda

/-- The echo of entry `name` and, if there is one, entry `value` (R179). -/
def getsetReplyProgram (name : Half) (value : Option Half) : List Directive :=
  [.command .obufClr, .command (.tlvPuta name)] ++ (value.toList.map fun j => .command (.tlvPuta j))
    ++ [.command .movO2i, .command (.frmEnc getsetRpy)]

/-! ## The host's decisions: from what it has read to what it does next, or to no reply -/

/-- After FRM_DEC and after TLV_PARSE: a STATUS with ERR = 1, whatever the error (Range from a mis-set window among them), is
no reply; else the host goes on (R171). -/
def unlessErr (status : Word) (next : List Directive) : Option (List Directive) :=
  if status.getLsbD 0 then none else some next

/-- STATUS after FRM_DEC: no reply, or FTYPE is read (R171, R179). -/
def afterFrmDec (status : Word) : Option (List Directive) := unlessErr status [.rd .ftype]

/-- The two paths of a request (R165, R167). -/
inductive RequestPath where
  | discovery | getset
deriving DecidableEq, Repr

/-- FTYPE after a successful FRM_DEC: the get/set path for 0x0004 alone (R179), the discovery path for 0x0002 (R165), for
every other type no reply (R169). -/
def requestPath (ftype : Word) : Option RequestPath :=
  if ftype = getsetReq.zeroExtend 32 then some .getset
  else if ftype = discoverReq.zeroExtend 32 then some .discovery
  else none

/-- The discovery path: a base URL of more than 127 bytes must not be sent (R178). -/
def discoveryPath (urlTag : Byte) (d : DeviceIdentity) : Option (List Directive) :=
  if d.baseUrl.length ≤ Config.maxAttrLen then some (discoveryProgram urlTag d) else none

/-- STATUS after TLV_PARSE: no reply, or ACNT is read (R171, R179). -/
def afterTlvParse (status : Word) : Option (List Directive) := unlessErr status [.rd .acnt]

/-- The tags of the table entries, from the two words of each that RDA reads: bits 7:0 of the first (spec/20_memory.md
R56). -/
def tagsRead : List Word → List Byte
  | word0 :: _ :: rest => word0.extractLsb' 0 8 :: tagsRead rest
  | _ => []

/-- The index of the first entry with a tag (R179, D32). -/
def firstEntryWith (tag : Byte) (table : List Word) : Option Half :=
  ((tagsRead table).findIdx? fun t => t == tag).map (BitVec.ofNat 16)

/-- The words of the table: `i` is the first entry with tag 0x03, `j` the first with tag 0x04; without an `i` no reply
(R168, R179). -/
def afterTable (table : List Word) : Option (List Directive) :=
  (firstEntryWith tagName table).map fun i => getsetReplyProgram i (firstEntryWith tagValue table)

/-! ## The host at work on a block -/

/-- So many steps; a step that does not answer a next state (none is such) would leave the state. -/
def runSteps : Nat → State → State
  | 0, s => s
  | n + 1, s =>
    match step s with
    | .next t => runSteps n t
    | .fault _ => s
    | .refused _ => s

/-- A program run on a block with an empty queue: what the bus answered, oldest first, and the block's state. -/
def runProgram (p : List Directive) (s : State) : List BusResponse × State :=
  let n := (programEvents p).length
  let t := runSteps n (s.withProgram p)
  ((t.responses.take n).reverse, t)

/-- The words among the bus's answers. -/
def wordsRead (answers : List BusResponse) : List Word :=
  answers.filterMap fun
    | .readWord w => some w
    | .written | .readByte _ | .writeError | .readError _ => none

/-- The bytes among the bus's answers. -/
def bytesRead (answers : List BusResponse) : List Byte :=
  answers.filterMap fun
    | .readByte b => some b
    | .written | .readWord _ | .writeError | .readError _ => none

/-- A program run up to its last read of a register: the word read, and the block's state. -/
def runToWord (p : List Directive) (s : State) : Option (Word × State) :=
  (wordsRead (runProgram p s).1).getLast?.map fun w => (w, (runProgram p s).2)

/-- The reply that stands in OBUF: the host reads OLEN and `OBUF[0 .. OLEN)` (R178, R179). -/
def readReply (s : State) : Option (List Byte) :=
  (runToWord [.rd .olen] s).map fun (olen, s) => bytesRead (runProgram [.rdo 0 olen.toNat] s).1

/-- The get/set path from the decoded request on (R179). -/
def getsetWithBlock (s : State) : Option (List Byte) := do
  let (status, s) ← runToWord getsetParseProgram s
  let readAcnt ← afterTlvParse status
  let (acnt, s) ← runToWord readAcnt s
  let (answers, s) := runProgram (getsetTableProgram acnt.toNat) s
  let echo ← afterTable (wordsRead answers)
  readReply (runProgram echo s).2

/-- The discovery path (R178). -/
def discoveryWithBlock (urlTag : Byte) (d : DeviceIdentity) (s : State) : Option (List Byte) := do
  let build ← discoveryPath urlTag d
  readReply (runProgram build s).2

/-- What the ProtocolHandler does, done with the block (R171, R178, R179). -/
def handlerWithBlock (urlTag : Byte) (d : DeviceIdentity) (received : List Byte) (s : State) : Option (List Byte) := do
  let (status, s) ← runToWord (getsetDecodeProgram received) s
  let readFtype ← afterFrmDec status
  let (ftype, s) ← runToWord readFtype s
  match ← requestPath ftype with
  | .discovery => discoveryWithBlock urlTag d s
  | .getset => getsetWithBlock s

end Sys2Proof.Machine
end

