-- ==== Sys2Proof/Safety.lean ====
section
/-! DEFINITION. What a good state and a good run of the block are, in the terms the statements use: the invariants of
spec/10_state.md R44 and R48, the parts of the state, and which parts a command writes (R34). -/

namespace Sys2Proof.Machine

/-! ## Invariants -/

/-- A byte buffer in canonical form, with indices below BUF_SIZE. -/
def Memory.Fits (m : Memory) (n : Config.BufSize) : Prop := m.wf = true ∧ ∀ c ∈ m, c.1 < n.val

/-- A table entry as R44 has it: the length at most 127, the value inside IBUF. -/
def AtabEntry.Sound (e : AtabEntry) (n : Config.BufSize) : Prop :=
  e.len.toNat ≤ Config.maxAttrLen ∧ e.voff.toNat + e.len.toNat ≤ n.val

/-- The bytes that appending these entries takes (spec/42_tlv.md R136). -/
def entriesSize (es : List AtabEntry) : Nat := (es.map fun e => 2 + e.len.toNat).sum

/-- What holds in every reachable state (R44, R48, spec/42_tlv.md R136). SOFF, SLEN, EINFO, CRC and the host's queue are
under no invariant; FTYPE and the reserved bits of STATUS are in range by their types. -/
structure State.Inv (s : State) : Prop where
  ibuf_fits : Memory.Fits s.ibuf s.bufSize
  obuf_fits : Memory.Fits s.obuf s.bufSize
  olen_le : s.olen.toNat ≤ s.bufSize.val
  /-- Every byte of the valid part of OBUF has been written. -/
  output_written : ∀ i < s.olen.toNat, (s.obuf.read? i).isSome
  acnt_le : s.acnt.toNat ≤ Config.atabSize s.bufSize
  atab_le : s.atab.length ≤ Config.atabSize s.bufSize
  /-- Every entry of the valid part of ATAB has been written. -/
  table_written : s.acnt.toNat ≤ s.atab.length
  entries_sound : ∀ e ∈ validEntries s, e.Sound s.bufSize
  entries_size : entriesSize (validEntries s) ≤ s.bufSize.val
  cur_le : s.cur.toNat ≤ s.bufSize.val
  err_iff : s.status.err = true ↔ s.status.ecode ≠ 0#8
  ecode_le : s.status.ecode.toNat ≤ 7

/-- A claim about a program that must meet no command error says this at its end, with STICKY clear at its start
(spec/60_exceptions.md R207). -/
def State.noErrorSeen (s : State) : Prop := s.status.sticky = false

/-! ## Parts of the state -/

/-- The parts of the state a command could change. -/
inductive Part where
  | err | sticky | ecode | einfo | soff | slen | olen | ftype | crc | acnt | cur | ibuf | obuf | atab
deriving DecidableEq, Repr

/-- The two states agree on a part. Buffers agree byte by byte, the table entry by entry. -/
def Part.Same (p : Part) (s t : State) : Prop :=
  match p with
  | .err => t.status.err = s.status.err
  | .sticky => t.status.sticky = s.status.sticky
  | .ecode => t.status.ecode = s.status.ecode
  | .einfo => t.einfo = s.einfo
  | .soff => t.soff = s.soff
  | .slen => t.slen = s.slen
  | .olen => t.olen = s.olen
  | .ftype => t.ftype = s.ftype
  | .crc => t.crc = s.crc
  | .acnt => t.acnt = s.acnt
  | .cur => t.cur = s.cur
  | .ibuf => ∀ i, ibufByte t i = ibufByte s i
  | .obuf => ∀ i, obufByte t i = obufByte s i
  | .atab => ∀ k, atabEntry t k = atabEntry s k

/-- What no command touches: the parameter and the model's own fields. -/
def OutsideSame (s t : State) : Prop :=
  t.bufSize = s.bufSize ∧ t.pending = s.pending ∧ t.responses = s.responses ∧ t.resets = s.resets ∧ t.draws = s.draws

/-- Every stored register (R20). -/
def Part.registers : List Part := [.err, .sticky, .ecode, .einfo, .soff, .slen, .olen, .ftype, .crc, .acnt, .cur]

/-- The parts the end of a command writes: ERR, ECODE, EINFO after success, STICKY too after an error
(spec/60_exceptions.md R194, R195). -/
def endWrites (failed : Bool) : List Part := if failed then [.err, .sticky, .ecode, .einfo] else [.err, .ecode, .einfo]

/-- The column "Writes on success" of R34, and for SRST every stored register. -/
def successWrites : Instr → List Part
  | .nop => []
  | .crcInit | .crcByte _ | .crcBuf => [.crc]
  | .frmEnc _ => [.obuf, .olen, .crc]
  | .frmDec => [.ftype, .obuf, .olen, .crc]
  | .tlvParse => [.atab, .acnt, .cur]
  | .obufClr => [.olen]
  | .tlvPut _ | .tlvPuta _ | .tlvBuild => [.obuf, .olen]
  | .movO2i => [.ibuf, .soff, .slen]
  | .srst => Part.registers

/-- The column "Writes on error" of R34, by the error code. -/
def errorWrites (ecode : Byte) : Instr → List Part
  | .frmEnc _ => [.olen]
  | .frmDec => if ecode = CmdError.code .badChecksum then [.olen, .crc] else [.olen]
  | .tlvParse => if ecode = CmdError.code .range then [.acnt, .cur] else [.acnt, .cur, .atab]
  | .nop | .crcInit | .crcByte _ | .crcBuf | .obufClr | .tlvPut _ | .tlvPuta _ | .tlvBuild | .movO2i | .srst => []

/-- Everything R34 lets a command write, given the STATUS it leaves. -/
def mayWrite (i : Instr) (st : Status) : List Part :=
  endWrites st.err ++ if st.err then errorWrites st.ecode i else successWrites i

/-- The commands that write a part, by the sentences "Written by" of R25 to R32, R37, R40 and R42. STATUS and EINFO are
written by every command (R34). -/
def Part.writtenBy (p : Part) (i : Instr) : Bool :=
  match p with
  | .err | .sticky | .ecode | .einfo => true
  | .soff | .slen => i == .movO2i || i == .srst
  | .olen =>
    match i with
    | .frmEnc _ | .frmDec | .obufClr | .tlvPut _ | .tlvPuta _ | .tlvBuild | .srst => true
    | .nop | .crcInit | .crcByte _ | .crcBuf | .tlvParse | .movO2i => false
  | .ftype => i == .frmDec || i == .srst
  | .crc =>
    match i with
    | .crcInit | .crcByte _ | .crcBuf | .frmEnc _ | .frmDec | .srst => true
    | .nop | .tlvParse | .obufClr | .tlvPut _ | .tlvPuta _ | .tlvBuild | .movO2i => false
  | .acnt | .cur => i == .tlvParse || i == .srst
  | .ibuf => i == .movO2i
  | .obuf =>
    match i with
    | .frmEnc _ | .frmDec | .tlvPut _ | .tlvPuta _ | .tlvBuild => true
    | .nop | .crcInit | .crcByte _ | .crcBuf | .tlvParse | .obufClr | .movO2i | .srst => false
  | .atab => i == .tlvParse

/-- Nothing but these parts, and nothing outside the parts, differs. -/
def OnlyChanges (parts : List Part) (s t : State) : Prop := (∀ p, p ∉ parts → p.Same s t) ∧ OutsideSame s t

/-! ## The end of a command -/

/-- What success leaves in STATUS and EINFO (R194): STICKY stays. -/
def Succeeded (s t : State) : Prop :=
  t.status.err = false ∧ t.status.ecode = 0#8 ∧ t.einfo = 0#32 ∧ t.status.sticky = s.status.sticky

/-- What `raise e(info)` leaves in STATUS and EINFO (R195). -/
def Failed (e : CmdError) (info : Word) (t : State) : Prop :=
  t.status.err = true ∧ t.status.sticky = true ∧ t.status.ecode = e.code ∧ t.einfo = info

/-- The command on `s` succeeds, and nothing but these parts and the status fields changes. -/
def SucceedsChanging (parts : List Part) (s t : State) : Prop :=
  Succeeded s t ∧ OnlyChanges (endWrites false ++ parts) s t

/-- The command on `s` raises `e(info)`, and nothing but these parts and the status fields changes. -/
def FailsChanging (e : CmdError) (info : Word) (parts : List Part) (s t : State) : Prop :=
  Failed e info t ∧ OnlyChanges (endWrites true ++ parts) s t

/-- The errors a command can raise (R190, the column "Raised by"; R198). -/
def raisedBy : Instr → List CmdError
  | .crcBuf => [.range]
  | .frmEnc _ => [.range, .overflow]
  | .frmDec => [.range, .badLength, .badChecksum]
  | .tlvParse => [.range, .truncated, .unsupportedLength]
  | .tlvPut _ => [.range, .unsupportedLength, .overflow]
  | .tlvPuta _ => [.range, .overflow]
  | .nop | .crcInit | .crcByte _ | .obufClr | .tlvBuild | .movO2i | .srst => []

/-- Commands one after the other, with nothing between them. -/
def execAll : List Instr → State → Answer
  | [], s => .next s
  | i :: is, s =>
    match exec i s with
    | .next t => execAll is t
    | .fault r => .fault r
    | .refused r => .refused r

/-! ## A byte sequence split over CRC commands (spec/40_crc.md R96) -/

/-- One piece of a split: a byte given to CRC_BYTE, or a window, set by the host, given to CRC_BUF. -/
inductive CrcPiece where
  | byte (imm8 : Byte)
  | buf (soff slen : Word)
deriving DecidableEq, Repr

/-- The bytes of a piece: for a window, those that IBUF holds. -/
def CrcPiece.bytes (s : State) : CrcPiece → List Byte
  | .byte imm8 => [imm8]
  | .buf soff slen => ibufBytes s soff.toNat slen.toNat

/-- The piece's command does not fail: its window, if it has one, is in range (spec/00_scope.md R17). -/
def CrcPiece.InRange (s : State) : CrcPiece → Prop
  | .byte _ => True
  | .buf soff slen => soff.toNat + slen.toNat ≤ s.bufSize.val

/-- The piece's command, after the host has set the window. -/
def CrcPiece.run : CrcPiece → State → Answer
  | .byte imm8, s => exec (.crcByte imm8) s
  | .buf soff slen, s => exec .crcBuf { s with soff := soff, slen := slen }

/-- The pieces one after the other. -/
def CrcPiece.runAll : List CrcPiece → State → Answer
  | [], s => .next s
  | p :: ps, s =>
    match p.run s with
    | .next t => runAll ps t
    | .fault r => .fault r
    | .refused r => .refused r

/-! ## Host accesses the block accepts -/

/-- The accesses of the table of spec/20_memory.md R52, by address range, width and alignment, written from the table
and not from `placeAt`. -/
def accepted (n : Config.BufSize) : BusEvent → Bool
  | .read a .w32 => acceptsWord n a
  | .read a .w8 => acceptsByte n a
  | .read _ .w16 => false
  | .write32 a _ => acceptsWord n a
  | .write8 a _ => acceptsByte n a
  | .write16 _ _ => false
  | .hardwareReset => true
where
  /-- 32 bits, aligned, in the register range or the ATAB range. -/
  acceptsWord (n : Config.BufSize) (a : BitVec 19) : Bool :=
    decide (a.toNat % 4 = 0) &&
      (decide (a.toNat ≤ 0x0002F) ||
        (decide (0x40000 ≤ a.toNat) && decide (a.toNat ≤ 0x40000 + 8 * Config.atabSize n - 1)))
  /-- 8 bits in the IBUF range or the OBUF range. -/
  acceptsByte (n : Config.BufSize) (a : BitVec 19) : Bool :=
    (decide (0x10000 ≤ a.toNat) && decide (a.toNat ≤ 0x10000 + n.val - 1)) ||
      (decide (0x20000 ≤ a.toNat) && decide (a.toNat ≤ 0x20000 + n.val - 1))

/-- The error responses (R58). -/
def BusResponse.isError : BusResponse → Bool
  | .writeError | .readError _ => true
  | .written | .readByte _ | .readWord _ => false

/-- The state when the host's first pending access is under way: the event taken, its answer recorded. -/
def State.answered (s : State) (rest : List BusEvent) (r : BusResponse) : State :=
  { s with pending := rest, responses := r :: s.responses }

/-! ## Corruption -/

/-- A byte sequence with bit `k` of byte `i` flipped. -/
def flipBit (bs : List Byte) (i k : Nat) : List Byte := bs.modify i fun b => b ^^^ (1#8 <<< k)

end Sys2Proof.Machine
end

