-- ==== Sys2Proof/Certificates/Slice0/Obligations.lean ====
section
/-! DEFINITION. The statements about this model, for the provers. -/

open Sys2Proof Sys2Proof.Machine

/-! ## The command word -/

/-- Vectors W1 to W20 of spec/95_test_vectors.md section 2.2: words written out from the formats of R71 to R75. -/
def Obligations.DecodeOfWordsWrittenOut : Prop :=
  decode 0x00000000#32 = .ok .nop ∧ decode 0x01000000#32 = .ok .crcInit ∧
  decode 0x02310000#32 = .ok (.crcByte 0x31#8) ∧ decode 0x02000000#32 = .ok (.crcByte 0x00#8) ∧
  decode 0x03000000#32 = .ok .crcBuf ∧ decode 0x10000003#32 = .ok (.frmEnc 0x0003#16) ∧
  decode 0x1000FFFF#32 = .ok (.frmEnc 0xFFFF#16) ∧ decode 0x11000000#32 = .ok .frmDec ∧
  decode 0x20000000#32 = .ok .tlvParse ∧ decode 0x30000000#32 = .ok .obufClr ∧
  decode 0x31100000#32 = .ok (.tlvPut 0x10#8) ∧ decode 0x32000001#32 = .ok (.tlvPuta 1#16) ∧
  decode 0x33000000#32 = .ok .tlvBuild ∧ decode 0x40000000#32 = .ok .movO2i ∧ decode 0x7F000000#32 = .ok .srst ∧
  decode 0x02000100#32 = .error .nonzeroMustBeZero ∧ decode 0x7F000001#32 = .error .nonzeroMustBeZero ∧
  decode 0xFF000000#32 = .error .unassignedOp ∧ decode 0x10010002#32 = .error .nonzeroMustBeZero ∧
  decode 0x04000000#32 = .error .unassignedOp

/-- R77: encoding is the inverse of decoding on legal commands, and is the formula of its format. -/
def Obligations.DecodeAndEncodeAgree : Prop :=
  (∀ i, decode (encode i) = .ok i) ∧
  (∀ w i, decode w = .ok i → encode i = w) ∧
  (∀ i, encode i =
    match i with
    | .crcByte imm8 | .tlvPut imm8 => (opOf i).setWidth 32 <<< 24 ||| imm8.setWidth 32 <<< 16
    | .frmEnc imm16 | .tlvPuta imm16 => (opOf i).setWidth 32 <<< 24 ||| imm16.setWidth 32
    | .nop | .crcInit | .crcBuf | .frmDec | .tlvParse | .obufClr | .tlvBuild | .movO2i | .srst =>
      (opOf i).setWidth 32 <<< 24)

/-- R75, R76: a word is a command exactly when it selects a row of the opcode map, it selects at most one, and the row it
selects is its command's. -/
def Obligations.OpcodeRowsSelectTheLegalWords : Prop :=
  ∀ w : Word,
    (opcodeRows.filter fun r => r.selects w).length ≤ 1 ∧
    ((∃ r ∈ opcodeRows, r.selects w = true) ↔ ∃ i, decode w = .ok i) ∧
    ∀ i, decode w = .ok i → ∀ r ∈ opcodeRows, r.selects w = true → r.mnemonic = i.toAsm.mnemonic

/-- R78: of the 2^32 words 131593 are legal; every word of an unassigned op, of which there are 243, is rejected, and every
word of an assigned op with a must-be-zero field that is not zero. -/
def Obligations.LegalWordsAreCounted : Prop :=
  (∃ l : List Word, l.Nodup ∧ l.length = 131593 ∧ ∀ w, w ∈ l ↔ ∃ i, decode w = .ok i) ∧
  (∃ ops : List Byte, ops.Nodup ∧ ops.length = 243 ∧ ∀ w, decode w = .error .unassignedOp ↔ fieldOp w ∈ ops) ∧
  ∀ (w : Word) (m : Mnemonic), mnemonicOfOp (fieldOp w) = some m →
    (decode w = .error .nonzeroMustBeZero ↔
      (m.format ≠ .A ∧ fieldA w ≠ 0#8) ∨ (m.format ≠ .B ∧ fieldB w ≠ 0#16))

/-- R86: the line written for a command assembles to it; an immediate out of its field's range, a missing one and an
unexpected one are assembly errors. -/
def Obligations.AssemblyIsExact : Prop :=
  (∀ i : Instr, i.toAsm.toInstr = some i) ∧
  (∀ (m : Mnemonic) (n : Nat), m.format = .A → 256 ≤ n → (AsmCommand.mk m (some n)).toInstr = none) ∧
  (∀ (m : Mnemonic) (n : Nat), m.format = .B → 65536 ≤ n → (AsmCommand.mk m (some n)).toInstr = none) ∧
  (∀ (m : Mnemonic) (n : Nat), m.format = .N → (AsmCommand.mk m (some n)).toInstr = none) ∧
  (∀ m : Mnemonic, m.format ≠ .N → (AsmCommand.mk m none).toInstr = none)

/-! ## One step -/

/-- A write of a legal word to CMD (R22) runs its command: `step` is `exec` of the decoded command on the state in which
the access is under way. With no event pending nothing happens (R63). The queue and the record of answers are the
model's own (log 5). -/
def Obligations.StepRunsTheDecodedCommand : Prop :=
  (∀ s rest w i, s.pending = .write32 0x00000#19 w :: rest → decode w = .ok i →
    step s = exec i (s.answered rest .written)) ∧
  ∀ s, s.pending = [] → step s = .next s

/-- R78, R195, R198: a write of an illegal word to CMD raises IllegalCommand, code 7 of R190, with the word, and changes
nothing else. -/
def Obligations.IllegalWordRaisesIllegalCommand : Prop :=
  ∀ s rest w r, s.pending = .write32 0x00000#19 w :: rest → decode w = .error r →
    ∃ t, step s = .next t ∧ t.status.ecode = 7#8 ∧ FailsChanging .illegalCommand w [] (s.answered rest .written) t

/-- Every step has a successor and every command too. R207 says it of the CMD writes the bus accepts. That the other accesses
are steps as well is the model's choice: a bus error, which R58 and R207 let a model refuse, is a step (log 4), a read of
an unspecified place delivers a free value (log 3), and no fault and no refusal is left (log 11). -/
def Obligations.EveryStepHasANextState : Prop :=
  (∀ s, ∃ t, step s = .next t) ∧ ∀ i s, ∃ t, exec i s = .next t

/-- R53 with R21 to R33: a 32-bit read at a register's offset returns the register's value and changes nothing. -/
def Obligations.RegisterReadsReturnTheRegister : Prop :=
  (Reg.all.map Reg.offset =
    [0x000, 0x004, 0x008, 0x00C, 0x010, 0x014, 0x018, 0x01C, 0x020, 0x024, 0x028, 0x02C]) ∧
  ∀ s rest r, s.pending = .read (regAddr r) .w32 :: rest →
    ∃ v : Word, step s = .next (s.answered rest (.readWord v)) ∧
      match r with
      | .cmd => v = 0#32
      | .status =>
        v.getLsbD 0 = s.status.err ∧ v.getLsbD 1 = s.status.sticky ∧ v.extractLsb' 2 6 = 0#6 ∧
          v.extractLsb' 8 8 = s.status.ecode ∧ v.extractLsb' 16 16 = 0#16
      | .einfo => v = s.einfo
      | .soff => v = s.soff
      | .slen => v = s.slen
      | .olen => v = s.olen
      | .ftype => v.extractLsb' 0 16 = s.ftype ∧ v.extractLsb' 16 16 = 0#16
      | .crc => v = s.crc
      | .crcval => v = s.crc ^^^ 0xFFFFFFFF#32
      | .acnt => v = s.acnt
      | .cur => v = s.cur
      | .cap => v.toNat = s.bufSize.val

/-- R53, R21, R23: a 32-bit write stores SOFF, SLEN and CRC whole, clears STICKY where bit 1 is set, and changes nothing in
a read-only register. -/
def Obligations.RegisterWritesStoreOrAreIgnored : Prop :=
  ∀ s rest r v, s.pending = .write32 (regAddr r) v :: rest → r ≠ .cmd →
    step s = .next
      (match r with
        | .status =>
          { s.answered rest .written with
            status := { s.status with sticky := if v.getLsbD 1 then false else s.status.sticky } }
        | .soff => { s.answered rest .written with soff := v }
        | .slen => { s.answered rest .written with slen := v }
        | .crc => { s.answered rest .written with crc := v }
        | _ => s.answered rest .written)

/-- R54: an 8-bit write to `IBUF[i]` stores the byte there and does nothing else; an 8-bit read returns `IBUF[i]`, which for a
byte not written since hardware reset depends on nothing but the index and the reset (the draw of R39). -/
def Obligations.IbufByteAccess : Prop :=
  (∀ s rest i b, i < s.bufSize.val → s.pending = .write8 (ibufAddr i) b :: rest →
    ∃ t, step s = .next t ∧ ibufByte t i = b ∧ (∀ j, j ≠ i → ibufByte t j = ibufByte s j) ∧
      OnlyChanges [.ibuf] (s.answered rest .written) t) ∧
  (∀ s rest i, i < s.bufSize.val → s.pending = .read (ibufAddr i) .w8 :: rest →
    step s = .next (s.answered rest (.readByte (ibufByte s i)))) ∧
  ∀ s t i, s.ibuf.read? i = none → t.ibuf.read? i = none → s.resets = t.resets → ibufByte s i = ibufByte t i

/-- R55: an 8-bit read of OBUF below OLEN returns the byte; above, below BUF_SIZE, it completes with some byte and changes
nothing of the block; a write changes nothing and completes. -/
def Obligations.ObufByteAccess : Prop :=
  (∀ s rest i, i < s.olen.toNat → i < s.bufSize.val → s.pending = .read (obufAddr i) .w8 :: rest →
    step s = .next (s.answered rest (.readByte (obufByte s i)))) ∧
  (∀ s rest i, s.olen.toNat ≤ i → i < s.bufSize.val → s.pending = .read (obufAddr i) .w8 :: rest →
    ∃ b, step s = .next { s.answered rest (.readByte b) with draws := s.draws + 1 }) ∧
  ∀ s rest i b, i < s.bufSize.val → s.pending = .write8 (obufAddr i) b :: rest →
    step s = .next (s.answered rest .written)

/-- R56: the two words of a valid table entry; an entry at or above ACNT reads as some word; a write changes nothing. -/
def Obligations.AtabWordAccess : Prop :=
  (∀ s rest k, k < s.acnt.toNat → k < Config.atabSize s.bufSize → s.pending = .read (atabAddr k false) .w32 :: rest →
    ∃ v : Word, step s = .next (s.answered rest (.readWord v)) ∧ v.extractLsb' 0 8 = (atabEntry s k).tag ∧
      v.extractLsb' 8 8 = (atabEntry s k).len ∧ v.extractLsb' 16 16 = 0#16) ∧
  (∀ s rest k, k < s.acnt.toNat → k < Config.atabSize s.bufSize → s.pending = .read (atabAddr k true) .w32 :: rest →
    step s = .next (s.answered rest (.readWord (atabEntry s k).voff))) ∧
  (∀ s rest k second, s.acnt.toNat ≤ k → k < Config.atabSize s.bufSize →
    s.pending = .read (atabAddr k second) .w32 :: rest →
    ∃ v, step s = .next { s.answered rest (.readWord v) with draws := s.draws + 1 }) ∧
  ∀ s rest k second v, k < Config.atabSize s.bufSize → s.pending = .write32 (atabAddr k second) v :: rest →
    step s = .next (s.answered rest .written)

/-- R58 with the map of R52 (`accepted`, written from the table): an access the block does not accept gets the error
response and changes no part of the state, STATUS and EINFO among them; an accepted one gets no error response. -/
def Obligations.BusErrorsChangeNothing : Prop :=
  ∀ s ev rest, s.pending = ev :: rest →
    (accepted s.bufSize ev = false →
      ∃ t r, step s = .next t ∧ r.isError = true ∧ t.responses = r :: s.responses ∧ t.pending = rest ∧
        (∀ p : Part, p.Same s t) ∧ t.bufSize = s.bufSize ∧ t.resets = s.resets) ∧
    (accepted s.bufSize ev = true → ev ≠ .hardwareReset →
      ∃ t r, step s = .next t ∧ r.isError = false ∧ t.responses = r :: s.responses ∧ t.pending = rest)

/-- R38, R37: a byte of IBUF keeps its value in every step but a host write to that very byte, MOV_O2I and hardware reset. -/
def Obligations.IbufBytesKeepTheirValue : Prop :=
  ∀ s t i, step s = .next t → ibufByte t i ≠ ibufByte s i →
    (∃ b rest, s.pending = .write8 (ibufAddr i) b :: rest ∧ i < s.bufSize.val) ∨
      (∃ rest, s.pending = .write32 (regAddr .cmd) (encode .movO2i) :: rest) ∨ ∃ rest, s.pending = .hardwareReset :: rest

/-- R25 to R32, R37, R40, R42, the sentences "Written by": a step that changes a register or a memory is hardware reset, a
command that the part's rule names, or a host write to that register or to IBUF; STATUS and EINFO change with every
command, also one that is illegal. So OBUF is byte for byte as before after OBUF_CLR and SRST, and ATAB after SRST, which
R47, R151, R156 and R234 leave unspecified: that State keeps them is the model's choice, log 7. -/
def Obligations.EveryPartHasOnlyItsWriters : Prop :=
  ∀ s t, step s = .next t → ∀ p : Part, ¬ p.Same s t →
    (∃ rest, s.pending = .hardwareReset :: rest) ∨
      (∃ i rest, s.pending = .write32 (regAddr .cmd) (encode i) :: rest ∧ p.writtenBy i = true) ∨
      (∃ w r rest, s.pending = .write32 (regAddr .cmd) w :: rest ∧ decode w = .error r ∧
        p ∈ [Part.err, .sticky, .ecode, .einfo]) ∨
      (∃ r v rest, s.pending = .write32 (regAddr r) v :: rest ∧
        (p, r) ∈ [(Part.soff, Reg.soff), (.slen, .slen), (.crc, .crc), (.sticky, .status)]) ∨
      ∃ i b rest, s.pending = .write8 (ibufAddr i) b :: rest ∧ i < s.bufSize.val ∧ p = .ibuf

/-! ## Reset -/

/-- R47: the registers of the state right after hardware reset, with the views CRCVAL and CAP. BUF_SIZE is 1460 there by the
model's choice (log 1). -/
def Obligations.ResetStateHasTheValuesOfTheTable : Prop :=
  let r := readReg State.reset
  r .status = 0#32 ∧ r .einfo = 0#32 ∧ r .soff = 0#32 ∧ r .slen = 0#32 ∧ r .olen = 0#32 ∧ r .ftype = 0#32 ∧
    r .crc = 0xFFFFFFFF#32 ∧ r .crcval = 0#32 ∧ r .acnt = 0#32 ∧ r .cur = 0#32 ∧ r .cap = 1460#32

/-- R47, R220, R156: hardware reset and SRST put every register at the value of the table, from every state. SRST leaves IBUF
as it was and hardware reset leaves every byte of it at the draw made at that reset (a free value). -/
def Obligations.BothResetsGiveTheValuesOfTheTable : Prop :=
  (∀ s rest, s.pending = .hardwareReset :: rest →
    ∃ t, step s = .next t ∧ (∀ r, r ≠ .cap → readReg t r = readReg State.reset r) ∧
      readReg t .cap = readReg s .cap ∧ t.bufSize = s.bufSize ∧ t.pending = rest ∧
      ∀ i, t.ibuf.read? i = none ∧ ibufByte t i = Config.ibufAtReset (s.resets + 1) i) ∧
  ∀ s, ∃ t, exec .srst s = .next t ∧ (∀ r, r ≠ .cap → readReg t r = readReg State.reset r) ∧
    readReg t .cap = readReg s .cap ∧ ∀ i, ibufByte t i = ibufByte s i

/-! ## Invariants -/

/-- The state right after reset meets the invariant. -/
def Obligations.ResetMeetsTheInvariant : Prop := State.reset.Inv

/-- R44, R48 and the length argument of R136, with the canonical form of the buffers: every event keeps them. -/
def Obligations.EveryStepKeepsTheInvariant : Prop := ∀ s t : State, s.Inv → step s = .next t → t.Inv

/-- R48: ERR is 1 and STICKY 0 only where it was so before the step or the host has just cleared STICKY. -/
def Obligations.ErrImpliesStickyUnlessTheHostClearedIt : Prop :=
  ∀ s t, step s = .next t → t.status.err = true → t.status.sticky = false →
    (s.status.err = true ∧ s.status.sticky = false) ∨
      ∃ v rest, s.pending = .write32 (regAddr .status) v :: rest ∧ v.getLsbD 1 = true

/-- R35: every command sets or clears ERR; STICKY is set by every failing command, cleared by SRST, a host write of 1 to
STATUS bit 1 and hardware reset and by nothing else; no command reads either flag, so a command's outcome is the same
whatever STATUS was. -/
def Obligations.FlagsChangeAsSaidAndAreNeverRead : Prop :=
  (∀ i s t, exec i s = .next t →
    t.status.sticky = (t.status.err || (s.status.sticky && decide (i ≠ .srst)))) ∧
  (∀ s t, step s = .next t → s.status.sticky = true → t.status.sticky = false →
    (∃ rest, s.pending = .hardwareReset :: rest) ∨ (∃ rest, s.pending = .write32 (regAddr .cmd) (encode .srst) :: rest) ∨
      ∃ v rest, s.pending = .write32 (regAddr .status) v :: rest ∧ v.getLsbD 1 = true) ∧
  (∀ s t, step s = .next t → s.status.sticky = false → t.status.sticky = true →
    t.status.err = true ∧ ∃ w rest, s.pending = .write32 (regAddr .cmd) w :: rest) ∧
  ∀ i s t st, exec i s = .next t →
    exec i { s with status := st } =
      .next { t with status := { t.status with sticky := t.status.err || (st.sticky && decide (i ≠ .srst)) } }

/-! ## Every command -/

/-- R194, R195, R190, R198: what every command leaves in STATUS and EINFO. Success: ERR, ECODE and EINFO 0, STICKY as it was,
or 0 after SRST. Error: ERR and STICKY 1, ECODE a number from 1 to 6 that R190's table gives an error of this command, and
EINFO what its column `info` says: 1 BadLength, SLEN; 2 BadChecksum, the computed checksum; 3 UnsupportedLength, the
offset of the attribute or SLEN; 4 Truncated, the offset; 5 Overflow, the OLEN there would have been;
6 Range, SOFF or the index. (7, IllegalCommand, is no decoded command's: IllegalWordRaisesIllegalCommand.) -/
def Obligations.EndOfEveryCommand : Prop :=
  ∀ i s t, exec i s = .next t →
    (t.status.err = false → t.status.ecode = 0#8 ∧ t.einfo = 0#32 ∧
      t.status.sticky = (s.status.sticky && decide (i ≠ .srst))) ∧
    (t.status.err = true → t.status.sticky = true ∧ (∃ e ∈ raisedBy i, t.status.ecode = e.code) ∧
      ((t.status.ecode = 1#8 ∧ i = .frmDec ∧ t.einfo = s.slen) ∨
        (t.status.ecode = 2#8 ∧ i = .frmDec ∧ t.einfo = crc32c ((window s).take (s.slen.toNat - 4))) ∨
        (t.status.ecode = 3#8 ∧
          ((∃ off, i = .tlvParse ∧ tlvParse (window s) = .error (.unsupportedLength off) ∧
              t.einfo = BitVec.ofNat 32 off) ∨
            ∃ imm8, i = .tlvPut imm8 ∧ t.einfo = s.slen)) ∨
        (t.status.ecode = 4#8 ∧
          ∃ off, i = .tlvParse ∧ tlvParse (window s) = .error (.truncated off) ∧ t.einfo = BitVec.ofNat 32 off) ∨
        (t.status.ecode = 5#8 ∧
          ((∃ imm16, i = .frmEnc imm16 ∧ t.einfo = BitVec.ofNat 32 (s.slen.toNat + 8)) ∨
            (∃ imm8, i = .tlvPut imm8 ∧ t.einfo = BitVec.ofNat 32 (s.olen.toNat + 2 + s.slen.toNat)) ∨
            ∃ imm16, i = .tlvPuta imm16 ∧
              t.einfo = BitVec.ofNat 32 (s.olen.toNat + 2 + (atabEntry s imm16.toNat).len.toNat))) ∨
        (t.status.ecode = 6#8 ∧
          (((i = .crcBuf ∨ (∃ imm16, i = .frmEnc imm16) ∨ i = .frmDec ∨ i = .tlvParse ∨ ∃ imm8, i = .tlvPut imm8) ∧
              t.einfo = s.soff) ∨
            ∃ imm16, i = .tlvPuta imm16 ∧ t.einfo = imm16.setWidth 32))))

/-- R34: a command changes no part of the state but those its row of the table names, and nothing outside the block. Where the
spec calls the bytes of OBUF at OLEN and above or the entries of ATAB at ACNT and above unspecified afterwards (R41, R43,
R47, R151, R156), that they are as before is the model's choice: log 7. -/
def Obligations.CommandsWriteOnlyTheirParts : Prop :=
  ∀ i s t, exec i s = .next t → OnlyChanges (mayWrite i t.status) s t

/-- R119: the result of FRM_ENC depends only on imm16, SOFF, SLEN and the window's bytes, of FRM_DEC only on SOFF, SLEN and the
window's bytes: two states that agree on those (and on the parameter) get the same status, registers and output. -/
def Obligations.FrameCommandsAreStateless : Prop :=
  ∀ (i : Instr) (s s' t t' : State), (i = .frmDec ∨ ∃ ty, i = .frmEnc ty) →
    s.bufSize = s'.bufSize → s.soff = s'.soff → s.slen = s'.slen → window s = window s' →
    exec i s = .next t → exec i s' = .next t' →
    t.status.err = t'.status.err ∧ t.status.ecode = t'.status.ecode ∧ t.einfo = t'.einfo ∧ t.olen = t'.olen ∧
      validOutput t = validOutput t' ∧
      (t.status.err = false ∨ t.status.ecode = CmdError.code .badChecksum → t.crc = t'.crc) ∧
      (t.status.err = false → i = .frmDec → t.ftype = t'.ftype)

/-- R142: TLV_PARSE depends only on SOFF, SLEN and the window's bytes; TLV_PUT only on imm8, the window and OLEN; TLV_PUTA and
TLV_BUILD only on the valid table, the IBUF bytes it points at and (TLV_PUTA) OLEN. What is compared is the status, the
table's valid part, and, for the commands that append, the bytes appended. -/
def Obligations.TlvCommandsAreStateless : Prop :=
  (∀ s s' t t', s.bufSize = s'.bufSize → s.soff = s'.soff → s.slen = s'.slen → window s = window s' →
    exec .tlvParse s = .next t → exec .tlvParse s' = .next t' →
    t.status.err = t'.status.err ∧ t.status.ecode = t'.status.ecode ∧ t.einfo = t'.einfo ∧ t.cur = t'.cur ∧
      t.acnt = t'.acnt ∧ validEntries t = validEntries t') ∧
  (∀ imm8 s s' t t', s.bufSize = s'.bufSize → s.soff = s'.soff → s.slen = s'.slen → window s = window s' →
    s.olen = s'.olen → exec (.tlvPut imm8) s = .next t → exec (.tlvPut imm8) s' = .next t' →
    t.status.err = t'.status.err ∧ t.status.ecode = t'.status.ecode ∧ t.einfo = t'.einfo ∧ t.olen = t'.olen ∧
      (validOutput t).drop s.olen.toNat = (validOutput t').drop s.olen.toNat) ∧
  (∀ imm16 s s' t t', s.bufSize = s'.bufSize → validEntries s = validEntries s' →
    (∀ e ∈ validEntries s, entryValue s e = entryValue s' e) → s.olen = s'.olen →
    exec (.tlvPuta imm16) s = .next t → exec (.tlvPuta imm16) s' = .next t' →
    t.status.err = t'.status.err ∧ t.status.ecode = t'.status.ecode ∧ t.einfo = t'.einfo ∧ t.olen = t'.olen ∧
      (validOutput t).drop s.olen.toNat = (validOutput t').drop s.olen.toNat) ∧
  ∀ s s' t t' : State, s.Inv → s'.Inv → validEntries s = validEntries s' →
    (∀ e ∈ validEntries s, entryValue s e = entryValue s' e) →
    exec .tlvBuild s = .next t → exec .tlvBuild s' = .next t' →
    t.status.err = t'.status.err ∧ t.olen = t'.olen ∧ validOutput t = validOutput t'

/-! ## Buffer and control commands -/

/-- R150. -/
def Obligations.NopResult : Prop :=
  decode 0x00000000#32 = .ok .nop ∧
  ∀ s, ∃ t, exec .nop s = .next t ∧ SucceedsChanging [] s t ∧ (s.status.sticky = true → t.status.word = 0x00000002#32)

/-- R151: OLEN 0. R151 calls every byte of OBUF unspecified from then on; that State keeps them is the model's choice: log 7. -/
def Obligations.ObufClrResult : Prop :=
  decode 0x30000000#32 = .ok .obufClr ∧
  ∀ s, ∃ t, exec .obufClr s = .next t ∧ t.olen = 0#32 ∧ SucceedsChanging [.olen] s t

/-- R152: the bytes stored to are `IBUF[0 .. OLEN)`; every other byte of IBUF, and every byte of OBUF, is as before. -/
def Obligations.MovO2iResult : Prop :=
  decode 0x40000000#32 = .ok .movO2i ∧
  ∀ s, ∃ t, exec .movO2i s = .next t ∧ (∀ j < s.olen.toNat, ibufByte t j = obufByte s j) ∧
    (∀ j, s.olen.toNat ≤ j → ibufByte t j = ibufByte s j) ∧ t.soff = 0#32 ∧ t.slen = s.olen ∧
    window t = validOutput s ∧ SucceedsChanging [.ibuf, .soff, .slen] s t

/-- R156: every stored register at its reset value, IBUF kept, nothing outside the block changed. R156 and R47 call the bytes
of OBUF and the entries of ATAB unspecified from then on; that State keeps them is the model's choice: log 7. -/
def Obligations.SrstResult : Prop :=
  decode 0x7F000000#32 = .ok .srst ∧
  ∀ s, ∃ t, exec .srst s = .next t ∧ t.status.word = 0#32 ∧ t.einfo = 0#32 ∧ t.soff = 0#32 ∧ t.slen = 0#32 ∧
    t.olen = 0#32 ∧ t.ftype = 0#16 ∧ t.crc = 0xFFFFFFFF#32 ∧ t.acnt = 0#32 ∧ t.cur = 0#32 ∧
    OnlyChanges Part.registers s t

/-! ## The CRC32C engine -/

/-- R93. -/
def Obligations.CrcInitResult : Prop :=
  decode 0x01000000#32 = .ok .crcInit ∧
  ∀ s, ∃ t, exec .crcInit s = .next t ∧ t.crc = 0xFFFFFFFF#32 ∧ readReg t .crcval = 0#32 ∧ SucceedsChanging [.crc] s t

/-- R94, less its remark on fixed points (log 17): CRC becomes the byte step of R91, written out here bit by bit. -/
def Obligations.CrcByteResult : Prop :=
  ∀ (imm8 : Byte) (s : State), decode (0x02000000#32 ||| imm8.setWidth 32 <<< 16) = .ok (.crcByte imm8) ∧
    ∃ t, exec (.crcByte imm8) s = .next t ∧
      t.crc = (List.range 8).foldl
        (fun c _ => if c &&& 1#32 = 1#32 then (c >>> 1) ^^^ 0x82F63B78#32 else c >>> 1) (s.crc ^^^ imm8.setWidth 32) ∧
      SucceedsChanging [.crc] s t

/-- The corner-case remark of R94 that 0 is the only remainder a zero byte leaves as it is. It does not follow from R91
(log 17): the polynomial has the factor x + 1. -/
def Obligations.ZeroIsTheOnlyFixedPointOfAZeroByte : Prop := ∀ c : Word, crcStep c 0#8 = c → c = 0#32

/-- R95: Range with SOFF and nothing else where the window leaves IBUF; else CRC takes the fold over the window's bytes. -/
def Obligations.CrcBufResult : Prop :=
  decode 0x03000000#32 = .ok .crcBuf ∧
  ∀ s,
    (s.bufSize.val < s.soff.toNat + s.slen.toNat →
      ∃ t, exec .crcBuf s = .next t ∧ FailsChanging .range s.soff [] s t) ∧
    (s.soff.toNat + s.slen.toNat ≤ s.bufSize.val →
      ∃ t, exec .crcBuf s = .next t ∧
        t.crc = (List.range s.slen.toNat).foldl (fun c j => crcStep c (ibufByte s (s.soff.toNat + j))) s.crc ∧
        SucceedsChanging [.crc] s t)

/-- R96, R30: any split of a byte sequence over CRC_BYTE and CRC_BUF commands, mixed as one likes, folds the whole sequence into
CRC; after CRC_INIT, CRCVAL reads its checksum; where the sequence is a window, the CRC is that of one CRC_BUF over it. The
host may do other work between two parts and write the saved CRC back. Then the plain cases: a window in two parts, a window
byte by byte, CRC_INIT and any bytes. -/
def Obligations.ChecksumsAreIncremental : Prop :=
  (∀ c bs cs, crcRun c (bs ++ cs) = crcRun (crcRun c bs) cs) ∧
  (∀ (s : State) (ps : List CrcPiece), (∀ p ∈ ps, p.InRange s) →
    let whole := ps.flatMap (CrcPiece.bytes s)
    (∃ u, CrcPiece.runAll ps s = .next u ∧ u.crc = crcRun s.crc whole ∧
      (whole = window s → s.soff.toNat + s.slen.toNat ≤ s.bufSize.val → ∃ v, exec .crcBuf s = .next v ∧ v.crc = u.crc)) ∧
    ∃ t u, exec .crcInit s = .next t ∧ CrcPiece.runAll ps t = .next u ∧ readReg u .crcval = crc32c whole) ∧
  (∀ (s s' : State) (ps ps' : List CrcPiece), (∀ p ∈ ps, p.InRange s) → (∀ p ∈ ps', p.InRange s') →
    ∃ u v, CrcPiece.runAll ps s = .next u ∧ CrcPiece.runAll ps' { s' with crc := u.crc } = .next v ∧
      v.crc = crcRun s.crc (ps.flatMap (CrcPiece.bytes s) ++ ps'.flatMap (CrcPiece.bytes s'))) ∧
  (∀ s n, s.soff.toNat + s.slen.toNat ≤ s.bufSize.val → n ≤ s.slen.toNat →
    ∃ t u v, exec .crcBuf { s with slen := BitVec.ofNat 32 n } = .next t ∧
      exec .crcBuf { t with soff := BitVec.ofNat 32 (s.soff.toNat + n), slen := BitVec.ofNat 32 (s.slen.toNat - n) } =
        .next u ∧
      exec .crcBuf s = .next v ∧ u.crc = v.crc) ∧
  (∀ s, s.soff.toNat + s.slen.toNat ≤ s.bufSize.val →
    ∃ u v, execAll ((window s).map .crcByte) s = .next u ∧ exec .crcBuf s = .next v ∧ u.crc = v.crc) ∧
  ∀ s bs, ∃ u, execAll (.crcInit :: bs.map .crcByte) s = .next u ∧ readReg u .crcval = crc32c bs

/-- R97: the table form of the byte step, and the table entries the rule prints. -/
def Obligations.TableFormOfTheByteStep : Prop :=
  (∀ (c : Word) (b : Byte),
    crcStep c b = crcStep (((c ^^^ b.setWidth 32).setWidth 8).setWidth 32) 0#8 ^^^ (c >>> 8)) ∧
  [0, 1, 2, 3, 4, 8, 16, 32, 64, 128, 255].map (fun i => crcStep (BitVec.ofNat 32 i) 0#8) =
    [0x00000000#32, 0xF26B8303#32, 0xE13B70F7#32, 0x1350F3F4#32, 0xC79A971F#32, 0x8AD958CF#32, 0x105EC76F#32,
      0x20BD8EDE#32, 0x417B1DBC#32, 0x82F63B78#32, 0xAD7D5351#32]

/-- R98: the fold is linear over exclusive or. -/
def Obligations.ChecksumsAreLinear : Prop :=
  (∀ (c d : Word) (bs cs : List Byte), bs.length = cs.length →
    crcRun (c ^^^ d) (List.zipWith (· ^^^ ·) bs cs) = crcRun c bs ^^^ crcRun d cs) ∧
  ∀ bs cs : List Byte, bs.length = cs.length →
    crc32c bs ^^^ crc32c cs = crcRun 0#32 (List.zipWith (· ^^^ ·) bs cs)

/-- R99: flipping one bit of a sequence changes its checksum. -/
def Obligations.OneFlippedBitChangesTheChecksum : Prop :=
  ∀ (bs : List Byte) (i k : Nat), i < bs.length → k < 8 → crc32c (flipBit bs i k) ≠ crc32c bs

/-! ## The frame codec -/

/-- R114: FRM_ENC in its three cases. The bytes stored to are `OBUF[0 .. SLEN+8)`. R41 and R234 call the bytes of OBUF at the new
OLEN and above unspecified, all of them where FRM_ENC fails; that State keeps them is the model's choice: log 7. -/
def Obligations.FrmEncResult : Prop :=
  ∀ (imm16 : Half) (s : State), decode (0x10000000#32 ||| imm16.setWidth 32) = .ok (.frmEnc imm16) ∧
    (s.bufSize.val < s.soff.toNat + s.slen.toNat →
      ∃ t, exec (.frmEnc imm16) s = .next t ∧ t.olen = 0#32 ∧ FailsChanging .range s.soff [.olen] s t) ∧
    (s.soff.toNat + s.slen.toNat ≤ s.bufSize.val → s.bufSize.val < s.slen.toNat + 8 →
      ∃ t, exec (.frmEnc imm16) s = .next t ∧ t.olen = 0#32 ∧
        FailsChanging .overflow (BitVec.ofNat 32 (s.slen.toNat + 8)) [.olen] s t) ∧
    (s.soff.toNat + s.slen.toNat ≤ s.bufSize.val → s.slen.toNat + 8 ≤ s.bufSize.val →
      ∃ t f, exec (.frmEnc imm16) s = .next t ∧ frameEncode imm16 (window s) = some f ∧
        t.olen.toNat = s.slen.toNat + 8 ∧ validOutput t = f ∧
        (∀ j, s.slen.toNat + 8 ≤ j → obufByte t j = obufByte s j) ∧
        t.crc = crc32c (f.take (s.slen.toNat + 4)) ^^^ 0xFFFFFFFF#32 ∧
        readReg t .crcval = frombe32 (f.drop (s.slen.toNat + 4)) ∧
        SucceedsChanging [.obuf, .olen, .crc] s t)

/-- R115: FRM_DEC in its cases, in the order of its checks. The bytes stored to are `OBUF[0 .. SLEN-8)`. R41 and R234 call the
bytes of OBUF at the new OLEN and above unspecified, all of them where FRM_DEC fails; that State keeps them is the model's
choice: log 7. -/
def Obligations.FrmDecResult : Prop :=
  decode 0x11000000#32 = .ok .frmDec ∧
  ∀ s : State,
    let n := s.slen.toNat
    let w := window s
    let c := crc32c (w.take (n - 4))
    (s.bufSize.val < s.soff.toNat + n →
      ∃ t, exec .frmDec s = .next t ∧ t.olen = 0#32 ∧ FailsChanging .range s.soff [.olen] s t) ∧
    (s.soff.toNat + n ≤ s.bufSize.val → n < 8 ∨ fromBe ((w.drop 2).take 2) ≠ n - 8 →
      ∃ t, exec .frmDec s = .next t ∧ t.olen = 0#32 ∧ FailsChanging .badLength s.slen [.olen] s t) ∧
    (s.soff.toNat + n ≤ s.bufSize.val → 8 ≤ n → fromBe ((w.drop 2).take 2) = n - 8 → c ≠ frombe32 (w.drop (n - 4)) →
      ∃ t, exec .frmDec s = .next t ∧ t.olen = 0#32 ∧ t.crc = c ^^^ 0xFFFFFFFF#32 ∧
        FailsChanging .badChecksum c [.olen, .crc] s t) ∧
    (s.soff.toNat + n ≤ s.bufSize.val → 8 ≤ n → fromBe ((w.drop 2).take 2) = n - 8 → c = frombe32 (w.drop (n - 4)) →
      ∃ t, exec .frmDec s = .next t ∧ t.ftype = frombe16 (w.take 2) ∧ t.olen.toNat = n - 8 ∧
        validOutput t = (w.drop 4).take (n - 8) ∧ (∀ j, n - 8 ≤ j → obufByte t j = obufByte s j) ∧
        t.crc = c ^^^ 0xFFFFFFFF#32 ∧ frameDecode w = .ok (t.ftype, validOutput t) ∧
        SucceedsChanging [.ftype, .obuf, .olen, .crc] s t)

/-- R116: decoding an encoded frame gives it back, and so do FRM_ENC, MOV_O2I, FRM_DEC one after the other. -/
def Obligations.FrameRoundTrip : Prop :=
  (∀ (t : Half) (p : List Byte), p.length ≤ 65535 → ∃ f, frameEncode t p = some f ∧ frameDecode f = .ok (t, p)) ∧
  ∀ (ty : Half) (s t : State), exec (.frmEnc ty) s = .next t → t.status.err = false →
    ∃ u, execAll [.movO2i, .frmDec] t = .next u ∧ u.status.err = false ∧ u.ftype = ty ∧ validOutput u = window s

/-- R117: a byte sequence that decodes is exactly the encoding of what it decodes to; decoding is injective. -/
def Obligations.FramesAreUnique : Prop :=
  (∀ (s : List Byte) (t : Half) (p : List Byte), frameDecode s = .ok (t, p) → frameEncode t p = some s) ∧
  ∀ (s s' : List Byte) (r : Half × List Byte), frameDecode s = .ok r → frameDecode s' = .ok r → s = s'

/-- R118: which error one flipped bit of a frame gives: BadLength in bytes 2 and 3, BadChecksum everywhere else. -/
def Obligations.OneFlippedBitOfAFrameIsFound : Prop :=
  ∀ (t : Half) (p f : List Byte) (i k : Nat), frameEncode t p = some f → i < f.length → k < 8 →
    frameDecode (flipBit f i k) = .error (if i = 2 ∨ i = 3 then .badLength else .badChecksum)

/-! ## The TLV codec -/

/-- R133: TLV_PARSE. Range; the two errors of `tlv_parse` with the offset; success with the table: entry `k` has the tag,
the length and the absolute offset of attribute `k`, and points at its value. R43 and R234 call the entries of ATAB at the
new ACNT and above unspecified; that State keeps every one of them after Range is the model's choice: log 7. -/
def Obligations.TlvParseResult : Prop :=
  decode 0x20000000#32 = .ok .tlvParse ∧
  ∀ s : State,
    (s.bufSize.val < s.soff.toNat + s.slen.toNat →
      ∃ t, exec .tlvParse s = .next t ∧ t.acnt = 0#32 ∧ t.cur = 0#32 ∧ FailsChanging .range s.soff [.acnt, .cur] s t) ∧
    (s.soff.toNat + s.slen.toNat ≤ s.bufSize.val →
      (∀ off, tlvParse (window s) = .error (.unsupportedLength off) →
        ∃ t, exec .tlvParse s = .next t ∧ t.acnt = 0#32 ∧ t.cur.toNat = off ∧
          FailsChanging .unsupportedLength t.cur [.acnt, .cur, .atab] s t) ∧
      (∀ off, tlvParse (window s) = .error (.truncated off) →
        ∃ t, exec .tlvParse s = .next t ∧ t.acnt = 0#32 ∧ t.cur.toNat = off ∧
          FailsChanging .truncated t.cur [.acnt, .cur, .atab] s t) ∧
      ∀ as, tlvParse (window s) = .ok as →
        ∃ t, exec .tlvParse s = .next t ∧ t.acnt.toNat = as.length ∧ t.cur = s.slen ∧
          (∀ k (h : k < as.length), (atabEntry t k).tag = as[k].tag ∧ (atabEntry t k).len.toNat = as[k].value.length ∧
            (atabEntry t k).voff.toNat = s.soff.toNat + (tlvBytes (as.take k)).length + 2 ∧
            entryValue t (atabEntry t k) = as[k].value) ∧
          SucceedsChanging [.atab, .acnt, .cur] s t)

/-- R134: TLV_PUT in its four cases, in the order of its checks. The bytes stored to are
`OBUF[OLEN .. OLEN+2+SLEN)`; the valid part becomes the old one and the attribute's bytes. -/
def Obligations.TlvPutResult : Prop :=
  ∀ (imm8 : Byte) (s : State), decode (0x31000000#32 ||| imm8.setWidth 32 <<< 16) = .ok (.tlvPut imm8) ∧
    (s.bufSize.val < s.soff.toNat + s.slen.toNat →
      ∃ t, exec (.tlvPut imm8) s = .next t ∧ FailsChanging .range s.soff [] s t) ∧
    (s.soff.toNat + s.slen.toNat ≤ s.bufSize.val → 127 < s.slen.toNat →
      ∃ t, exec (.tlvPut imm8) s = .next t ∧ FailsChanging .unsupportedLength s.slen [] s t) ∧
    (s.soff.toNat + s.slen.toNat ≤ s.bufSize.val → s.slen.toNat ≤ 127 →
      s.bufSize.val < s.olen.toNat + 2 + s.slen.toNat →
      ∃ t, exec (.tlvPut imm8) s = .next t ∧
        FailsChanging .overflow (BitVec.ofNat 32 (s.olen.toNat + 2 + s.slen.toNat)) [] s t) ∧
    (s.soff.toNat + s.slen.toNat ≤ s.bufSize.val → s.slen.toNat ≤ 127 →
      s.olen.toNat + 2 + s.slen.toNat ≤ s.bufSize.val →
      ∃ t bs, exec (.tlvPut imm8) s = .next t ∧ tlvBuild [⟨imm8, window s⟩] = some bs ∧
        bs = imm8 :: BitVec.ofNat 8 s.slen.toNat :: window s ∧
        t.olen.toNat = s.olen.toNat + 2 + s.slen.toNat ∧ validOutput t = validOutput s ++ bs ∧
        (∀ j, j < s.olen.toNat ∨ s.olen.toNat + 2 + s.slen.toNat ≤ j → obufByte t j = obufByte s j) ∧
        SucceedsChanging [.obuf, .olen] s t)

/-- R135: TLV_PUTA in its three cases. The bytes stored to are `OBUF[OLEN .. OLEN+2+len)`, the entry's tag, length and the
value bytes IBUF holds now. -/
def Obligations.TlvPutaResult : Prop :=
  ∀ (imm16 : Half) (s : State), decode (0x32000000#32 ||| imm16.setWidth 32) = .ok (.tlvPuta imm16) ∧
    let e := atabEntry s imm16.toNat
    (s.acnt.toNat ≤ imm16.toNat →
      ∃ t, exec (.tlvPuta imm16) s = .next t ∧ FailsChanging .range (imm16.setWidth 32) [] s t) ∧
    (imm16.toNat < s.acnt.toNat → s.bufSize.val < s.olen.toNat + 2 + e.len.toNat →
      ∃ t, exec (.tlvPuta imm16) s = .next t ∧
        FailsChanging .overflow (BitVec.ofNat 32 (s.olen.toNat + 2 + e.len.toNat)) [] s t) ∧
    (imm16.toNat < s.acnt.toNat → s.olen.toNat + 2 + e.len.toNat ≤ s.bufSize.val →
      ∃ t, exec (.tlvPuta imm16) s = .next t ∧ t.olen.toNat = s.olen.toNat + 2 + e.len.toNat ∧
        validOutput t = validOutput s ++ (e.tag :: e.len :: ibufBytes s e.voff.toNat e.len.toNat) ∧
        (∀ j, j < s.olen.toNat ∨ s.olen.toNat + 2 + e.len.toNat ≤ j → obufByte t j = obufByte s j) ∧
        SucceedsChanging [.obuf, .olen] s t)

/-- R136: TLV_BUILD never fails; where the table is as R44 and the parse that made it leave it, the output is the valid
entries with the value bytes IBUF holds now, in table order, and it is OBUF_CLR followed by TLV_PUTA 0, 1, ... ACNT-1. R41 and
R234 call the bytes of OBUF at the new OLEN and above unspecified; that State keeps them is the model's choice: log 7. -/
def Obligations.TlvBuildResult : Prop :=
  decode 0x33000000#32 = .ok .tlvBuild ∧
  (∀ s, ∃ t, exec .tlvBuild s = .next t ∧ SucceedsChanging [.obuf, .olen] s t) ∧
  ∀ s : State, s.Inv →
    (∃ t, exec .tlvBuild s = .next t ∧ t.olen.toNat = entriesSize (validEntries s) ∧ t.olen.toNat ≤ s.bufSize.val ∧
      validOutput t =
        (validEntries s).flatMap (fun e => e.tag :: e.len :: ibufBytes s e.voff.toNat e.len.toNat) ∧
      tlvBuild ((validEntries s).map fun e => ⟨e.tag, entryValue s e⟩) = some (validOutput t) ∧
      ∀ j, entriesSize (validEntries s) ≤ j → obufByte t j = obufByte s j) ∧
    execAll (.obufClr :: (List.range s.acnt.toNat).map fun k => .tlvPuta (BitVec.ofNat 16 k)) s = exec .tlvBuild s

/-- R137: parsing what was built gives the attributes back, in order. In commands: where OBUF holds built attributes, MOV_O2I
and TLV_PARSE succeed with one entry for each. -/
def Obligations.BuildThenParse : Prop :=
  (∀ as : List Attr, (∀ a ∈ as, a.value.length ≤ 127) →
    ∃ bs, tlvBuild as = some bs ∧ tlvParse bs = .ok as) ∧
  ∀ (s : State) (as : List Attr) (bs : List Byte), tlvBuild as = some bs → validOutput s = bs →
    s.olen.toNat ≤ s.bufSize.val →
    ∃ t, execAll [.movO2i, .tlvParse] s = .next t ∧ t.status.err = false ∧ t.acnt.toNat = as.length ∧
      ∀ k (h : k < as.length), (atabEntry t k).tag = as[k].tag ∧ entryValue t (atabEntry t k) = as[k].value

/-- R138: a sequence that parses is exactly the encoding of its attributes; parsing is injective. In commands: TLV_PARSE,
where it succeeds, and TLV_BUILD leave the window's bytes in OBUF. -/
def Obligations.ParseThenBuild : Prop :=
  (∀ (bs : List Byte) (as : List Attr), tlvParse bs = .ok as → tlvBuild as = some bs) ∧
  (∀ (bs cs : List Byte) (as : List Attr), tlvParse bs = .ok as → tlvParse cs = .ok as → bs = cs) ∧
  ∀ s t : State, exec .tlvParse s = .next t → t.status.err = false →
    ∃ u, exec .tlvBuild t = .next u ∧ validOutput u = window s

/-- R139, R132: where a pass stops. A length byte of 128 or more after attributes that parse gives UnsupportedLength at its
attribute whatever follows, and only that gives it; input that ends inside an attribute after attributes that parse
gives Truncated there, and only that gives it. -/
def Obligations.ParsingStopsAtTheFirstBadAttribute : Prop :=
  (∀ (bs : List Byte) (off : Nat), tlvParse bs = .error (.unsupportedLength off) ↔
    ∃ (as : List Attr) (tag len : Byte) (tail : List Byte), (∀ a ∈ as, a.value.length ≤ 127) ∧
      bs = tlvBytes as ++ tag :: len :: tail ∧ 128 ≤ len.toNat ∧ off = (tlvBytes as).length) ∧
  ∀ (bs : List Byte) (off : Nat), tlvParse bs = .error (.truncated off) ↔
    ∃ (as : List Attr) (rem : List Byte), (∀ a ∈ as, a.value.length ≤ 127) ∧ bs = tlvBytes as ++ rem ∧
      off = (tlvBytes as).length ∧
      ((∃ tag, rem = [tag]) ∨
        ∃ (tag len : Byte) (tail : List Byte), rem = tag :: len :: tail ∧ len.toNat ≤ 127 ∧ tail.length < len.toNat)

/-! ## Chains of commands -/

/-- R233, R153: the chain FRM_DEC, MOV_O2I, TLV_PARSE after a FRM_DEC that failed: success with an empty table, ERR 0, and the
error left in STICKY alone. -/
def Obligations.FailedDecodeIsHiddenByTheChain : Prop :=
  ∀ s t, exec .frmDec s = .next t → t.status.err = true →
    ∃ u, execAll [.movO2i, .tlvParse] t = .next u ∧ u.status.err = false ∧ u.status.ecode = 0#8 ∧
      u.status.sticky = true ∧ u.einfo = 0#32 ∧ u.acnt = 0#32 ∧ u.cur = 0#32 ∧ u.olen = 0#32

/-- R153 chain (a), R178: a payload of built attributes in OBUF, MOV_O2I and FRM_ENC leave the frame that carries it. -/
def Obligations.BuildReplyChain : Prop :=
  ∀ (s : State) (ty : Half), s.olen.toNat + 8 ≤ s.bufSize.val →
    ∃ t f, execAll [.movO2i, .frmEnc ty] s = .next t ∧ t.status.err = false ∧
      frameEncode ty (validOutput s) = some f ∧ validOutput t = f

/-! ## The host software -/

/-- R165, R166: a discovery request, whatever its payload, is answered by a frame of type DISCOVER_RPY that carries the four
attributes in order. -/
def Obligations.DiscoveryReply : Prop :=
  ∀ (urlTag : Byte) (d : DeviceIdentity) (p : List Byte), p.length ≤ 65535 → d.baseUrl.length ≤ 127 →
    ∃ r q, protocolHandler urlTag d (frameBytes 0x0002#16 p) = some r ∧ frameDecode r = .ok (0x0003#16, q) ∧
      tlvParse q = .ok [⟨0x01#8, [0#8, 0#8, 0#8, 1#8]⟩, ⟨0x02#8, be32 d.deviceId⟩, ⟨urlTag, d.baseUrl⟩,
        ⟨0x10#8, [d.tunerCount]⟩]

/-- R167, R168, R170: a get/set request is answered by an echo of its NAME and its VALUE, if there is one; without a NAME, and
for a payload that does not parse, by nothing. Other frame types (R169) and frames that do not decode get no reply. Which
NAME and VALUE of several the source does not say; that the first of each is echoed is the model's choice, log 15. -/
def Obligations.GetsetReply : Prop :=
  (∀ (urlTag : Byte) (d : DeviceIdentity) (as : List Attr), (∀ a ∈ as, a.value.length ≤ 127) →
    (tlvBytes as).length ≤ 65535 →
    let reply := protocolHandler urlTag d (frameBytes 0x0004#16 (tlvBytes as))
    ((∀ a ∈ as, a.tag ≠ 0x03#8) → reply = none) ∧
    ∀ name ∈ as.find? (fun a => a.tag == 0x03#8), ∃ r q, reply = some r ∧ frameDecode r = .ok (0x0005#16, q) ∧
      tlvParse q = .ok (name :: (as.find? fun a => a.tag == 0x04#8).toList)) ∧
  (∀ (urlTag : Byte) (d : DeviceIdentity) (p : List Byte) (e : TlvError), p.length ≤ 65535 → tlvParse p = .error e →
    protocolHandler urlTag d (frameBytes 0x0004#16 p) = none) ∧
  (∀ (urlTag : Byte) (d : DeviceIdentity) (t : Half) (p : List Byte), p.length ≤ 65535 → t ≠ 0x0002#16 → t ≠ 0x0004#16 →
    protocolHandler urlTag d (frameBytes t p) = none) ∧
  ∀ (urlTag : Byte) (d : DeviceIdentity) (bs : List Byte) (e : FrameError), frameDecode bs = .error e →
    protocolHandler urlTag d bs = none

/-- R175: a sender in the IgnoreSet is never answered, by either listener, whatever arrives and whichever way the open
question U8 is decided (log 20). -/
def Obligations.IgnoredSendersGetNoReply : Prop :=
  ∀ (policy : FailurePolicy) (ignored : List Sender) (handler : List Byte → Option (List Byte)) (inputs : List ListenerInput),
    (∀ r ∈ (discoveryListener ignored handler inputs).1, r.1 ∉ ignored) ∧
    ∀ r ∈ (controlListener policy ignored handler inputs).1, r.1 ∉ ignored
end

