-- ==== Sys2Proof/Laws/Memory.lean ====
section
/-! SUPPORT. What the byte-buffer operations do: read after write, and that a write keeps the canonical form. -/

namespace Sys2Proof.Machine

/-! ## Read after write -/

theorem Memory.read?_write (m : Memory) (i j : Nat) (b : Byte) :
    (Memory.write m i b).read? j = if j = i then some b else m.read? j := by
  induction m with
  | nil =>
    by_cases h : j = i
    · simp [Memory.write, Memory.read?, h]
    · simp [Memory.write, Memory.read?, h, Ne.symm h]
  | cons c m ih =>
    unfold Memory.write
    split
    · by_cases h : j = i
      · simp [Memory.read?, h]
      · simp [Memory.read?, h, Ne.symm h]
    · split
      · rename_i h1 h2
        subst h2
        by_cases h : j = c.1
        · simp [Memory.read?, h]
        · simp [Memory.read?, h, Ne.symm h]
      · rename_i h1 h2
        simp only [Memory.read?, ih]
        by_cases h : c.1 = j
        · have : j ≠ i := by omega
          simp [h, this]
        · simp [h]

theorem Memory.read?_writeBytes (bs : List Byte) :
    ∀ (m : Memory) (start j : Nat), (Memory.writeBytes m start bs).read? j =
      if start ≤ j ∧ j < start + bs.length then bs[j - start]? else m.read? j := by
  induction bs with
  | nil =>
    intro m start j
    have : ¬ (start ≤ j ∧ j < start + 0) := by omega
    rw [Memory.writeBytes, List.length_nil, if_neg this]
  | cons b bs ih =>
    intro m start j
    rw [Memory.writeBytes, ih, Memory.read?_write, List.length_cons]
    by_cases h1 : j = start
    · subst h1
      have h2 : ¬ (j + 1 ≤ j ∧ j < j + 1 + bs.length) := by omega
      have h3 : j ≤ j ∧ j < j + (bs.length + 1) := by omega
      rw [if_neg h2, if_pos rfl, if_pos h3]
      simp
    · by_cases h2 : start + 1 ≤ j ∧ j < start + 1 + bs.length
      · have h3 : start ≤ j ∧ j < start + (bs.length + 1) := by omega
        rw [if_pos h2, if_pos h3]
        obtain ⟨k, hk⟩ : ∃ k, j - start = k + 1 := ⟨j - start - 1, by omega⟩
        have : j - (start + 1) = k := by omega
        rw [this, hk, List.getElem?_cons_succ]
      · have h3 : ¬ (start ≤ j ∧ j < start + (bs.length + 1)) := by omega
        rw [if_neg h2, if_neg h3, if_neg h1]

/-- An index is written after a write exactly when it was, or the write covers it. -/
theorem Memory.isSome_read?_writeBytes (m : Memory) (start j : Nat) (bs : List Byte) :
    ((Memory.writeBytes m start bs).read? j).isSome =
      (decide (start ≤ j ∧ j < start + bs.length) || (m.read? j).isSome) := by
  rw [Memory.read?_writeBytes]
  split
  · rename_i h
    rw [List.getElem?_eq_getElem (by omega)]
    simp [h]
  · rename_i h
    simp [h]

/-! ## The canonical form -/

/-- Every index of the buffer is above a bound. -/
def Memory.Above (bound : Nat) (m : Memory) : Prop := ∀ c ∈ m, bound < c.1

theorem Memory.wf_cons (c : Host.Cell) (m : Memory) :
    Memory.wf (c :: m) = true ↔ Memory.Above c.1 m ∧ Memory.wf m = true := by
  induction m generalizing c with
  | nil => simp [Memory.wf, Memory.Above]
  | cons d m ih =>
    simp only [Memory.wf, Bool.and_eq_true, decide_eq_true_eq]
    constructor
    · rintro ⟨h1, h2⟩
      refine ⟨?_, h2⟩
      intro x hx
      rcases List.mem_cons.mp hx with rfl | hx
      · exact h1
      · exact Nat.lt_trans h1 (((ih d).mp h2).1 x hx)
    · rintro ⟨h1, h2⟩
      exact ⟨h1 d (List.mem_cons_self ..), h2⟩

theorem Memory.mem_write {m : Memory} {i : Nat} {b : Byte} {c : Host.Cell}
    (h : c ∈ Memory.write m i b) : c = (i, b) ∨ c ∈ m := by
  induction m with
  | nil => simpa [Memory.write] using h
  | cons d m ih =>
    unfold Memory.write at h
    split at h
    · simpa using h
    · split at h
      · rcases List.mem_cons.mp h with h | h
        · exact .inl h
        · exact .inr (List.mem_cons_of_mem _ h)
      · rcases List.mem_cons.mp h with h | h
        · exact .inr (h ▸ List.mem_cons_self ..)
        · rcases ih h with h | h
          · exact .inl h
          · exact .inr (List.mem_cons_of_mem _ h)

theorem Memory.write_wf {m : Memory} (h : m.wf = true) (i : Nat) (b : Byte) : (Memory.write m i b).wf = true := by
  induction m with
  | nil => rfl
  | cons d m ih =>
    obtain ⟨hd, hm⟩ := (Memory.wf_cons d m).mp h
    unfold Memory.write
    split
    · rename_i hi
      refine (Memory.wf_cons _ _).mpr ⟨?_, h⟩
      intro c hc
      rcases List.mem_cons.mp hc with rfl | hc
      · exact hi
      · exact Nat.lt_trans hi (hd c hc)
    · split
      · rename_i h1 h2
        subst h2
        exact (Memory.wf_cons _ _).mpr ⟨hd, hm⟩
      · rename_i h1 h2
        refine (Memory.wf_cons _ _).mpr ⟨?_, ih hm⟩
        intro c hc
        rcases Memory.mem_write hc with rfl | hc
        · show d.1 < i
          omega
        · exact hd c hc

theorem Memory.writeBytes_wf (bs : List Byte) :
    ∀ {m : Memory} (_ : m.wf = true) (start : Nat), (Memory.writeBytes m start bs).wf = true := by
  induction bs with
  | nil => intro m h start; exact h
  | cons b bs ih => intro m h start; exact ih (Memory.write_wf h start b) (start + 1)

/-! ## Fitting a buffer -/

theorem Memory.nil_fits (n : Config.BufSize) : Memory.Fits [] n := ⟨rfl, by simp⟩

theorem Memory.write_fits {m : Memory} {n : Config.BufSize} (h : Memory.Fits m n) {i : Nat} (hi : i < n.val)
    (b : Byte) : Memory.Fits (Memory.write m i b) n := by
  refine ⟨Memory.write_wf h.1 i b, fun c hc => ?_⟩
  rcases Memory.mem_write hc with rfl | hc
  · exact hi
  · exact h.2 c hc

theorem Memory.writeBytes_fits (bs : List Byte) :
    ∀ {m : Memory} {n : Config.BufSize} (_ : Memory.Fits m n) {start : Nat} (_ : start + bs.length ≤ n.val),
      Memory.Fits (Memory.writeBytes m start bs) n := by
  induction bs with
  | nil => intro m n h start hs; exact h
  | cons b bs ih =>
    intro m n h start hs
    rw [List.length_cons] at hs
    exact ih (Memory.write_fits h (by omega) b) (by omega)

end Sys2Proof.Machine
end

