-- ==== Sys2Proof/Laws/State.lean ====
section
/-! SUPPORT. One lemma per field for each operation that updates the state, true by rfl. -/

namespace Sys2Proof.Machine

/-! ## raise -/

@[simp] theorem raise_bufSize (e : CmdError) (info : Word) (s : State) : (raise e info s).bufSize = s.bufSize := rfl
@[simp] theorem raise_status (e : CmdError) (info : Word) (s : State) : (raise e info s).status = Status.failed e := rfl
@[simp] theorem raise_einfo (e : CmdError) (info : Word) (s : State) : (raise e info s).einfo = info := rfl
@[simp] theorem raise_soff (e : CmdError) (info : Word) (s : State) : (raise e info s).soff = s.soff := rfl
@[simp] theorem raise_slen (e : CmdError) (info : Word) (s : State) : (raise e info s).slen = s.slen := rfl
@[simp] theorem raise_olen (e : CmdError) (info : Word) (s : State) : (raise e info s).olen = s.olen := rfl
@[simp] theorem raise_ftype (e : CmdError) (info : Word) (s : State) : (raise e info s).ftype = s.ftype := rfl
@[simp] theorem raise_crc (e : CmdError) (info : Word) (s : State) : (raise e info s).crc = s.crc := rfl
@[simp] theorem raise_acnt (e : CmdError) (info : Word) (s : State) : (raise e info s).acnt = s.acnt := rfl
@[simp] theorem raise_cur (e : CmdError) (info : Word) (s : State) : (raise e info s).cur = s.cur := rfl
@[simp] theorem raise_ibuf (e : CmdError) (info : Word) (s : State) : (raise e info s).ibuf = s.ibuf := rfl
@[simp] theorem raise_obuf (e : CmdError) (info : Word) (s : State) : (raise e info s).obuf = s.obuf := rfl
@[simp] theorem raise_atab (e : CmdError) (info : Word) (s : State) : (raise e info s).atab = s.atab := rfl
@[simp] theorem raise_pending (e : CmdError) (info : Word) (s : State) : (raise e info s).pending = s.pending := rfl
@[simp] theorem raise_responses (e : CmdError) (info : Word) (s : State) : (raise e info s).responses = s.responses := rfl
@[simp] theorem raise_resets (e : CmdError) (info : Word) (s : State) : (raise e info s).resets = s.resets := rfl
@[simp] theorem raise_draws (e : CmdError) (info : Word) (s : State) : (raise e info s).draws = s.draws := rfl

/-! ## succeed -/

@[simp] theorem succeed_bufSize (s : State) : (succeed s).bufSize = s.bufSize := rfl
@[simp] theorem succeed_status (s : State) : (succeed s).status = s.status.succeeded := rfl
@[simp] theorem succeed_einfo (s : State) : (succeed s).einfo = 0#32 := rfl
@[simp] theorem succeed_soff (s : State) : (succeed s).soff = s.soff := rfl
@[simp] theorem succeed_slen (s : State) : (succeed s).slen = s.slen := rfl
@[simp] theorem succeed_olen (s : State) : (succeed s).olen = s.olen := rfl
@[simp] theorem succeed_ftype (s : State) : (succeed s).ftype = s.ftype := rfl
@[simp] theorem succeed_crc (s : State) : (succeed s).crc = s.crc := rfl
@[simp] theorem succeed_acnt (s : State) : (succeed s).acnt = s.acnt := rfl
@[simp] theorem succeed_cur (s : State) : (succeed s).cur = s.cur := rfl
@[simp] theorem succeed_ibuf (s : State) : (succeed s).ibuf = s.ibuf := rfl
@[simp] theorem succeed_obuf (s : State) : (succeed s).obuf = s.obuf := rfl
@[simp] theorem succeed_atab (s : State) : (succeed s).atab = s.atab := rfl
@[simp] theorem succeed_pending (s : State) : (succeed s).pending = s.pending := rfl
@[simp] theorem succeed_responses (s : State) : (succeed s).responses = s.responses := rfl
@[simp] theorem succeed_resets (s : State) : (succeed s).resets = s.resets := rfl
@[simp] theorem succeed_draws (s : State) : (succeed s).draws = s.draws := rfl

/-! ## resetRegisters -/

@[simp] theorem resetRegisters_bufSize (s : State) : (resetRegisters s).bufSize = s.bufSize := rfl
@[simp] theorem resetRegisters_status (s : State) : (resetRegisters s).status = Status.cleared := rfl
@[simp] theorem resetRegisters_einfo (s : State) : (resetRegisters s).einfo = 0#32 := rfl
@[simp] theorem resetRegisters_soff (s : State) : (resetRegisters s).soff = 0#32 := rfl
@[simp] theorem resetRegisters_slen (s : State) : (resetRegisters s).slen = 0#32 := rfl
@[simp] theorem resetRegisters_olen (s : State) : (resetRegisters s).olen = 0#32 := rfl
@[simp] theorem resetRegisters_ftype (s : State) : (resetRegisters s).ftype = 0#16 := rfl
@[simp] theorem resetRegisters_crc (s : State) : (resetRegisters s).crc = 0xFFFFFFFF#32 := rfl
@[simp] theorem resetRegisters_acnt (s : State) : (resetRegisters s).acnt = 0#32 := rfl
@[simp] theorem resetRegisters_cur (s : State) : (resetRegisters s).cur = 0#32 := rfl
@[simp] theorem resetRegisters_ibuf (s : State) : (resetRegisters s).ibuf = s.ibuf := rfl
@[simp] theorem resetRegisters_obuf (s : State) : (resetRegisters s).obuf = s.obuf := rfl
@[simp] theorem resetRegisters_atab (s : State) : (resetRegisters s).atab = s.atab := rfl
@[simp] theorem resetRegisters_pending (s : State) : (resetRegisters s).pending = s.pending := rfl
@[simp] theorem resetRegisters_responses (s : State) : (resetRegisters s).responses = s.responses := rfl
@[simp] theorem resetRegisters_resets (s : State) : (resetRegisters s).resets = s.resets := rfl
@[simp] theorem resetRegisters_draws (s : State) : (resetRegisters s).draws = s.draws := rfl

/-! ## hardwareReset -/

@[simp] theorem hardwareReset_bufSize (s : State) : (hardwareReset s).bufSize = s.bufSize := rfl
@[simp] theorem hardwareReset_status (s : State) : (hardwareReset s).status = Status.cleared := rfl
@[simp] theorem hardwareReset_einfo (s : State) : (hardwareReset s).einfo = 0#32 := rfl
@[simp] theorem hardwareReset_soff (s : State) : (hardwareReset s).soff = 0#32 := rfl
@[simp] theorem hardwareReset_slen (s : State) : (hardwareReset s).slen = 0#32 := rfl
@[simp] theorem hardwareReset_olen (s : State) : (hardwareReset s).olen = 0#32 := rfl
@[simp] theorem hardwareReset_ftype (s : State) : (hardwareReset s).ftype = 0#16 := rfl
@[simp] theorem hardwareReset_crc (s : State) : (hardwareReset s).crc = 0xFFFFFFFF#32 := rfl
@[simp] theorem hardwareReset_acnt (s : State) : (hardwareReset s).acnt = 0#32 := rfl
@[simp] theorem hardwareReset_cur (s : State) : (hardwareReset s).cur = 0#32 := rfl
@[simp] theorem hardwareReset_ibuf (s : State) : (hardwareReset s).ibuf = [] := rfl
@[simp] theorem hardwareReset_obuf (s : State) : (hardwareReset s).obuf = [] := rfl
@[simp] theorem hardwareReset_atab (s : State) : (hardwareReset s).atab = [] := rfl
@[simp] theorem hardwareReset_pending (s : State) : (hardwareReset s).pending = s.pending := rfl
@[simp] theorem hardwareReset_responses (s : State) : (hardwareReset s).responses = s.responses := rfl
@[simp] theorem hardwareReset_resets (s : State) : (hardwareReset s).resets = s.resets + 1 := rfl
@[simp] theorem hardwareReset_draws (s : State) : (hardwareReset s).draws = s.draws := rfl

/-! ## appendAttr -/

@[simp] theorem appendAttr_bufSize (tag len : Byte) (value : List Byte) (s : State) : (appendAttr tag len value s).bufSize = s.bufSize := rfl
@[simp] theorem appendAttr_status (tag len : Byte) (value : List Byte) (s : State) : (appendAttr tag len value s).status = s.status := rfl
@[simp] theorem appendAttr_einfo (tag len : Byte) (value : List Byte) (s : State) : (appendAttr tag len value s).einfo = s.einfo := rfl
@[simp] theorem appendAttr_soff (tag len : Byte) (value : List Byte) (s : State) : (appendAttr tag len value s).soff = s.soff := rfl
@[simp] theorem appendAttr_slen (tag len : Byte) (value : List Byte) (s : State) : (appendAttr tag len value s).slen = s.slen := rfl
@[simp] theorem appendAttr_olen (tag len : Byte) (value : List Byte) (s : State) : (appendAttr tag len value s).olen = BitVec.ofNat 32 (appendedLen s value.length) := rfl
@[simp] theorem appendAttr_ftype (tag len : Byte) (value : List Byte) (s : State) : (appendAttr tag len value s).ftype = s.ftype := rfl
@[simp] theorem appendAttr_crc (tag len : Byte) (value : List Byte) (s : State) : (appendAttr tag len value s).crc = s.crc := rfl
@[simp] theorem appendAttr_acnt (tag len : Byte) (value : List Byte) (s : State) : (appendAttr tag len value s).acnt = s.acnt := rfl
@[simp] theorem appendAttr_cur (tag len : Byte) (value : List Byte) (s : State) : (appendAttr tag len value s).cur = s.cur := rfl
@[simp] theorem appendAttr_ibuf (tag len : Byte) (value : List Byte) (s : State) : (appendAttr tag len value s).ibuf = s.ibuf := rfl
@[simp] theorem appendAttr_obuf (tag len : Byte) (value : List Byte) (s : State) : (appendAttr tag len value s).obuf = s.obuf.writeBytes s.olen.toNat (tag :: len :: value) := rfl
@[simp] theorem appendAttr_atab (tag len : Byte) (value : List Byte) (s : State) : (appendAttr tag len value s).atab = s.atab := rfl
@[simp] theorem appendAttr_pending (tag len : Byte) (value : List Byte) (s : State) : (appendAttr tag len value s).pending = s.pending := rfl
@[simp] theorem appendAttr_responses (tag len : Byte) (value : List Byte) (s : State) : (appendAttr tag len value s).responses = s.responses := rfl
@[simp] theorem appendAttr_resets (tag len : Byte) (value : List Byte) (s : State) : (appendAttr tag len value s).resets = s.resets := rfl
@[simp] theorem appendAttr_draws (tag len : Byte) (value : List Byte) (s : State) : (appendAttr tag len value s).draws = s.draws := rfl

/-! ## setOutput -/

@[simp] theorem setOutput_bufSize (bs : List Byte) (s : State) : (setOutput bs s).bufSize = s.bufSize := rfl
@[simp] theorem setOutput_status (bs : List Byte) (s : State) : (setOutput bs s).status = s.status := rfl
@[simp] theorem setOutput_einfo (bs : List Byte) (s : State) : (setOutput bs s).einfo = s.einfo := rfl
@[simp] theorem setOutput_soff (bs : List Byte) (s : State) : (setOutput bs s).soff = s.soff := rfl
@[simp] theorem setOutput_slen (bs : List Byte) (s : State) : (setOutput bs s).slen = s.slen := rfl
@[simp] theorem setOutput_olen (bs : List Byte) (s : State) : (setOutput bs s).olen = BitVec.ofNat 32 bs.length := rfl
@[simp] theorem setOutput_ftype (bs : List Byte) (s : State) : (setOutput bs s).ftype = s.ftype := rfl
@[simp] theorem setOutput_crc (bs : List Byte) (s : State) : (setOutput bs s).crc = s.crc := rfl
@[simp] theorem setOutput_acnt (bs : List Byte) (s : State) : (setOutput bs s).acnt = s.acnt := rfl
@[simp] theorem setOutput_cur (bs : List Byte) (s : State) : (setOutput bs s).cur = s.cur := rfl
@[simp] theorem setOutput_ibuf (bs : List Byte) (s : State) : (setOutput bs s).ibuf = s.ibuf := rfl
@[simp] theorem setOutput_obuf (bs : List Byte) (s : State) : (setOutput bs s).obuf = s.obuf.writeBytes 0 bs := rfl
@[simp] theorem setOutput_atab (bs : List Byte) (s : State) : (setOutput bs s).atab = s.atab := rfl
@[simp] theorem setOutput_pending (bs : List Byte) (s : State) : (setOutput bs s).pending = s.pending := rfl
@[simp] theorem setOutput_responses (bs : List Byte) (s : State) : (setOutput bs s).responses = s.responses := rfl
@[simp] theorem setOutput_resets (bs : List Byte) (s : State) : (setOutput bs s).resets = s.resets := rfl
@[simp] theorem setOutput_draws (bs : List Byte) (s : State) : (setOutput bs s).draws = s.draws := rfl

/-! ## respond -/

@[simp] theorem respond_bufSize (r : BusResponse) (s : State) : (respond r s).bufSize = s.bufSize := rfl
@[simp] theorem respond_status (r : BusResponse) (s : State) : (respond r s).status = s.status := rfl
@[simp] theorem respond_einfo (r : BusResponse) (s : State) : (respond r s).einfo = s.einfo := rfl
@[simp] theorem respond_soff (r : BusResponse) (s : State) : (respond r s).soff = s.soff := rfl
@[simp] theorem respond_slen (r : BusResponse) (s : State) : (respond r s).slen = s.slen := rfl
@[simp] theorem respond_olen (r : BusResponse) (s : State) : (respond r s).olen = s.olen := rfl
@[simp] theorem respond_ftype (r : BusResponse) (s : State) : (respond r s).ftype = s.ftype := rfl
@[simp] theorem respond_crc (r : BusResponse) (s : State) : (respond r s).crc = s.crc := rfl
@[simp] theorem respond_acnt (r : BusResponse) (s : State) : (respond r s).acnt = s.acnt := rfl
@[simp] theorem respond_cur (r : BusResponse) (s : State) : (respond r s).cur = s.cur := rfl
@[simp] theorem respond_ibuf (r : BusResponse) (s : State) : (respond r s).ibuf = s.ibuf := rfl
@[simp] theorem respond_obuf (r : BusResponse) (s : State) : (respond r s).obuf = s.obuf := rfl
@[simp] theorem respond_atab (r : BusResponse) (s : State) : (respond r s).atab = s.atab := rfl
@[simp] theorem respond_pending (r : BusResponse) (s : State) : (respond r s).pending = s.pending := rfl
@[simp] theorem respond_responses (r : BusResponse) (s : State) : (respond r s).responses = r :: s.responses := rfl
@[simp] theorem respond_resets (r : BusResponse) (s : State) : (respond r s).resets = s.resets := rfl
@[simp] theorem respond_draws (r : BusResponse) (s : State) : (respond r s).draws = s.draws := rfl

/-! ## STATUS -/

@[simp] theorem Status.succeeded_err (st : Status) : (Status.succeeded st).err = false := rfl
@[simp] theorem Status.succeeded_sticky (st : Status) : (Status.succeeded st).sticky = st.sticky := rfl
@[simp] theorem Status.succeeded_ecode (st : Status) : (Status.succeeded st).ecode = 0#8 := rfl
@[simp] theorem Status.failed_err (e : CmdError) : (Status.failed e).err = true := rfl
@[simp] theorem Status.failed_sticky (e : CmdError) : (Status.failed e).sticky = true := rfl
@[simp] theorem Status.failed_ecode (e : CmdError) : (Status.failed e).ecode = e.code := rfl
@[simp] theorem Status.cleared_err : Status.cleared.err = false := rfl
@[simp] theorem Status.cleared_sticky : Status.cleared.sticky = false := rfl
@[simp] theorem Status.cleared_ecode : Status.cleared.ecode = 0#8 := rfl

end Sys2Proof.Machine
end

