-- ==== Sys2Proof/Laws/Ops.lean ====
section
/-! SUPPORT. What the shared operations over buffers and the table do: the bytes read after them, and what a buffer read
depends on. -/

namespace Sys2Proof.Machine

theorem toNat_ofNat_word {n : Nat} (h : n < 2 ^ 32) : (BitVec.ofNat 32 n).toNat = n := by
  rw [BitVec.toNat_ofNat]; exact Nat.mod_eq_of_lt h

theorem bufSize_lt (n : Config.BufSize) : n.val < 2 ^ 17 := by have := n.2.2; omega

/-! ## Byte sequences read from a buffer -/

@[simp] theorem length_ibufBytes (s : State) (start n : Nat) : (ibufBytes s start n).length = n := by
  simp [ibufBytes]

@[simp] theorem length_obufBytes (s : State) (start n : Nat) : (obufBytes s start n).length = n := by
  simp [obufBytes]

theorem getElem_ibufBytes (s : State) (start n j : Nat) (h : j < (ibufBytes s start n).length) :
    (ibufBytes s start n)[j] = ibufByte s (start + j) := by simp [ibufBytes]

theorem getElem_obufBytes (s : State) (start n j : Nat) (h : j < (obufBytes s start n).length) :
    (obufBytes s start n)[j] = obufByte s (start + j) := by simp [obufBytes]

@[simp] theorem length_window (s : State) : (window s).length = s.slen.toNat := length_ibufBytes ..

@[simp] theorem length_entryValue (s : State) (e : AtabEntry) : (entryValue s e).length = e.len.toNat :=
  length_ibufBytes ..

@[simp] theorem length_validOutput (s : State) : (validOutput s).length = s.olen.toNat := length_obufBytes ..

theorem getElem_validOutput (s : State) (j : Nat) (h : j < (validOutput s).length) :
    (validOutput s)[j] = obufByte s j := by simp [validOutput, getElem_obufBytes]

@[simp] theorem length_validEntries (s : State) : (validEntries s).length = s.acnt.toNat := by simp [validEntries]

/-- A read of IBUF depends on the buffer and the draw made at hardware reset alone. -/
theorem ibufByte_congr {s t : State} (hb : t.ibuf = s.ibuf) (hr : t.resets = s.resets) (i : Nat) :
    ibufByte t i = ibufByte s i := by simp [ibufByte, hb, hr]

theorem obufByte_congr {s t : State} (hb : t.obuf = s.obuf) (hr : t.resets = s.resets) (i : Nat) :
    obufByte t i = obufByte s i := by simp [obufByte, hb, hr]

theorem atabEntry_congr {s t : State} (hb : t.atab = s.atab) (hr : t.resets = s.resets) (k : Nat) :
    atabEntry t k = atabEntry s k := by simp [atabEntry, hb, hr]

/-- Two states that agree on the bytes of a range read the same sequence there. -/
theorem ibufBytes_eq {s t : State} {a b n : Nat} (h : ∀ j < n, ibufByte t (b + j) = ibufByte s (a + j)) :
    ibufBytes t b n = ibufBytes s a n := by
  simp only [ibufBytes]
  exact List.map_congr_left fun j hj => h j (List.mem_range.mp hj)

theorem ibufBytes_congr {s t : State} (hb : t.ibuf = s.ibuf) (hr : t.resets = s.resets) (start n : Nat) :
    ibufBytes t start n = ibufBytes s start n := ibufBytes_eq fun _ _ => ibufByte_congr hb hr _

theorem obufBytes_eq {s t : State} {a b n : Nat} (h : ∀ j < n, obufByte t (b + j) = obufByte s (a + j)) :
    obufBytes t b n = obufBytes s a n := by
  simp only [obufBytes]
  exact List.map_congr_left fun j hj => h j (List.mem_range.mp hj)

theorem entryValue_congr {s t : State} (hb : t.ibuf = s.ibuf) (hr : t.resets = s.resets) (e : AtabEntry) :
    entryValue t e = entryValue s e := ibufBytes_congr hb hr ..

theorem validEntries_congr {s t : State} (hb : t.atab = s.atab) (hr : t.resets = s.resets) (ha : t.acnt = s.acnt) :
    validEntries t = validEntries s := by
  simp only [validEntries, ha]
  exact List.map_congr_left fun k _ => atabEntry_congr hb hr k

theorem validOutput_congr {s t : State} (hb : t.obuf = s.obuf) (hr : t.resets = s.resets) (ho : t.olen = s.olen) :
    validOutput t = validOutput s := by
  simp only [validOutput, ho]
  exact obufBytes_eq fun _ _ => obufByte_congr hb hr _

/-! ## Reads after writes -/

theorem getD_read?_writeBytes (m : Memory) (start : Nat) (bs : List Byte) (j : Nat) (d : Byte) :
    ((Memory.writeBytes m start bs).read? j).getD d =
      if h : start ≤ j ∧ j < start + bs.length then bs[j - start]'(by omega) else (m.read? j).getD d := by
  rw [Memory.read?_writeBytes]
  split
  · rename_i h
    rw [List.getElem?_eq_getElem (by omega)]
    rfl
  · rfl

/-- A byte of OBUF after an output written from index 0. -/
theorem obufByte_setOutput (bs : List Byte) (s : State) (i : Nat) :
    obufByte (setOutput bs s) i = if h : i < bs.length then bs[i] else obufByte s i := by
  have := getD_read?_writeBytes s.obuf 0 bs i (Config.obufAtReset s.resets i)
  simpa [obufByte] using this

theorem validOutput_setOutput {bs : List Byte} (h : bs.length < 2 ^ 32) (s : State) :
    validOutput (setOutput bs s) = bs := by
  have hlen : (setOutput bs s).olen.toNat = bs.length := toNat_ofNat_word h
  apply List.ext_getElem
  · rw [length_validOutput, hlen]
  · intro j h1 h2
    rw [getElem_validOutput, obufByte_setOutput, dif_pos h2]

/-- A byte of OBUF after an attribute was appended at OLEN. -/
theorem obufByte_appendAttr (tag len : Byte) (value : List Byte) (s : State) (i : Nat) :
    obufByte (appendAttr tag len value s) i =
      if h : s.olen.toNat ≤ i ∧ i < s.olen.toNat + (value.length + 2) then
        (tag :: len :: value)[i - s.olen.toNat]'(by simp; omega)
      else obufByte s i := by
  have := getD_read?_writeBytes s.obuf s.olen.toNat (tag :: len :: value) i (Config.obufAtReset s.resets i)
  simpa [obufByte] using this

theorem validOutput_appendAttr {tag len : Byte} {value : List Byte} {s : State}
    (h : appendedLen s value.length < 2 ^ 32) :
    validOutput (appendAttr tag len value s) = validOutput s ++ tag :: len :: value := by
  have hlen : (appendAttr tag len value s).olen.toNat = s.olen.toNat + 2 + value.length := toNat_ofNat_word h
  apply List.ext_getElem
  · rw [length_validOutput, hlen, List.length_append, length_validOutput]
    simp only [List.length_cons]
    omega
  · intro j h1 h2
    rw [length_validOutput, hlen] at h1
    rw [getElem_validOutput, obufByte_appendAttr]
    by_cases hj : s.olen.toNat ≤ j
    · have hj2 : s.olen.toNat ≤ j ∧ j < s.olen.toNat + (value.length + 2) := by omega
      rw [dif_pos hj2, List.getElem_append_right (by simpa using hj)]
      simp
    · have hj2 : ¬ (s.olen.toNat ≤ j ∧ j < s.olen.toNat + (value.length + 2)) := by omega
      rw [dif_neg hj2, List.getElem_append_left (by simpa using Nat.lt_of_not_le hj)]
      rw [getElem_validOutput]

/-! ## Operands -/

theorem windowInRange_iff (s : State) : windowInRange s = true ↔ s.soff.toNat + s.slen.toNat ≤ s.bufSize.val := by
  simp [windowInRange]

theorem validOutput_of_olen_zero {s : State} (h : s.olen = 0#32) : validOutput s = [] := by
  simp [validOutput, h, obufBytes]

/-! ## Appending table entries -/

@[simp] theorem entriesSize_nil : entriesSize [] = 0 := rfl

@[simp] theorem entriesSize_cons (e : AtabEntry) (es : List AtabEntry) :
    entriesSize (e :: es) = 2 + e.len.toNat + entriesSize es := by simp [entriesSize]

/-- Appending entries changes OBUF and OLEN and nothing else. -/
theorem appendEntries_fields (es : List AtabEntry) (s : State) :
    ∃ o n, es.foldl appendEntry s = { s with obuf := o, olen := n } := by
  induction es generalizing s with
  | nil => exact ⟨s.obuf, s.olen, rfl⟩
  | cons e es ih =>
    obtain ⟨o, n, h⟩ := ih (appendEntry s e)
    exact ⟨o, n, h⟩

theorem olen_appendEntry {s : State} {e : AtabEntry} (h : s.olen.toNat + 2 + e.len.toNat < 2 ^ 32) :
    (appendEntry s e).olen.toNat = s.olen.toNat + 2 + e.len.toNat := by
  simp only [appendEntry, appendAttr, appendedLen, length_entryValue]
  exact toNat_ofNat_word h

theorem olen_appendEntries (es : List AtabEntry) : ∀ s : State, s.olen.toNat + entriesSize es < 2 ^ 32 →
    (es.foldl appendEntry s).olen.toNat = s.olen.toNat + entriesSize es := by
  induction es with
  | nil => intro s _; rfl
  | cons e es ih =>
    intro s h
    rw [entriesSize_cons] at h ⊢
    have h1 := olen_appendEntry (s := s) (e := e) (by omega)
    rw [List.foldl_cons, ih _ (by omega), h1]
    omega

/-- The valid output after entries were appended: each with the value bytes IBUF holds. -/
theorem validOutput_appendEntries (es : List AtabEntry) : ∀ s : State, s.olen.toNat + entriesSize es < 2 ^ 32 →
    validOutput (es.foldl appendEntry s) =
      validOutput s ++ es.flatMap fun e => e.tag :: e.len :: entryValue s e := by
  induction es with
  | nil => intro s _; simp
  | cons e es ih =>
    intro s h
    rw [entriesSize_cons] at h
    have h1 := olen_appendEntry (s := s) (e := e) (by omega)
    have h2 : validOutput (appendEntry s e) = validOutput s ++ e.tag :: e.len :: entryValue s e :=
      validOutput_appendAttr (by rw [length_entryValue, appendedLen]; omega)
    rw [List.foldl_cons, ih _ (by omega), h2, List.append_assoc, List.flatMap_cons]
    rfl

theorem obufByte_appendEntries (es : List AtabEntry) : ∀ s : State, s.olen.toNat + entriesSize es < 2 ^ 32 →
    ∀ j, j < s.olen.toNat ∨ s.olen.toNat + entriesSize es ≤ j →
      obufByte (es.foldl appendEntry s) j = obufByte s j := by
  induction es with
  | nil => intro s _ j _; rfl
  | cons e es ih =>
    intro s h j hj
    rw [entriesSize_cons] at h hj
    have h1 := olen_appendEntry (s := s) (e := e) (by omega)
    rw [List.foldl_cons, ih _ (by omega) j (by omega), appendEntry, obufByte_appendAttr, dif_neg]
    rw [length_entryValue]
    omega

/-- Appending entries leaves every index of the valid output written. -/
theorem written_appendEntries (es : List AtabEntry) : ∀ s : State, s.olen.toNat + entriesSize es < 2 ^ 32 →
    (∀ i < s.olen.toNat, (s.obuf.read? i).isSome) →
    ∀ i < s.olen.toNat + entriesSize es, ((es.foldl appendEntry s).obuf.read? i).isSome := by
  induction es with
  | nil => intro s _ hw i hi; exact hw i (by simpa using hi)
  | cons e es ih =>
    intro s h hw i hi
    rw [entriesSize_cons] at h hi
    have h1 := olen_appendEntry (s := s) (e := e) (by omega)
    refine ih (appendEntry s e) (by omega) (fun k hk => ?_) i (by omega)
    show ((Memory.writeBytes s.obuf s.olen.toNat (e.tag :: e.len :: entryValue s e)).read? k).isSome = true
    rw [Memory.isSome_read?_writeBytes]
    by_cases hlt : k < s.olen.toNat
    · simp [hw k hlt]
    · rw [decide_eq_true (by simp; omega), Bool.true_or]

theorem fits_appendEntries (es : List AtabEntry) : ∀ s : State, s.olen.toNat + entriesSize es ≤ s.bufSize.val →
    s.obuf.Fits s.bufSize → (es.foldl appendEntry s).obuf.Fits s.bufSize := by
  induction es with
  | nil => intro s _ hf; exact hf
  | cons e es ih =>
    intro s h hf
    rw [entriesSize_cons] at h
    have := bufSize_lt s.bufSize
    have h1 := olen_appendEntry (s := s) (e := e) (by omega)
    exact ih (appendEntry s e) (by rw [h1]; simpa [appendEntry, appendAttr] using (by omega))
      (Memory.writeBytes_fits _ hf (by simp; omega))

/-! ## The table -/

theorem atabEntry_of_lt {s : State} {k : Nat} (h : k < s.atab.length) : atabEntry s k = s.atab[k] := by
  simp [atabEntry, h]

theorem writeAtab_getElem? (entries old : List AtabEntry) {k : Nat} (h : k < entries.length) :
    (writeAtab entries old)[k]? = entries[k]? := by
  simp [writeAtab, List.getElem?_append_left h]

theorem length_writeAtab (entries old : List AtabEntry) :
    (writeAtab entries old).length = max entries.length old.length := by
  simp [writeAtab]; omega

/-- The valid part of a table whose first ACNT entries have just been written. -/
theorem validEntries_writeAtab {s : State} {entries old : List AtabEntry} (ht : s.atab = writeAtab entries old)
    (ha : s.acnt.toNat = entries.length) : validEntries s = entries := by
  apply List.ext_getElem
  · simp [ha]
  · intro k h1 h2
    simp only [validEntries, List.getElem_map, List.getElem_range, atabEntry, ht, writeAtab_getElem? entries old h2,
      List.getElem?_eq_getElem h2]

end Sys2Proof.Machine
end

