-- ==== Sys2Proof/Laws/Bus.lean ====
section
/-! SUPPORT. The address map at the addresses of the map (spec/20_memory.md R52), and the step on a pending event. -/

namespace Sys2Proof.Machine

theorem step_nil {s : State} (h : s.pending = []) : step s = .next s := by simp [step, takeEvent, h]

theorem step_cons {s : State} {ev : BusEvent} {rest : List BusEvent} (h : s.pending = ev :: rest) :
    step s = handle ev { s with pending := rest } := by simp [step, takeEvent, h]

@[simp] theorem placeAt_regAddr (n : Config.BufSize) (r : Reg) : placeAt n (regAddr r) = .reg r := by
  cases r <;> rfl

theorem placeAt_cmd (n : Config.BufSize) : placeAt n 0x00000#19 = .reg .cmd := rfl

theorem toNat_ofNat_addr {a : Nat} (h : a < 2 ^ 19) : (BitVec.ofNat 19 a).toNat = a := by
  rw [BitVec.toNat_ofNat]; exact Nat.mod_eq_of_lt h

theorem placeAt_ibufAddr {n : Config.BufSize} {i : Nat} (h : i < n.val) : placeAt n (ibufAddr i) = .ibuf i := by
  have := n.2.2
  have e : (ibufAddr i).toNat = 0x10000 + i := toNat_ofNat_addr (by omega)
  simp only [placeAt, e]
  rw [if_neg (by omega), if_pos (by omega), if_pos (by omega), Nat.add_sub_cancel_left]

theorem placeAt_obufAddr {n : Config.BufSize} {i : Nat} (h : i < n.val) : placeAt n (obufAddr i) = .obuf i := by
  have := n.2.2
  have e : (obufAddr i).toNat = 0x20000 + i := toNat_ofNat_addr (by omega)
  simp only [placeAt, e]
  rw [if_neg (by omega), if_neg (by omega), if_pos (by omega), if_pos (by omega), Nat.add_sub_cancel_left]

theorem placeAt_atabAddr {n : Config.BufSize} {k : Nat} (h : k < Config.atabSize n) (second : Bool) :
    placeAt n (atabAddr k second) = .atab k second := by
  have := n.2.2
  simp only [Config.atabSize] at h
  have e : (atabAddr k second).toNat = 0x40000 + 8 * k + if second then 4 else 0 := by
    apply toNat_ofNat_addr
    split <;> omega
  simp only [placeAt, e]
  rw [if_neg (by omega), if_neg (by omega), if_neg (by omega), if_neg (by omega), placeInAtab, Config.atabSize]
  cases second
  · simp only [Bool.false_eq_true, if_false, Nat.add_zero]
    have h1 : 0x40000 + 8 * k - 0x40000 = 8 * k := by omega
    have h2 : 8 * k / 8 = k := by omega
    have h3 : decide (8 * k % 8 = 4) = false := decide_eq_false (by omega)
    rw [h1, h2, h3, if_pos (by omega)]
  · simp only [if_true]
    have h1 : 0x40000 + 8 * k + 4 - 0x40000 = 8 * k + 4 := by omega
    have h2 : (8 * k + 4) / 8 = k := by omega
    have h3 : decide ((8 * k + 4) % 8 = 4) = true := decide_eq_true (by omega)
    rw [h1, h2, h3, if_pos (by omega)]

/-- A write of a word to CMD, taken from the queue. -/
theorem step_command {s : State} {w : Word} {rest : List BusEvent} (h : s.pending = .write32 0x00000#19 w :: rest) :
    step s = runCommand w (s.answered rest .written) := by
  rw [step_cons h]; rfl

/-! ## What a step can do -/

/-- A register stands only at its own address. -/
theorem regAddr_of_placeAt {n : Config.BufSize} {a : BitVec 19} {r : Reg} (h : placeAt n a = .reg r) :
    a = regAddr r := by
  unfold placeAt at h
  simp only at h
  split at h
  · cases ho : Reg.ofOffset a.toNat with
    | none => rw [ho] at h; cases h
    | some r' =>
      rw [ho] at h
      cases h
      have hr : r.offset = a.toNat := by simpa using List.find?_some ho
      rw [regAddr, hr]
      simp
  · split at h
    · split at h <;> cases h
    · split at h
      · split at h <;> cases h
      · split at h
        · cases h
        · unfold placeInAtab at h
          split at h <;> cases h

/-- An IBUF place has an index below BUF_SIZE, and its own address. -/
theorem ibufAddr_of_placeAt {n : Config.BufSize} {a : BitVec 19} {i : Nat} (h : placeAt n a = .ibuf i) :
    i < n.val ∧ a = ibufAddr i := by
  unfold placeAt at h
  simp only at h
  split at h
  · cases ho : Reg.ofOffset a.toNat <;> rw [ho] at h <;> cases h
  · split at h
    · split at h
      · rename_i hlt
        simp only [Place.ibuf.injEq] at h
        refine ⟨h ▸ hlt, ?_⟩
        rw [ibufAddr, show 0x10000 + i = a.toNat by omega]
        simp
      · cases h
    · split at h
      · split at h <;> cases h
      · split at h
        · cases h
        · unfold placeInAtab at h
          split at h <;> cases h

/-- What one step does: nothing to the block; one byte of IBUF written; a register written; a command run; reset. -/
inductive StepEffect (s t : State) : Prop where
  | quiet (p : List BusEvent) (r : List BusResponse) (d : Nat)
      (h : t = { s with pending := p, responses := r, draws := d })
  | byte (rest : List BusEvent) (i : Nat) (b : Byte) (hi : i < s.bufSize.val)
      (hp : s.pending = .write8 (ibufAddr i) b :: rest)
      (h : t = respond .written { s with pending := rest, ibuf := s.ibuf.write i b })
  | register (rest : List BusEvent) (r : Reg) (v : Word) (hr : r ≠ .cmd)
      (hp : s.pending = .write32 (regAddr r) v :: rest)
      (h : t = respond .written (writeReg { s with pending := rest } r v))
  | command (rest : List BusEvent) (w : Word) (hp : s.pending = .write32 (regAddr .cmd) w :: rest)
      (h : runCommand w (s.answered rest .written) = .next t)
  | reset (rest : List BusEvent) (hp : s.pending = .hardwareReset :: rest)
      (h : t = hardwareReset { s with pending := rest })

theorem step_cases {s t : State} (h : step s = .next t) : StepEffect s t := by
  cases hp : s.pending with
  | nil =>
    rw [step_nil hp] at h
    cases h
    exact .quiet _ _ _ rfl
  | cons ev rest =>
    rw [step_cons hp] at h
    cases ev with
    | hardwareReset => cases h; exact .reset rest hp rfl
    | write16 _ _ => cases h; exact .quiet _ _ _ rfl
    | write8 a b =>
      simp only [handle] at h
      cases h
      unfold busWrite8
      split
      · rename_i i hpl
        exact .byte rest i b (ibufAddr_of_placeAt hpl).1 (by rw [hp, (ibufAddr_of_placeAt hpl).2]) rfl
      · exact .quiet _ _ _ rfl
      · exact .quiet _ _ _ rfl
    | read a w =>
      simp only [handle] at h
      cases h
      unfold busRead
      split <;> (try split) <;> exact .quiet _ _ _ rfl
    | write32 a v =>
      simp only [handle, busWrite32] at h
      split at h
      · rename_i hpl
        exact .command rest v (by rw [hp, regAddr_of_placeAt hpl]) h
      · rename_i r hne hpl
        cases h
        exact .register rest r v hne (by rw [hp, regAddr_of_placeAt hpl]) rfl
      · cases h; exact .quiet _ _ _ rfl
      · cases h; exact .quiet _ _ _ rfl

end Sys2Proof.Machine
end

