-- ==== Sys2Proof/Laws/Crc.lean ====
section
/-! SUPPORT. The algebra of one CRC32C round (spec/40_crc.md R91): it is linear over exclusive or and loses nothing. -/

namespace Sys2Proof.Machine

@[simp] theorem crcBit_zero : crcBit 0#32 = 0#32 := by decide

theorem crcBit_xor (x y : Word) : crcBit (x ^^^ y) = crcBit x ^^^ crcBit y := by
  simp only [crcBit, BitVec.getLsbD_xor, BitVec.ushiftRight_xor_distrib]
  generalize hx : x >>> 1 = x'
  generalize hy : y >>> 1 = y'
  cases x.getLsbD 0 <;> cases y.getLsbD 0 <;>
    simp only [Bool.xor_true, Bool.xor_false, Bool.not_true, Bool.not_false, Bool.false_eq_true, if_true, if_false]
  · exact (BitVec.xor_assoc ..).symm ▸ rfl
  · rw [BitVec.xor_assoc, BitVec.xor_assoc, BitVec.xor_comm y']
  · rw [BitVec.xor_assoc, BitVec.xor_comm crcPoly, ← BitVec.xor_assoc, ← BitVec.xor_assoc, BitVec.xor_assoc (x' ^^^ y'),
      BitVec.xor_self, BitVec.xor_zero]

/-- A round loses nothing: bit 31 of the polynomial tells the two cases apart. -/
theorem crcBit_eq_zero {x : Word} (h : crcBit x = 0#32) : x = 0#32 := by
  unfold crcBit at h
  split at h
  · have h31 := congrArg (fun v => BitVec.getLsbD v 31) h
    simp [crcPoly] at h31
  · rename_i h0
    ext i hi
    rcases i with _ | i
    · simpa [BitVec.getLsbD_eq_getElem hi] using h0
    · have := congrArg (fun v => BitVec.getLsbD v i) h
      simp only [BitVec.getLsbD_ushiftRight, BitVec.getLsbD_zero] at this
      rw [Nat.add_comm] at this
      simpa [BitVec.getLsbD_eq_getElem hi] using this

/-- Eight rounds, the part of `crcStep` after the byte is in. -/
def crcRounds (c : Word) : Word := Nat.repeat crcBit 8 c

theorem crcStep_eq_rounds (c : Word) (b : Byte) : crcStep c b = crcRounds (c ^^^ b.zeroExtend 32) := rfl

theorem repeat_crcBit_xor (n : Nat) (x y : Word) :
    Nat.repeat crcBit n (x ^^^ y) = Nat.repeat crcBit n x ^^^ Nat.repeat crcBit n y := by
  induction n with
  | zero => rfl
  | succ n ih => simp only [Nat.repeat, ih, crcBit_xor]

theorem crcRounds_xor (x y : Word) : crcRounds (x ^^^ y) = crcRounds x ^^^ crcRounds y := repeat_crcBit_xor 8 x y

theorem repeat_crcBit_eq_zero (n : Nat) {x : Word} (h : Nat.repeat crcBit n x = 0#32) : x = 0#32 := by
  induction n with
  | zero => exact h
  | succ n ih => exact ih (crcBit_eq_zero h)

theorem crcRounds_eq_zero {x : Word} (h : crcRounds x = 0#32) : x = 0#32 := repeat_crcBit_eq_zero 8 h

/-- Eight rounds over a remainder whose low byte is zero shift it down and do nothing else. -/
theorem crcRounds_of_low_zero {c : Word} (h : c.setWidth 8 = 0#8) : crcRounds c = c >>> 8 := by
  have hb : ∀ i < 8, c.getLsbD i = false := by
    intro i hi
    have := congrArg (fun v => BitVec.getLsbD v i) h
    simpa [BitVec.getLsbD_setWidth, hi] using this
  have hs : ∀ n ≤ 8, Nat.repeat crcBit n c = c >>> n := by
    intro n
    induction n with
    | zero => intro _; simp [Nat.repeat]
    | succ n ih =>
      intro hn
      rw [Nat.repeat, ih (by omega), crcBit, if_neg]
      · rw [← BitVec.shiftRight_add]
      · simp [hb n (by omega)]
  exact hs 8 (Nat.le_refl 8)

theorem crcStep_xor (c d : Word) (b e : Byte) : crcStep (c ^^^ d) (b ^^^ e) = crcStep c b ^^^ crcStep d e := by
  simp only [crcStep_eq_rounds]
  rw [← crcRounds_xor]
  congr 1
  have : (b ^^^ e).zeroExtend 32 = b.zeroExtend 32 ^^^ e.zeroExtend 32 := by
    simp [BitVec.zeroExtend, BitVec.setWidth_xor]
  rw [this, BitVec.xor_assoc, BitVec.xor_assoc]
  congr 1
  rw [← BitVec.xor_assoc, BitVec.xor_comm d, BitVec.xor_assoc]

/-- A byte step loses nothing of the remainder. -/
theorem crcStep_injective {c d : Word} {b : Byte} (h : crcStep c b = crcStep d b) : c = d := by
  have h0 : crcStep (c ^^^ d) (b ^^^ b) = 0#32 := by rw [crcStep_xor, h, BitVec.xor_self]
  rw [BitVec.xor_self, crcStep_eq_rounds] at h0
  simpa using crcRounds_eq_zero h0

/-- A byte step loses nothing of the byte. -/
theorem crcStep_byte_injective {c : Word} {b e : Byte} (h : crcStep c b = crcStep c e) : b = e := by
  have h0 : crcStep (c ^^^ c) (b ^^^ e) = 0#32 := by rw [crcStep_xor, h, BitVec.xor_self]
  rw [BitVec.xor_self, crcStep_eq_rounds] at h0
  have h1 := crcRounds_eq_zero h0
  rw [BitVec.zero_xor] at h1
  simpa using congrArg (fun v : Word => (v.setWidth 8 : Byte)) h1

theorem crcRun_nil (c : Word) : crcRun c [] = c := rfl

theorem crcRun_cons (c : Word) (b : Byte) (bs : List Byte) : crcRun c (b :: bs) = crcRun (crcStep c b) bs := rfl

end Sys2Proof.Machine
end

