-- ==== Sys2Proof/Laws/Decode.lean ====
section
/-! SUPPORT. The three fields of a command word, taken apart and put together (spec/30_encoding.md R70). -/

namespace Sys2Proof

theorem fieldOp_cat (op a : Byte) (b : Half) : fieldOp (op ++ a ++ b) = op := by
  apply BitVec.eq_of_getLsbD_eq
  intro i hi
  simp only [fieldOp, BitVec.getLsbD_extractLsb', BitVec.getLsbD_append, hi, decide_true, Bool.true_and]
  rw [if_neg (by omega), if_neg (by omega)]
  congr 1
  omega

theorem fieldA_cat (op a : Byte) (b : Half) : fieldA (op ++ a ++ b) = a := by
  apply BitVec.eq_of_getLsbD_eq
  intro i hi
  simp only [fieldA, BitVec.getLsbD_extractLsb', BitVec.getLsbD_append, hi, decide_true, Bool.true_and]
  rw [if_neg (by omega), if_pos (by omega)]
  congr 1
  omega

theorem fieldB_cat (op a : Byte) (b : Half) : fieldB (op ++ a ++ b) = b := by
  apply BitVec.eq_of_getLsbD_eq
  intro i hi
  simp only [fieldB, BitVec.getLsbD_extractLsb', BitVec.getLsbD_append, hi, decide_true, Bool.true_and]
  rw [if_pos (by omega)]
  congr 1
  omega

/-- A word is its three fields. -/
theorem fields_cat (w : Word) : fieldOp w ++ fieldA w ++ fieldB w = w := by
  apply BitVec.eq_of_getLsbD_eq
  intro i hi
  simp only [fieldOp, fieldA, fieldB, BitVec.getLsbD_extractLsb', BitVec.getLsbD_append]
  by_cases h1 : i < 16
  · rw [if_pos h1]; simp [h1]
  · rw [if_neg h1]
    by_cases h2 : i - 16 < 8
    · rw [if_pos h2]
      simp only [h2, decide_true, Bool.true_and]
      congr 1
      omega
    · rw [if_neg h2]
      have h3 : i - 16 - 8 < 8 := by omega
      simp only [h3, decide_true, Bool.true_and]
      congr 1
      omega

/-- An op the map assigns is the op of every command of its mnemonic. -/
theorem eq_opOf_of_mnemonicOfOp {op : Byte} {m : Mnemonic} (h : mnemonicOfOp op = some m) (n : Nat) :
    op = opOf (instrOf m n) := by
  unfold mnemonicOfOp at h
  simp only [ite_eq_iff, Option.some.injEq, reduceCtorEq, and_false, or_false] at h
  rcases h with ⟨h, rfl⟩ | ⟨-, ⟨h, rfl⟩ | ⟨-, ⟨h, rfl⟩ | ⟨-, ⟨h, rfl⟩ | ⟨-, ⟨h, rfl⟩ | ⟨-, ⟨h, rfl⟩ | ⟨-, ⟨h, rfl⟩ |
    ⟨-, ⟨h, rfl⟩ | ⟨-, ⟨h, rfl⟩ | ⟨-, ⟨h, rfl⟩ | ⟨-, ⟨h, rfl⟩ | ⟨-, ⟨h, rfl⟩ | ⟨-, h, rfl⟩⟩⟩⟩⟩⟩⟩⟩⟩⟩⟩⟩ <;> exact h

theorem mnemonicOfOp_opOf (i : Instr) : mnemonicOfOp (opOf i) = some i.toAsm.mnemonic := by
  cases i <;> rfl

theorem decode_cat (op a : Byte) (b : Half) : decode (op ++ a ++ b) = decodeFields op a b := by
  rw [decode, fieldOp_cat, fieldA_cat, fieldB_cat]

end Sys2Proof
end

