-- ==== Sys2Proof/Laws/Frame.lean ====
section
/-! SUPPORT. Big-endian integers and slices, and the fields of a frame. -/

namespace Sys2Proof.Machine

@[simp] theorem length_be16 (v : Half) : (be16 v).length = 2 := rfl

@[simp] theorem length_be32 (v : Word) : (be32 v).length = 4 := rfl

theorem fromBe_be16 (v : Half) : fromBe (be16 v) = v.toNat := by
  have h := v.isLt
  simp only [fromBe, be16, List.foldl_cons, List.foldl_nil, BitVec.extractLsb'_toNat]
  simp only [Nat.shiftRight_eq_div_pow]
  omega

theorem fromBe_be32 (v : Word) : fromBe (be32 v) = v.toNat := by
  have h := v.isLt
  simp only [fromBe, be32, List.foldl_cons, List.foldl_nil, BitVec.extractLsb'_toNat]
  simp only [Nat.shiftRight_eq_div_pow]
  omega

theorem frombe16_be16 (v : Half) : frombe16 (be16 v) = v := by
  rw [frombe16, fromBe_be16]; exact BitVec.ofNat_toNat ..

theorem frombe32_be32 (v : Word) : frombe32 (be32 v) = v := by
  rw [frombe32, fromBe_be32]; exact BitVec.ofNat_toNat ..

/-! ## The inverse direction -/

theorem fromBe_two (a b : Byte) : fromBe [a, b] = a.toNat * 256 + b.toNat := by simp [fromBe]

theorem fromBe_four (a b c d : Byte) :
    fromBe [a, b, c, d] = ((a.toNat * 256 + b.toNat) * 256 + c.toNat) * 256 + d.toNat := by simp [fromBe]

theorem be16_frombe16 {bs : List Byte} (h : bs.length = 2) : be16 (frombe16 bs) = bs := by
  match bs, h with
  | [a, b], _ =>
    have ha := a.isLt
    have hb := b.isLt
    simp only [be16, frombe16, fromBe_two, List.cons.injEq, and_true]
    constructor <;> apply BitVec.eq_of_toNat_eq <;>
      simp only [BitVec.extractLsb'_toNat, BitVec.toNat_ofNat, Nat.shiftRight_eq_div_pow] <;> omega

theorem be32_frombe32 {bs : List Byte} (h : bs.length = 4) : be32 (frombe32 bs) = bs := by
  match bs, h with
  | [a, b, c, d], _ =>
    have ha := a.isLt
    have hb := b.isLt
    have hc := c.isLt
    have hd := d.isLt
    simp only [be32, frombe32, fromBe_four, List.cons.injEq, and_true]
    refine ⟨?_, ?_, ?_, ?_⟩ <;> apply BitVec.eq_of_toNat_eq <;>
      simp only [BitVec.extractLsb'_toNat, BitVec.toNat_ofNat, Nat.shiftRight_eq_div_pow] <;> omega

theorem fromBe_two_lt {bs : List Byte} (h : bs.length = 2) : fromBe bs < 65536 := by
  match bs, h with
  | [a, b], _ =>
    have ha := a.isLt
    have hb := b.isLt
    rw [fromBe_two]
    omega

/-! ## Slices -/

theorem length_slice (bs : List Byte) (a b : Nat) : (slice bs a b).length = min b bs.length - a := by
  simp [slice]

theorem slice_append_slice (bs : List Byte) {a b c : Nat} (h1 : a ≤ b) (h2 : b ≤ c) :
    slice bs a b ++ slice bs b c = slice bs a c := by
  simp only [slice]
  apply List.ext_getElem?
  intro i
  simp only [List.getElem?_append, List.length_drop, List.length_take, List.getElem?_drop, List.getElem?_take]
  by_cases hb : b ≤ bs.length
  · by_cases hi : i < b - a
    · rw [if_pos (by omega), if_pos (by omega), if_pos (by omega)]
    · rw [if_neg (by omega)]
      have : b + (i - (min b bs.length - a)) = a + i := by omega
      rw [this]
  · by_cases hi : i < bs.length - a
    · rw [if_pos (by omega), if_pos (by omega), if_pos (by omega)]
    · rw [if_neg (by omega)]
      have h3 : bs.length ≤ a + i := by omega
      have h4 : bs.length ≤ b + (i - (min b bs.length - a)) := by omega
      rw [List.getElem?_eq_none h3, List.getElem?_eq_none h4]
      simp

theorem slice_all (bs : List Byte) : slice bs 0 bs.length = bs := by simp [slice]

/-- A slice of a sequence in three parts that is exactly its middle part. -/
theorem slice_middle (x y z : List Byte) : slice (x ++ y ++ z) x.length (x.length + y.length) = y := by
  have : (x ++ y).length = x.length + y.length := List.length_append
  rw [slice, ← this, List.take_left, List.drop_left]

theorem slice_prefix (x z : List Byte) : slice (x ++ z) 0 x.length = x := by simp [slice]

theorem slice_suffix (x z : List Byte) : slice (x ++ z) x.length (x ++ z).length = z := by
  rw [slice, List.take_length, List.drop_left]

/-! ## The parts of a frame -/

@[simp] theorem length_frameHeader (t : Half) (p : List Byte) : (frameHeader t p).length = 4 := by
  simp [frameHeader]

@[simp] theorem length_frameBytes (t : Half) (p : List Byte) : (frameBytes t p).length = p.length + 8 := by
  simp [frameBytes]; omega

theorem frameLengthField_frameBytes (t : Half) {p : List Byte} (h : p.length ≤ 65535) :
    frameLengthField (frameBytes t p) = p.length := by
  have e : frameBytes t p = be16 t ++ be16 (BitVec.ofNat 16 p.length) ++
      (p ++ be32 (crc32c (frameHeader t p ++ p))) := by
    simp [frameBytes, frameHeader, List.append_assoc]
  have := slice_middle (be16 t) (be16 (BitVec.ofNat 16 p.length)) (p ++ be32 (crc32c (frameHeader t p ++ p)))
  rw [← e] at this
  rw [frameLengthField, show slice (frameBytes t p) 2 4 = _ from this, fromBe_be16, BitVec.toNat_ofNat]
  exact Nat.mod_eq_of_lt (by omega)

theorem frame_body (t : Half) (p : List Byte) :
    slice (frameBytes t p) 0 ((frameBytes t p).length - 4) = frameHeader t p ++ p := by
  have h : (frameBytes t p).length - 4 = (frameHeader t p ++ p).length := by simp; omega
  rw [h, frameBytes, slice_prefix]

theorem frameChecksum_frameBytes (t : Half) (p : List Byte) :
    frameChecksum (frameBytes t p) = crc32c (frameHeader t p ++ p) := by
  rw [frameChecksum, frame_body]

theorem frameTrailer_frameBytes (t : Half) (p : List Byte) :
    frameTrailer (frameBytes t p) = crc32c (frameHeader t p ++ p) := by
  have h : (frameBytes t p).length - 4 = (frameHeader t p ++ p).length := by simp; omega
  rw [frameTrailer, h, frameBytes, slice_suffix, frombe32_be32]

theorem frame_payload (t : Half) (p : List Byte) :
    slice (frameBytes t p) 4 ((frameBytes t p).length - 4) = p := by
  have h := slice_middle (frameHeader t p) p (be32 (crc32c (frameHeader t p ++ p)))
  rw [length_frameHeader] at h
  rw [show (frameBytes t p).length - 4 = 4 + p.length by simp; omega]
  exact h

theorem frame_type (t : Half) (p : List Byte) : frombe16 (slice (frameBytes t p) 0 2) = t := by
  have e : frameBytes t p = be16 t ++ (be16 (BitVec.ofNat 16 p.length) ++ p ++
      be32 (crc32c (frameHeader t p ++ p))) := by
    simp [frameBytes, frameHeader, List.append_assoc]
  rw [e, show (2 : Nat) = (be16 t).length from rfl, slice_prefix, frombe16_be16]

end Sys2Proof.Machine
end

