-- ==== Sys2Proof/Laws/PerInstr.lean ====
section
/-! SUPPORT. The per-instruction family: where an encoded command carries its op, and that its must-be-zero fields are
zero (spec/30_encoding.md R70 to R73, R77). -/

namespace Sys2Proof.Laws.EncodedFields

open Sys2Proof

/-- The encoded word has the command's op in bits 31:24, and 0 in every field its format does not use. -/
def Statement (i : Instr) : Prop :=
  fieldOp (encode i) = opOf i ∧
    (match i.toAsm.mnemonic.format with
      | .N => fieldA (encode i) = 0#8 ∧ fieldB (encode i) = 0#16
      | .A => fieldB (encode i) = 0#16
      | .B => fieldA (encode i) = 0#8)

theorem nop : Statement .nop := ⟨fieldOp_cat .., fieldA_cat .., fieldB_cat ..⟩
theorem crcInit : Statement .crcInit := ⟨fieldOp_cat .., fieldA_cat .., fieldB_cat ..⟩
theorem crcByte (imm8 : Byte) : Statement (.crcByte imm8) := ⟨fieldOp_cat .., fieldB_cat ..⟩
theorem crcBuf : Statement .crcBuf := ⟨fieldOp_cat .., fieldA_cat .., fieldB_cat ..⟩
theorem frmEnc (imm16 : Half) : Statement (.frmEnc imm16) := ⟨fieldOp_cat .., fieldA_cat ..⟩
theorem frmDec : Statement .frmDec := ⟨fieldOp_cat .., fieldA_cat .., fieldB_cat ..⟩
theorem tlvParse : Statement .tlvParse := ⟨fieldOp_cat .., fieldA_cat .., fieldB_cat ..⟩
theorem obufClr : Statement .obufClr := ⟨fieldOp_cat .., fieldA_cat .., fieldB_cat ..⟩
theorem tlvPut (imm8 : Byte) : Statement (.tlvPut imm8) := ⟨fieldOp_cat .., fieldB_cat ..⟩
theorem tlvPuta (imm16 : Half) : Statement (.tlvPuta imm16) := ⟨fieldOp_cat .., fieldA_cat ..⟩
theorem tlvBuild : Statement .tlvBuild := ⟨fieldOp_cat .., fieldA_cat .., fieldB_cat ..⟩
theorem movO2i : Statement .movO2i := ⟨fieldOp_cat .., fieldA_cat .., fieldB_cat ..⟩
theorem srst : Statement .srst := ⟨fieldOp_cat .., fieldA_cat .., fieldB_cat ..⟩

end Sys2Proof.Laws.EncodedFields
end

