-- ==== Sys2Proof/Laws/Tlv.lean ====
section
/-! SUPPORT. One pass of the TLV parser, said once: what it finds, where it stops, and that its fuel never runs out
(spec/42_tlv.md R130, R132). -/

namespace Sys2Proof.Machine

@[simp] theorem tlvBytes_nil : tlvBytes [] = [] := rfl

@[simp] theorem tlvBytes_cons (a : Attr) (as : List Attr) : tlvBytes (a :: as) = attrBytes a ++ tlvBytes as := rfl

theorem tlvBytes_append (as bs : List Attr) : tlvBytes (as ++ bs) = tlvBytes as ++ tlvBytes bs :=
  List.flatMap_append

@[simp] theorem length_attrBytes (a : Attr) : (attrBytes a).length = 2 + a.value.length := by
  simp [attrBytes]; omega

/-- Attributes with the offsets of their tag bytes, the first at `cur`. -/
def withOffsets (cur : Nat) : List Attr → List (Nat × Attr)
  | [] => []
  | a :: as => (cur, a) :: withOffsets (cur + 2 + a.value.length) as

@[simp] theorem map_snd_withOffsets (cur : Nat) (as : List Attr) : (withOffsets cur as).map Prod.snd = as := by
  induction as generalizing cur with
  | nil => rfl
  | cons a as ih => simp [withOffsets, ih]

@[simp] theorem length_withOffsets (cur : Nat) (as : List Attr) : (withOffsets cur as).length = as.length := by
  induction as generalizing cur with
  | nil => rfl
  | cons a as ih => simp [withOffsets, ih]

theorem withOffsets_getElem (cur : Nat) (as : List Attr) (k : Nat) (h : k < (withOffsets cur as).length) :
    (withOffsets cur as)[k] =
      (cur + (tlvBytes (as.take k)).length, as[k]'(by simpa using h)) := by
  induction as generalizing cur k with
  | nil => simp [withOffsets] at h
  | cons a as ih =>
    cases k with
    | zero => simp [withOffsets]
    | succ k =>
      simp only [withOffsets, List.getElem_cons_succ, List.take_succ_cons, tlvBytes_cons, List.length_append,
        length_attrBytes]
      rw [ih]
      simp only [Prod.mk.injEq, and_true]
      omega

/-- Every attribute has a length the codec supports. -/
def Supported (as : List Attr) : Prop := ∀ a ∈ as, a.value.length ≤ Config.maxAttrLen

theorem tlvBuild_of_supported {as : List Attr} (h : Supported as) : tlvBuild as = some (tlvBytes as) := by
  have : (as.all fun a => decide (a.value.length ≤ Config.maxAttrLen)) = true := by
    simpa [List.all_eq_true, Supported] using h
  rw [tlvBuild, if_pos this]

/-! ## Where a pass stops -/

/-- The input left at cursor `c` and how the pass ends there: at the end of the input, at a missing length byte, at a
length above 127, or at a value that runs past the end. -/
inductive StopsAt (c : Nat) : List Byte → Except TlvError Nat → Prop where
  | done : StopsAt c [] (.ok c)
  | noLength (tag : Byte) : StopsAt c [tag] (.error (.truncated c))
  | unsupported (tag len : Byte) (tail : List Byte) (h : Config.maxAttrLen < len.toNat) :
      StopsAt c (tag :: len :: tail) (.error (.unsupportedLength c))
  | shortValue (tag len : Byte) (tail : List Byte) (h : len.toNat ≤ Config.maxAttrLen) (hs : tail.length < len.toNat) :
      StopsAt c (tag :: len :: tail) (.error (.truncated c))

/-- A pass stops at once on an input of one of those four forms. -/
theorem tlvScan_of_stops {c fuel : Nat} {rem : List Byte} {e : Except TlvError Nat} (h : StopsAt c rem e) :
    tlvScan fuel c rem = ⟨[], e⟩ := by
  cases h with
  | done => unfold tlvScan; rfl
  | noLength tag => unfold tlvScan; rfl
  | unsupported tag len tail h => unfold tlvScan; simp [h]
  | shortValue tag len tail h hs => unfold tlvScan; simp [hs, Nat.not_lt.mpr h]

/-- One round on an attribute that is there in full. -/
theorem tlvScan_attr (fuel cur : Nat) {a : Attr} (h : a.value.length ≤ Config.maxAttrLen) (rest : List Byte) :
    tlvScan (fuel + 1) cur (attrBytes a ++ rest) =
      (tlvScan fuel (cur + 2 + a.value.length) rest).push cur a := by
  have hl : (BitVec.ofNat 8 a.value.length).toNat = a.value.length := by
    rw [BitVec.toNat_ofNat]; exact Nat.mod_eq_of_lt (by have : Config.maxAttrLen = 127 := rfl; omega)
  show tlvScan (fuel + 1) cur (a.tag :: BitVec.ofNat 8 a.value.length :: (a.value ++ rest)) = _
  rw [tlvScan, hl, if_neg (by omega), if_neg (by simp)]
  simp

/-- A pass over attributes and whatever follows them. -/
theorem tlvScan_append {as : List Attr} (h : Supported as) (rem : List Byte) :
    ∀ (fuel cur : Nat), (tlvBytes as ++ rem).length ≤ fuel → ∃ fuel', rem.length ≤ fuel' ∧
      tlvScan fuel cur (tlvBytes as ++ rem) =
        ⟨withOffsets cur as ++ (tlvScan fuel' (cur + (tlvBytes as).length) rem).found,
          (tlvScan fuel' (cur + (tlvBytes as).length) rem).ending⟩ := by
  induction as with
  | nil => intro fuel cur hf; exact ⟨fuel, by simpa using hf, by simp [withOffsets]⟩
  | cons a as ih =>
    intro fuel cur hf
    have ha := h a (List.mem_cons_self ..)
    simp only [tlvBytes_cons, List.append_assoc, List.length_append, length_attrBytes] at hf
    obtain ⟨n, rfl⟩ : ∃ n, fuel = n + 1 := ⟨fuel - 1, by omega⟩
    obtain ⟨fuel', hf', e⟩ := ih (fun b hb => h b (List.mem_cons_of_mem _ hb)) n (cur + 2 + a.value.length)
      (by simp only [List.length_append]; omega)
    refine ⟨fuel', hf', ?_⟩
    rw [tlvBytes_cons, List.append_assoc, tlvScan_attr _ _ ha, e]
    have : cur + (attrBytes a ++ tlvBytes as).length = cur + 2 + a.value.length + (tlvBytes as).length := by
      simp only [List.length_append, length_attrBytes]; omega
    rw [this]
    rfl

/-- Every pass: the input is attributes it accepts and a rest it stops at. -/
theorem tlvScan_spec (fuel : Nat) : ∀ (cur : Nat) (bs : List Byte), bs.length ≤ fuel → ∃ as rem,
    bs = tlvBytes as ++ rem ∧ Supported as ∧ (tlvScan fuel cur bs).found = withOffsets cur as ∧
      StopsAt (cur + (tlvBytes as).length) rem (tlvScan fuel cur bs).ending := by
  induction fuel with
  | zero =>
    intro cur bs h
    obtain rfl : bs = [] := List.length_eq_zero_iff.mp (by omega)
    exact ⟨[], [], rfl, by simp [Supported], rfl, .done⟩
  | succ fuel ih =>
    intro cur bs h
    match bs, h with
    | [], _ => exact ⟨[], [], rfl, by simp [Supported], rfl, .done⟩
    | [tag], _ => exact ⟨[], [tag], rfl, by simp [Supported], rfl, .noLength tag⟩
    | tag :: len :: tail, h =>
      by_cases h1 : Config.maxAttrLen < len.toNat
      · have hs : StopsAt cur (tag :: len :: tail) _ := .unsupported tag len tail h1
        rw [tlvScan_of_stops hs]
        exact ⟨[], _, rfl, by simp [Supported], rfl, hs⟩
      · by_cases h2 : tail.length < len.toNat
        · have hs : StopsAt cur (tag :: len :: tail) _ := .shortValue tag len tail (by omega) h2
          rw [tlvScan_of_stops hs]
          exact ⟨[], _, rfl, by simp [Supported], rfl, hs⟩
        · have hv : (tail.take len.toNat).length = len.toNat := by simp; omega
          have hsplit : tag :: len :: tail = attrBytes ⟨tag, tail.take len.toNat⟩ ++ tail.drop len.toNat := by
            simp [attrBytes, hv]
          have ha : (tail.take len.toNat).length ≤ Config.maxAttrLen := by omega
          rw [hsplit, tlvScan_attr fuel cur (a := ⟨tag, tail.take len.toNat⟩) ha]
          simp only [List.length_cons] at h
          obtain ⟨as, rem, e1, e2, e3, e4⟩ := ih (cur + 2 + (tail.take len.toNat).length) (tail.drop len.toNat)
            (by rw [List.length_drop]; omega)
          refine ⟨⟨tag, tail.take len.toNat⟩ :: as, rem, ?_, ?_, ?_, ?_⟩
          · rw [tlvBytes_cons, List.append_assoc, ← e1]
          · intro a ha'
            rcases List.mem_cons.mp ha' with rfl | ha'
            · exact ha
            · exact e2 a ha'
          · simp only [TlvScan.push, withOffsets, e3]
          · have : cur + (tlvBytes (⟨tag, tail.take len.toNat⟩ :: as)).length =
                cur + 2 + (tail.take len.toNat).length + (tlvBytes as).length := by
              simp only [tlvBytes_cons, List.length_append, length_attrBytes]; omega
            rw [this]
            exact e4

/-- The fuel never decides: any two amounts that cover the input give the same pass. -/
theorem tlvScan_fuel {fuel fuel' cur : Nat} {bs : List Byte} (h : bs.length ≤ fuel) (h' : bs.length ≤ fuel') :
    tlvScan fuel cur bs = tlvScan fuel' cur bs := by
  obtain ⟨as, rem, rfl, hs, e1, e2⟩ := tlvScan_spec fuel cur bs h
  obtain ⟨f2, _, e3⟩ := tlvScan_append hs rem fuel' cur h'
  rw [e3, tlvScan_of_stops e2, List.append_nil]
  cases hsc : tlvScan fuel cur (tlvBytes as ++ rem)
  simp_all

/-- A whole pass over attributes followed by a rest that stops it. -/
theorem tlvScanAll_of {as : List Attr} (h : Supported as) {rem : List Byte} {e : Except TlvError Nat}
    (hs : StopsAt (tlvBytes as).length rem e) : tlvScanAll (tlvBytes as ++ rem) = ⟨withOffsets 0 as, e⟩ := by
  obtain ⟨f, _, e1⟩ := tlvScan_append h rem (tlvBytes as ++ rem).length 0 (Nat.le_refl _)
  rw [Nat.zero_add, tlvScan_of_stops hs, List.append_nil] at e1
  exact e1

/-- A whole pass over any input. -/
theorem tlvScanAll_spec (bs : List Byte) : ∃ as rem, bs = tlvBytes as ++ rem ∧ Supported as ∧
    (tlvScanAll bs).found = withOffsets 0 as ∧ StopsAt (tlvBytes as).length rem (tlvScanAll bs).ending := by
  have := tlvScan_spec bs.length 0 bs (Nat.le_refl _)
  simp only [Nat.zero_add] at this
  exact this

/-! ## Sizes -/

/-- Every attribute takes at least two bytes (spec/00_scope.md R8). -/
theorem two_mul_length_le (as : List Attr) : 2 * as.length ≤ (tlvBytes as).length := by
  induction as with
  | nil => simp
  | cons a as ih => simp; omega

/-- Attribute `k` ends inside the bytes of all of them. -/
theorem attr_end_le (as : List Attr) : ∀ k (h : k < as.length),
    (tlvBytes (as.take k)).length + 2 + as[k].value.length ≤ (tlvBytes as).length := by
  induction as with
  | nil => intro k h; simp at h
  | cons a as ih =>
    intro k h
    cases k with
    | zero => simp
    | succ k =>
      have := ih k (by simpa using h)
      simp
      omega

/-- The entries of a pass take as many bytes as its attributes. -/
theorem entriesSize_entryOf (base : Nat) {as : List Attr} (h : Supported as) :
    ∀ cur, entriesSize ((withOffsets cur as).map (entryOf base)) = (tlvBytes as).length := by
  induction as with
  | nil => intro _; rfl
  | cons a as ih =>
    intro cur
    have ha := h a (List.mem_cons_self ..)
    have hl : (BitVec.ofNat 8 a.value.length).toNat = a.value.length := by
      rw [BitVec.toNat_ofNat]; exact Nat.mod_eq_of_lt (by have : Config.maxAttrLen = 127 := rfl; omega)
    simp [withOffsets, entryOf, ih fun b hb => h b (List.mem_cons_of_mem _ hb)]
    omega

/-- `tlv_parse` on any input: its attributes when the rest is empty, else the error at the end of those it accepted. -/
theorem tlvParse_cases (bs : List Byte) : ∃ as rem, bs = tlvBytes as ++ rem ∧ Supported as ∧
    (tlvScanAll bs).found = withOffsets 0 as ∧
      ((rem = [] ∧ (tlvScanAll bs).ending = .ok (tlvBytes as).length ∧ tlvParse bs = .ok as) ∨
        ∃ e, (tlvScanAll bs).ending = .error e ∧ tlvParse bs = .error e ∧
          (e = .truncated (tlvBytes as).length ∨ e = .unsupportedLength (tlvBytes as).length)) := by
  obtain ⟨as, rem, h1, h2, h3, h4⟩ := tlvScanAll_spec bs
  refine ⟨as, rem, h1, h2, h3, ?_⟩
  unfold tlvParse
  generalize (tlvScanAll bs).ending = ending at h4
  cases h4 with
  | done => simp [h3]
  | noLength => exact .inr ⟨_, rfl, rfl, .inl rfl⟩
  | unsupported => exact .inr ⟨_, rfl, rfl, .inr rfl⟩
  | shortValue => exact .inr ⟨_, rfl, rfl, .inl rfl⟩

end Sys2Proof.Machine
end

