-- ==== Sys2Proof/Tests/Slice0.lean ====
section
/-! SUPPORT. Tests of single steps against the vectors of spec/95_test_vectors.md, the ill-formed terms WellFormed refuses,
and for every statement with hypotheses a witness that meets them. -/

namespace Sys2Proof.Tests

-- The tests are kernel evaluations: one after the other, not a thread for each.
set_option Elab.async false

open Sys2Proof.Machine

/-! ## States of the tests -/

/-- IBUF or OBUF with these bytes at an index. -/
def bytesAt (i : Nat) (bs : List Byte) : Memory := Memory.writeBytes [] i bs

/-- The state after reset with bytes in IBUF at an index and the window onto them. -/
def loadedAt (i : Nat) (bs : List Byte) : State :=
  { State.reset with ibuf := bytesAt i bs, soff := BitVec.ofNat 32 i, slen := BitVec.ofNat 32 bs.length }

/-- The state after reset with a window of the given place and length, no byte written. -/
def windowAt (off len : Word) : State := { State.reset with soff := off, slen := len }

/-- The state after reset with these bytes as the valid part of OBUF. -/
def output (bs : List Byte) : State := { State.reset with obuf := bytesAt 0 bs, olen := BitVec.ofNat 32 bs.length }

/-- The state after reset with one event pending. -/
def onBus (ev : BusEvent) : State := { State.reset with pending := [ev] }

/-- The state a command leaves. -/
def after (i : Instr) (s : State) : State :=
  match exec i s with
  | .next t => t
  | .fault _ => s
  | .refused _ => s

/-- The state a step leaves. -/
def stepped (s : State) : State :=
  match step s with
  | .next t => t
  | .fault _ => s
  | .refused _ => s

/-- The command answers a next state. -/
def completes (i : Instr) (s : State) : Bool :=
  match exec i s with
  | .next _ => true
  | .fault _ => false
  | .refused _ => false

theorem exec_after {i : Instr} {s : State} (h : completes i s = true) : exec i s = .next (after i s) := by
  unfold completes at h
  unfold after
  cases hx : exec i s <;> simp_all

/-- Vector E1: DISCOVER_REQ with an empty payload. -/
def frameE1 : List Byte := [0x00#8, 0x02#8, 0x00#8, 0x00#8, 0x07#8, 0x08#8, 0x19#8, 0xCA#8]

/-- Vector T2: NAME "ChannelMap". -/
def payloadT2 : List Byte :=
  [0x03#8, 0x0A#8, 0x43#8, 0x68#8, 0x61#8, 0x6E#8, 0x6E#8, 0x65#8, 0x6C#8, 0x4D#8, 0x61#8, 0x70#8]

/-- Vector E4: GETSET_REQ with T2. -/
def frameE4 : List Byte := [0x00#8, 0x04#8, 0x00#8, 0x0C#8] ++ payloadT2 ++ [0x28#8, 0x5F#8, 0xED#8, 0x99#8]

/-- Vector B1: device-type 1. -/
def payloadB1 : List Byte := [0x01#8, 0x04#8, 0x00#8, 0x00#8, 0x00#8, 0x01#8]

/-- Vector T3: a good attribute, then a length byte of 128. -/
def payloadT3 : List Byte := payloadB1 ++ [0x02#8, 0x80#8, 0x12#8, 0x34#8, 0x56#8, 0x78#8]

/-- Vector T5: a good attribute, then a value two bytes short. -/
def payloadT5 : List Byte := payloadB1 ++ [0x02#8, 0x04#8, 0x12#8, 0x34#8]

/-- A state that meets the invariant: T2 parsed in IBUF, its attribute in OBUF. -/
def busy : State := after .tlvBuild (after .tlvParse (loadedAt 0 payloadT2))

/-! ## WellFormed refuses ill-formed lines (R86) -/

theorem test_number_for_format_N_refused : (AsmCommand.mk .NOP (some 0)).wf = false := by decide
theorem test_no_number_for_format_A_refused : (AsmCommand.mk .CRC_BYTE none).wf = false := by decide
theorem test_number_above_format_A_refused : (AsmCommand.mk .TLV_PUT (some 256)).wf = false := by decide
theorem test_no_number_for_format_B_refused : (AsmCommand.mk .TLV_PUTA none).wf = false := by decide
theorem test_number_above_format_B_refused : (AsmCommand.mk .FRM_ENC (some 65536)).wf = false := by decide
theorem test_largest_numbers_accepted :
    (AsmCommand.mk .TLV_PUT (some 255)).wf = true ∧ (AsmCommand.mk .FRM_ENC (some 65535)).wf = true := by decide
theorem test_pseudo_frame_out_of_range : (AsmPseudo.frame 65536).expand = none := by decide
theorem test_pseudo_frame : (AsmPseudo.frame 3).expand = some [.movO2i, .frmEnc 3#16] := by decide
theorem test_assembler_line :
    assembleLine ("  TLV_PUT 0x10 ; count".toList) = some [.tlvPut 0x10#8] := by decide
theorem test_assembler_pseudo_line : assembleLine "CRC32C".toList = some [.crcInit, .crcBuf] := by decide
theorem test_assembler_comment_line : assembleLine "; nothing".toList = some [] := by decide
theorem test_assembler_out_of_range : assembleLine "CRC_BYTE 256".toList = none := by decide

/-! ## Decoding: vectors W1 to W20, every constructor, and the words around a row -/

theorem test_decode_nop : decode 0x00000000#32 = .ok .nop := by decide
theorem test_decode_crcInit : decode 0x01000000#32 = .ok .crcInit := by decide
theorem test_decode_crcByte : decode 0x02310000#32 = .ok (.crcByte 0x31#8) := by decide
theorem test_decode_crcBuf : decode 0x03000000#32 = .ok .crcBuf := by decide
theorem test_decode_frmEnc : decode 0x10000003#32 = .ok (.frmEnc 0x0003#16) := by decide
theorem test_decode_frmDec : decode 0x11000000#32 = .ok .frmDec := by decide
theorem test_decode_tlvParse : decode 0x20000000#32 = .ok .tlvParse := by decide
theorem test_decode_obufClr : decode 0x30000000#32 = .ok .obufClr := by decide
theorem test_decode_tlvPut : decode 0x31100000#32 = .ok (.tlvPut 0x10#8) := by decide
theorem test_decode_tlvPuta : decode 0x32000001#32 = .ok (.tlvPuta 1#16) := by decide
theorem test_decode_tlvBuild : decode 0x33000000#32 = .ok .tlvBuild := by decide
theorem test_decode_movO2i : decode 0x40000000#32 = .ok .movO2i := by decide
theorem test_decode_srst : decode 0x7F000000#32 = .ok .srst := by decide
theorem test_decode_illegal :
    decode 0x02000100#32 = .error .nonzeroMustBeZero ∧ decode 0x7F000001#32 = .error .nonzeroMustBeZero ∧
      decode 0x10010002#32 = .error .nonzeroMustBeZero ∧ decode 0xFF000000#32 = .error .unassignedOp ∧
      decode 0x04000000#32 = .error .unassignedOp := by decide
theorem test_decodeTableWord :
    decodeTableWord 32 0x31100000 = some (.tlvPut 0x10#8) ∧ decodeTableWord 32 0x04000000 = none := by decide

/-! ## One command on one state -/

/-- M3. -/
theorem test_nop :
    (after .nop { State.reset with status := ⟨true, true, 2#8⟩, einfo := 7#32 }).status.word = 0x00000002#32 := by decide

theorem test_crcInit : (after .crcInit { State.reset with crc := 5#32 }).crc = 0xFFFFFFFF#32 := by decide

/-- C2. -/
theorem test_crcByte : (after (.crcByte 0x31#8) State.reset).crc = 0x6F0A661C#32 := by decide +kernel

/-- C5: "56789" after "1234". -/
theorem test_crcBuf :
    (after .crcBuf { loadedAt 4 [0x35#8, 0x36#8, 0x37#8, 0x38#8, 0x39#8] with crc := 0x09C50B11#32 }).crc =
      0x1CF96D7C#32 := by decide +kernel

/-- C3 and C4: an empty window at the very end of IBUF, and one byte past it. -/
theorem test_crcBuf_window_at_the_end :
    (after .crcBuf (windowAt 1460#32 0#32)).status.word = 0#32 ∧
      (after .crcBuf (windowAt 1461#32 0#32)).status.word = 0x00000603#32 ∧
      (after .crcBuf (windowAt 1461#32 0#32)).einfo = 0x000005B5#32 := by decide +kernel

/-- E4. -/
theorem test_frmEnc :
    validOutput (after (.frmEnc 0x0004#16) (loadedAt 0 payloadT2)) = frameE4 ∧
      readReg (after (.frmEnc 0x0004#16) (loadedAt 0 payloadT2)) .crcval = 0x285FED99#32 := by decide +kernel

/-- E7 and E8. -/
theorem test_frmEnc_errors :
    (after (.frmEnc 2#16) (windowAt 0#32 1453#32)).status.word = 0x00000503#32 ∧
      (after (.frmEnc 2#16) (windowAt 0#32 1453#32)).einfo = 0x000005B5#32 ∧
      (after (.frmEnc 2#16) (windowAt 0xFFFFFFFF#32 1#32)).status.word = 0x00000603#32 := by decide +kernel

/-- D10, at D12's place. -/
theorem test_frmDec :
    (after .frmDec (loadedAt 100 frameE4)).ftype = 0x0004#16 ∧
      validOutput (after .frmDec (loadedAt 100 frameE4)) = payloadT2 ∧
      (after .frmDec (loadedAt 100 frameE4)).status.word = 0#32 := by decide +kernel

/-- D6 and D11: a flipped type bit (code 2 in STATUS); wrong length and wrong checksum together. -/
theorem test_frmDec_errors :
    (after .frmDec (loadedAt 0 [0x00#8, 0x03#8, 0x00#8, 0x00#8, 0x07#8, 0x08#8, 0x19#8, 0xCA#8])).status.word =
        0x00000203#32 ∧
    (after .frmDec (loadedAt 0 [0x00#8, 0x03#8, 0x00#8, 0x00#8, 0x07#8, 0x08#8, 0x19#8, 0xCA#8])).einfo =
        0xA2498BB4#32 ∧
      (after .frmDec (loadedAt 0 [0x00#8, 0x02#8, 0x00#8, 0x05#8, 0#8, 0#8, 0#8, 0#8])).status.word = 0x00000103#32 := by
  decide +kernel

/-- T11. -/
theorem test_tlvParse :
    validEntries (after .tlvParse (loadedAt 200 payloadT2)) = [⟨0x03#8, 10#8, 202#32⟩] ∧
      (after .tlvParse (loadedAt 200 payloadT2)).cur = 12#32 := by decide +kernel

/-- T3 and T5. -/
theorem test_tlvParse_errors :
    (after .tlvParse (loadedAt 0 payloadT3)).status.word = 0x00000303#32 ∧
      (after .tlvParse (loadedAt 0 payloadT3)).cur = 6#32 ∧
      (after .tlvParse (loadedAt 0 payloadT5)).status.word = 0x00000403#32 ∧
      (after .tlvParse (loadedAt 0 payloadT5)).acnt = 0#32 := by decide +kernel

/-- B12, for OBUF_CLR's effect. -/
theorem test_obufClr : (after .obufClr (output payloadB1)).olen = 0#32 := by decide

/-- B2: an empty value after B1. -/
theorem test_tlvPut :
    validOutput (after (.tlvPut 0x05#8) (output payloadB1)) = payloadB1 ++ [0x05#8, 0x00#8] := by decide +kernel

/-- B5 and B6. -/
theorem test_tlvPut_errors :
    (after (.tlvPut 1#8) { windowAt 0#32 127#32 with olen := 1460#32 }).einfo = 0x00000635#32 ∧
      (after (.tlvPut 1#8) { windowAt 0#32 1452#32 with olen := 1460#32 }).status.word = 0x00000303#32 := by
  decide +kernel

/-- B11, through TLV_PUTA: the bytes IBUF holds now. -/
theorem test_tlvPuta :
    let s := after .tlvParse (loadedAt 0 payloadT2)
    (validOutput (after (.tlvPuta 0#16) { s with ibuf := s.ibuf.write 2 0x58#8 })).take 4 =
      [0x03#8, 0x0A#8, 0x58#8, 0x68#8] := by decide +kernel

/-- B7 and B9. -/
theorem test_tlvPuta_errors :
    (after (.tlvPuta 0#16) State.reset).status.word = 0x00000603#32 ∧
      (after (.tlvPuta 1#16) (after .tlvParse (loadedAt 0 payloadT2))).einfo = 1#32 := by decide +kernel

/-- B10. -/
theorem test_tlvBuild :
    validOutput (after .tlvBuild (after .tlvParse (loadedAt 0 [5#8, 0#8, 5#8, 0#8]))) = [5#8, 0#8, 5#8, 0#8] := by
  decide +kernel

/-- M1. -/
theorem test_movO2i :
    ibufBytes (after .movO2i (output payloadB1)) 0 6 = payloadB1 ∧ (after .movO2i (output payloadB1)).slen = 6#32 ∧
      (after .movO2i (output payloadB1)).olen = 6#32 := by decide

/-- M7. -/
theorem test_srst :
    (after .srst { output payloadB1 with status := ⟨true, true, 2#8⟩, soff := 9#32, crc := 1#32 }).status.word = 0#32 ∧
      (after .srst { output payloadB1 with status := ⟨true, true, 2#8⟩, soff := 9#32, crc := 1#32 }).crc =
        0xFFFFFFFF#32 := by decide

/-! ## One access on the bus -/

/-- The word of MOV_O2I written to CMD, after withFetchWord. -/
theorem test_withFetchWord : (stepped ((output payloadB1).withFetchWord 32 0x40000000)).slen = 6#32 := by decide

/-- C1. -/
theorem test_read_cap : (stepped (onBus (.read 0x0002C#19 .w32))).responses = [.readWord 0x000005B4#32] := by decide

/-- M6. -/
theorem test_write_status :
    (stepped { onBus (.write32 0x00004#19 0x00000002#32) with status := ⟨true, true, 2#8⟩ }).status.word =
      0x00000201#32 := by decide

/-- M9, M10, M11. -/
theorem test_bus_errors :
    (stepped (onBus (.write8 0x00000#19 0#8))).responses = [.writeError] ∧
      (stepped (onBus (.write32 0x10000#19 0#32))).responses = [.writeError] ∧
      (stepped (onBus (.write8 0x105B4#19 0#8))).responses = [.writeError] := by decide

/-- R52: with BUF_SIZE = 65536 the ATAB aperture ends at 0x7FFFF exactly, and IBUF at 0x1FFFF. -/
theorem test_full_size_block :
    placeAt ⟨65536, by decide⟩ 0x7FFFC#19 = .atab 32767 true ∧ placeAt ⟨65536, by decide⟩ 0x1FFFF#19 = .ibuf 65535 ∧
      placeAt ⟨65536, by decide⟩ 0x30000#19 = .unmapped := by decide

/-- M13. -/
theorem test_read_atab :
    (stepped { after .tlvParse (loadedAt 0 payloadT2) with pending := [.read 0x40000#19 .w32] }).responses =
      [.readWord 0x00000A03#32] := by decide +kernel

/-- W17 written to CMD. -/
theorem test_illegal_word :
    (stepped (onBus (.write32 0#19 0x7F000001#32))).status.word = 0x00000703#32 ∧
      (stepped (onBus (.write32 0#19 0x7F000001#32))).einfo = 0x7F000001#32 := by decide

/-! ## The host's programs and software -/

/-- Program P3 variant b, as the ProtocolHandler. -/
theorem test_getset_echo :
    (protocolHandler defaultUrlTag ⟨0x12345678#32, 2#8, []⟩ frameE4).map (List.drop 16) =
      some [0x4F#8, 0xD1#8, 0x10#8, 0x98#8] := by decide +kernel

/-- Bytes written as numbers. -/
def bytes (ns : List Nat) : List Byte := ns.map (BitVec.ofNat 8)

/-- The identity of program P2. -/
def deviceP2 : DeviceIdentity :=
  ⟨0x12345678#32, 2#8, bytes [0x68, 0x74, 0x74, 0x70, 0x3A, 0x2F, 0x2F, 0x31, 0x39, 0x32, 0x2E, 0x31, 0x36, 0x38, 0x2E, 0x31,
    0x2E, 0x31, 0x30, 0x3A, 0x35, 0x30, 0x30, 0x34]⟩

/-- The request of program P3: NAME "ChannelMap", VALUE "us-bcast". -/
def frameP3 : List Byte :=
  bytes [0, 4, 0, 22] ++ payloadT2 ++ bytes [4, 8, 0x75, 0x73, 0x2D, 0x62, 0x63, 0x61, 0x73, 0x74, 0x8B, 0x7A, 0x36, 0x45]

/-- Program P3 from the state after reset, the host's decisions included (R179); and no reply to a corrupt frame (R171, P4). -/
theorem test_getset_with_the_block :
    handlerWithBlock defaultUrlTag deviceP2 frameP3 State.reset =
        some (bytes [0, 5] ++ (frameP3.drop 2).take 24 ++ bytes [0xA5, 0x4E, 0xFD, 0xD8]) ∧
      handlerWithBlock defaultUrlTag deviceP2 (flipBit frameE4 6 0) State.reset = none := by decide +kernel

/-- Program P2 from the state after reset: 49 bytes and the trailer (R178). -/
theorem test_discovery_with_the_block :
    (handlerWithBlock defaultUrlTag deviceP2 frameE1 State.reset).map (fun f => (f.length, f.drop 45)) =
      some (49, bytes [0xCB, 0xA7, 0x4E, 0x54]) := by decide +kernel

/-- R171: Range from a mis-set window is no reply. R179: type 0x0005 is not this path; the first entry with tag 0x03. -/
theorem test_host_decisions :
    afterFrmDec 0x00000603#32 = none ∧ afterTlvParse 0x00000403#32 = none ∧ afterFrmDec 0x00000002#32 = some [.rd .ftype] ∧
      requestPath 0x00000005#32 = none ∧ afterTable [0x00000104#32, 2#32] = none ∧
      afterTable [0x00000104#32, 2#32, 0x00000A03#32, 5#32, 0x00000103#32, 17#32] =
        some (getsetReplyProgram 1#16 (some 0#16)) := by decide

/-- U8: a malformed request, then a good one; an exception in a connection, then a good one. -/
theorem test_open_question_is_a_parameter :
    controlListener ⟨.connection, .listener⟩ [] some [.received 1 [5#8], .received 2 frameE1] =
        ([(1, [5#8]), (2, frameE1)], .waiting) ∧
      controlListener ⟨.listener, .listener⟩ [] some [.received 1 [5#8], .received 2 frameE1] = ([], .stopped) ∧
      controlListener ⟨.connection, .connection⟩ [] some [.connectionFault 1, .received 2 frameE1] =
        ([(2, frameE1)], .waiting) ∧
      controlListener ⟨.connection, .listener⟩ [] some [.connectionFault 1, .received 2 frameE1] = ([], .stopped) := by
  decide +kernel

/-! ## Witnesses: for every statement with hypotheses, values that meet them -/

theorem witness_DecodeAndEncodeAgree : decode 0x32000001#32 = .ok (.tlvPuta 1#16) := by decide

theorem witness_OpcodeRowsSelectTheLegalWords :
    decode 0x31100000#32 = .ok (.tlvPut 0x10#8) ∧ ⟨.TLV_PUT, 0x31000000#32, 0xFF00FFFF#32⟩ ∈ opcodeRows ∧
      (OpcodeRow.mk .TLV_PUT 0x31000000#32 0xFF00FFFF#32).selects 0x31100000#32 = true := by decide

theorem witness_LegalWordsAreCounted :
    mnemonicOfOp (fieldOp 0x02000100#32) = some .CRC_BYTE ∧ decode 0x02000100#32 = .error .nonzeroMustBeZero ∧
      mnemonicOfOp (fieldOp 0x02FF0000#32) = some .CRC_BYTE ∧ decode 0x02FF0000#32 = .ok (.crcByte 0xFF#8) := by decide

theorem witness_AssemblyIsExact :
    Mnemonic.TLV_PUT.format = .A ∧ 256 ≤ 256 ∧ Mnemonic.FRM_ENC.format = .B ∧ 65536 ≤ 65536 ∧ Mnemonic.NOP.format = .N ∧
      Mnemonic.TLV_PUT.format ≠ .N := by decide

theorem witness_StepRunsTheDecodedCommand :
    (onBus (.write32 0#19 0x03000000#32)).pending = .write32 0x00000#19 0x03000000#32 :: [] ∧
      decode 0x03000000#32 = .ok .crcBuf ∧ State.reset.pending = [] := by decide

theorem witness_IllegalWordRaisesIllegalCommand :
    (onBus (.write32 0#19 0xFF000000#32)).pending = .write32 0x00000#19 0xFF000000#32 :: [] ∧
      decode 0xFF000000#32 = .error .unassignedOp ∧ decode 0x02000100#32 = .error .nonzeroMustBeZero := by decide

theorem witness_RegisterReadsReturnTheRegister :
    (onBus (.read (regAddr .cap) .w32)).pending = .read (regAddr .cap) .w32 :: [] ∧
      (onBus (.read (regAddr .cmd) .w32)).pending = .read (regAddr .cmd) .w32 :: [] := by decide

theorem witness_RegisterWritesStoreOrAreIgnored :
    (onBus (.write32 (regAddr .status) 2#32)).pending = .write32 (regAddr .status) 2#32 :: [] ∧ Reg.status ≠ .cmd ∧
      (onBus (.write32 (regAddr .cap) 2#32)).pending = .write32 (regAddr .cap) 2#32 :: [] ∧ Reg.cap ≠ .cmd := by decide

theorem witness_IbufByteAccess :
    1459 < State.reset.bufSize.val ∧
      (onBus (.write8 (ibufAddr 1459) 7#8)).pending = .write8 (ibufAddr 1459) 7#8 :: [] ∧
      (onBus (.read (ibufAddr 1459) .w8)).pending = .read (ibufAddr 1459) .w8 :: [] ∧
      State.reset.ibuf.read? 0 = none ∧ (loadedAt 1 payloadB1).ibuf.read? 0 = none ∧
      State.reset.resets = (loadedAt 1 payloadB1).resets := by decide

/-- OLEN is 6: index 5 below it, 6 and 1459 not. -/
theorem witness_ObufByteAccess :
    5 < (output payloadB1).olen.toNat ∧ 5 < (output payloadB1).bufSize.val ∧ (output payloadB1).olen.toNat ≤ 6 ∧
      6 < (output payloadB1).bufSize.val ∧ 1459 < (output payloadB1).bufSize.val ∧
      ({ output payloadB1 with pending := [.read (obufAddr 5) .w8] } : State).pending = .read (obufAddr 5) .w8 :: [] ∧
      ({ output payloadB1 with pending := [.write8 (obufAddr 1459) 1#8] } : State).pending =
        .write8 (obufAddr 1459) 1#8 :: [] := by decide

/-- ACNT is 1: entry 0 below it, 1 and 729 not. -/
theorem witness_AtabWordAccess :
    0 < busy.acnt.toNat ∧ busy.acnt.toNat ≤ 1 ∧ busy.acnt.toNat ≤ 729 ∧ 729 < Config.atabSize busy.bufSize ∧
      ({ busy with pending := [.read (atabAddr 0 true) .w32] } : State).pending = .read (atabAddr 0 true) .w32 :: [] ∧
      ({ busy with pending := [.write32 (atabAddr 729 false) 0#32] } : State).pending =
        .write32 (atabAddr 729 false) 0#32 :: [] := by decide +kernel

/-- The last accepted and the first refused address of each range. -/
theorem witness_BusErrorsChangeNothing :
    accepted State.reset.bufSize (.read 0x0002C#19 .w32) = true ∧
      accepted State.reset.bufSize (.read 0x00030#19 .w32) = false ∧
      accepted State.reset.bufSize (.read 0x105B3#19 .w8) = true ∧
      accepted State.reset.bufSize (.read 0x105B4#19 .w8) = false ∧
      accepted State.reset.bufSize (.write8 0x205B3#19 0#8) = true ∧
      accepted State.reset.bufSize (.write8 0x205B4#19 0#8) = false ∧
      accepted State.reset.bufSize (.write32 0x416CC#19 0#32) = true ∧
      accepted State.reset.bufSize (.write32 0x416D0#19 0#32) = false ∧
      accepted State.reset.bufSize (.read 0x00002#19 .w32) = false ∧
      accepted State.reset.bufSize (.write16 0x10000#19 0#16) = false ∧
      (onBus (.read 0x00030#19 .w32)).pending = .read 0x00030#19 .w32 :: [] ∧
      BusEvent.read 0x0002C#19 .w32 ≠ .hardwareReset := by decide

/-- IBUF[0] changes by a host write and by MOV_O2I. For hardware reset the byte after it is a free value, so that it differs
cannot be shown; what is shown is that the step happens. -/
theorem witness_IbufBytesKeepTheirValue :
    ibufByte (stepped { loadedAt 0 [5#8] with pending := [.write8 (ibufAddr 0) 6#8] }) 0 ≠ ibufByte (loadedAt 0 [5#8]) 0 ∧
      ibufByte (stepped { output [6#8] with ibuf := bytesAt 0 [5#8], pending := [.write32 0#19 0x40000000#32] }) 0 ≠
        ibufByte (loadedAt 0 [5#8]) 0 ∧
      (stepped { loadedAt 0 [5#8] with pending := [.hardwareReset] }).resets = 1 := by decide +kernel

/-- A part that changes in each of the five ways: SOFF by hardware reset, OLEN by OBUF_CLR, ERR by an illegal word, SLEN by a
host write, IBUF by a host write. -/
theorem witness_EveryPartHasOnlyItsWriters :
    (stepped { windowAt 5#32 0#32 with pending := [.hardwareReset] }).soff ≠ 5#32 ∧
      (stepped { output [6#8] with pending := [.write32 0#19 0x30000000#32] }).olen ≠ (output [6#8]).olen ∧
      (stepped (onBus (.write32 0#19 0xFF000000#32))).status.err ≠ State.reset.status.err ∧
      (stepped (onBus (.write32 (regAddr .slen) 7#32))).slen ≠ State.reset.slen ∧
      ibufByte (stepped { loadedAt 0 [5#8] with pending := [.write8 (ibufAddr 0) 6#8] }) 0 ≠
        ibufByte (loadedAt 0 [5#8]) 0 := by decide +kernel

theorem witness_BothResetsGiveTheValuesOfTheTable :
    ({ busy with pending := [.hardwareReset] } : State).pending = .hardwareReset :: [] := by decide

/-- A state with a valid output and a valid table meets the invariant. -/
theorem busy_inv : busy.Inv where
  ibuf_fits := by constructor <;> decide +kernel
  obuf_fits := by constructor <;> decide +kernel
  olen_le := by decide +kernel
  output_written := by decide +kernel
  acnt_le := by decide +kernel
  atab_le := by decide +kernel
  table_written := by decide +kernel
  entries_sound := by
    have h : ∀ e ∈ validEntries busy, e.len.toNat ≤ Config.maxAttrLen ∧ e.voff.toNat + e.len.toNat ≤ busy.bufSize.val := by
      decide +kernel
    exact h
  entries_size := by decide +kernel
  cur_le := by decide +kernel
  err_iff := by decide +kernel
  ecode_le := by decide +kernel

theorem witness_EveryStepKeepsTheInvariant : busy.Inv ∧ step busy = .next busy := ⟨busy_inv, rfl⟩

/-- The first case: it was so before. The second: the host has just cleared STICKY. -/
theorem witness_ErrImpliesStickyUnlessTheHostClearedIt :
    (stepped { State.reset with status := ⟨true, false, 6#8⟩ }).status = ⟨true, false, 6#8⟩ ∧
      (stepped { onBus (.write32 (regAddr .status) 2#32) with status := ⟨true, true, 6#8⟩ }).status =
        ⟨true, false, 6#8⟩ := by decide

/-- STICKY cleared in each of the three ways, and set by a command. -/
theorem witness_FlagsChangeAsSaidAndAreNeverRead :
    (stepped { onBus .hardwareReset with status := ⟨false, true, 0#8⟩ }).status.sticky = false ∧
      (stepped { onBus (.write32 0#19 0x7F000000#32) with status := ⟨false, true, 0#8⟩ }).status.sticky = false ∧
      (stepped { onBus (.write32 (regAddr .status) 2#32) with status := ⟨false, true, 0#8⟩ }).status.sticky = false ∧
      (onBus (.write32 0#19 0x32000000#32)).status.sticky = false ∧
      (stepped (onBus (.write32 0#19 0x32000000#32))).status.sticky = true := by decide +kernel

/-- One command and state for success and for each of the codes 1 to 6: D3, D6, T3, T5, E7, B7. -/
def endings : List (Instr × State × Byte) :=
  [(.nop, State.reset, 0#8), (.frmDec, State.reset, 1#8), (.frmDec, loadedAt 0 (flipBit frameE1 1 0), 2#8),
   (.tlvParse, loadedAt 0 payloadT3, 3#8), (.tlvParse, loadedAt 0 payloadT5, 4#8),
   (.frmEnc 2#16, windowAt 0#32 1453#32, 5#8), (.tlvPuta 0#16, State.reset, 6#8)]

theorem witness_EndOfEveryCommand :
    ∀ e ∈ endings, exec e.1 e.2.1 = .next (after e.1 e.2.1) ∧ (after e.1 e.2.1).status.ecode = e.2.2 ∧
      (after e.1 e.2.1).status.err = decide (e.2.2 ≠ 0#8) := by
  have h : ∀ e ∈ endings, completes e.1 e.2.1 = true ∧ (after e.1 e.2.1).status.ecode = e.2.2 ∧
      (after e.1 e.2.1).status.err = decide (e.2.2 ≠ 0#8) := by decide +kernel
  exact fun e he => ⟨exec_after (h e he).1, (h e he).2⟩

theorem witness_CommandsWriteOnlyTheirParts :
    exec .movO2i busy = .next (after .movO2i busy) ∧
      exec .frmDec (loadedAt 0 payloadT2) = .next (after .frmDec (loadedAt 0 payloadT2)) :=
  ⟨exec_after (by decide +kernel), exec_after (by decide +kernel)⟩

/-- Two states with the same window and different CRC, OLEN and OBUF. -/
theorem witness_FrameCommandsAreStateless :
    let s := loadedAt 0 frameE4
    let s' := { s with crc := 0#32, olen := 3#32, obuf := bytesAt 0 payloadB1 }
    s ≠ s' ∧ s.bufSize = s'.bufSize ∧ s.soff = s'.soff ∧ s.slen = s'.slen ∧ window s = window s' ∧
      (after .frmDec s).status.err = false ∧
      exec .frmDec s = .next (after .frmDec s) ∧ exec .frmDec s' = .next (after .frmDec s') :=
  ⟨by decide +kernel, by decide +kernel, by decide +kernel, by decide +kernel, by decide +kernel, by decide +kernel,
    exec_after (by decide +kernel), exec_after (by decide +kernel)⟩

/-- `busy` with other values where the TLV commands do not look. -/
def busy' : State := { busy with crc := 0#32, ftype := 9#16 }

/-- One window and one valid table in two states that differ elsewhere. -/
theorem witness_TlvCommandsAreStateless :
    busy ≠ busy' ∧ busy.bufSize = busy'.bufSize ∧ busy.soff = busy'.soff ∧ busy.slen = busy'.slen ∧
      window busy = window busy' ∧ busy.olen = busy'.olen ∧ validEntries busy = validEntries busy' ∧
      ∀ e ∈ validEntries busy, entryValue busy e = entryValue busy' e := by decide +kernel

theorem witness_TlvCommandsAreStateless_next :
    (∀ i ∈ [Instr.tlvParse, .tlvPut 1#8, .tlvPuta 0#16, .tlvBuild],
      exec i busy = .next (after i busy) ∧ exec i busy' = .next (after i busy')) ∧ busy.Inv ∧ busy'.Inv := by
  have h : ∀ i ∈ [Instr.tlvParse, .tlvPut 1#8, .tlvPuta 0#16, .tlvBuild],
      completes i busy = true ∧ completes i busy' = true := by decide +kernel
  exact ⟨fun i hi => ⟨exec_after (h i hi).1, exec_after (h i hi).2⟩, busy_inv, busy_inv.1, busy_inv.2, busy_inv.3,
    busy_inv.4, busy_inv.5, busy_inv.6, busy_inv.7, busy_inv.8, busy_inv.9, busy_inv.10, busy_inv.11, busy_inv.12⟩

theorem witness_NopResult : ({ State.reset with status := ⟨true, true, 2#8⟩ } : State).status.sticky = true := by decide

/-- OLEN is 6: byte 5 is copied, byte 6 is not. -/
theorem witness_MovO2iResult : 5 < (output payloadB1).olen.toNat ∧ (output payloadB1).olen.toNat ≤ 6 := by decide

theorem witness_CrcBufResult :
    (windowAt 1461#32 0#32).bufSize.val < (windowAt 1461#32 0#32).soff.toNat + (windowAt 1461#32 0#32).slen.toNat ∧
      (windowAt 1451#32 9#32).soff.toNat + (windowAt 1451#32 9#32).slen.toNat ≤ (windowAt 1451#32 9#32).bufSize.val := by
  decide

/-- Program P1, steps 6 to 11: "1234" by CRC_BYTE and "56789" by CRC_BUF; the whole is the window of step 2. -/
theorem witness_ChecksumsAreIncremental_mixed :
    let s := loadedAt 0 (bytes [0x31, 0x32, 0x33, 0x34, 0x35, 0x36, 0x37, 0x38, 0x39])
    let ps := (bytes [0x31, 0x32, 0x33, 0x34]).map CrcPiece.byte ++ [.buf 4#32 5#32]
    (∀ p ∈ ps, p.InRange s) ∧ ps.flatMap (CrcPiece.bytes s) = window s ∧
      s.soff.toNat + s.slen.toNat ≤ s.bufSize.val := by
  refine ⟨?_, by decide +kernel, by decide +kernel⟩
  simp [CrcPiece.InRange, bytes, loadedAt, State.reset, Config.defaultBufSize]

theorem witness_ChecksumsAreIncremental :
    (windowAt 1451#32 9#32).soff.toNat + (windowAt 1451#32 9#32).slen.toNat ≤ (windowAt 1451#32 9#32).bufSize.val ∧
      9 ≤ (windowAt 1451#32 9#32).slen.toNat ∧ 0 ≤ (windowAt 1451#32 9#32).slen.toNat := by decide

theorem witness_ChecksumsAreLinear : payloadT3.length = payloadT2.length := by decide

theorem witness_OneFlippedBitChangesTheChecksum : 11 < payloadT2.length ∧ 7 < 8 := by decide

/-- Range; Overflow at SLEN = 1453; success at SLEN = 1452. -/
theorem witness_FrmEncResult :
    1460 < (windowAt 1460#32 1#32).soff.toNat + (windowAt 1460#32 1#32).slen.toNat ∧
      (windowAt 7#32 1453#32).soff.toNat + (windowAt 7#32 1453#32).slen.toNat ≤ 1460 ∧
      1460 < (windowAt 7#32 1453#32).slen.toNat + 8 ∧
      (windowAt 8#32 1452#32).soff.toNat + (windowAt 8#32 1452#32).slen.toNat ≤ 1460 ∧
      (windowAt 8#32 1452#32).slen.toNat + 8 ≤ 1460 ∧ (windowAt 8#32 1452#32).bufSize.val = 1460 := by decide

/-- D13; D2 and D4; D6; D1. -/
theorem witness_FrmDecResult :
    1460 < (windowAt 1460#32 1#32).soff.toNat + (windowAt 1460#32 1#32).slen.toNat ∧
      (frameE1.take 7).length < 8 ∧ fromBe (((window (loadedAt 0 (frameE1 ++ [0#8]))).drop 2).take 2) ≠ 9 - 8 ∧
      (let w := window (loadedAt 0 ([0#8, 3#8] ++ frameE1.drop 2))
       fromBe ((w.drop 2).take 2) = 8 - 8 ∧ crc32c (w.take 4) ≠ frombe32 (w.drop 4)) ∧
      (let w := window (loadedAt 0 frameE1)
       fromBe ((w.drop 2).take 2) = 8 - 8 ∧ crc32c (w.take 4) = frombe32 (w.drop 4)) := by decide +kernel

theorem witness_FrameRoundTrip :
    payloadT2.length ≤ 65535 ∧
      exec (.frmEnc 4#16) (loadedAt 0 payloadT2) = .next (after (.frmEnc 4#16) (loadedAt 0 payloadT2)) ∧
      (after (.frmEnc 4#16) (loadedAt 0 payloadT2)).status.err = false :=
  ⟨by decide, exec_after (by decide +kernel), by decide +kernel⟩

theorem witness_FramesAreUnique : frameDecode frameE4 = .ok (0x0004#16, payloadT2) := by decide +kernel

/-- A bit of the length field, and the last bit of the trailer. -/
theorem witness_OneFlippedBitOfAFrameIsFound :
    frameEncode 4#16 payloadT2 = some frameE4 ∧ 3 < frameE4.length ∧ 19 < frameE4.length ∧ 7 < 8 := by decide +kernel

/-- T13; T3; T5; T2. -/
theorem witness_TlvParseResult :
    1460 < (windowAt 0xFFFFFFFF#32 1#32).soff.toNat + (windowAt 0xFFFFFFFF#32 1#32).slen.toNat ∧
      tlvParse (window (loadedAt 0 payloadT3)) = .error (.unsupportedLength 6) ∧
      tlvParse (window (loadedAt 0 payloadT5)) = .error (.truncated 6) ∧
      tlvParse (window (loadedAt 1448 payloadT2)) = .ok [⟨0x03#8, payloadT2.drop 2⟩] := by decide +kernel

/-- Range; 128; OLEN one too high for 127; the highest OLEN for 127. -/
theorem witness_TlvPutResult :
    1460 < (windowAt 1461#32 0#32).soff.toNat + (windowAt 1461#32 0#32).slen.toNat ∧
      127 < (windowAt 0#32 128#32).slen.toNat ∧ (windowAt 0#32 127#32).slen.toNat ≤ 127 ∧
      1460 < (1332#32).toNat + 2 + (windowAt 0#32 127#32).slen.toNat ∧
      (1331#32).toNat + 2 + (windowAt 0#32 127#32).slen.toNat ≤ 1460 := by decide

/-- ACNT is 1 and the entry's length 10: indices 1 and 0, and OLEN 1449 and 1448. -/
theorem witness_TlvPutaResult :
    busy.acnt.toNat ≤ (1#16).toNat ∧ (0#16).toNat < busy.acnt.toNat ∧ busy.bufSize.val = 1460 ∧
      1460 < (1449#32).toNat + 2 + (atabEntry busy (0#16).toNat).len.toNat ∧
      (1448#32).toNat + 2 + (atabEntry busy (0#16).toNat).len.toNat ≤ 1460 := by decide +kernel

theorem witness_TlvBuildResult : busy.Inv ∧ validEntries busy = [⟨0x03#8, 10#8, 2#32⟩] := ⟨busy_inv, by decide +kernel⟩

/-- A value of 127 bytes, the longest; and an output that was built. -/
theorem witness_BuildThenParse :
    (∀ a ∈ [Attr.mk 0x07#8 (List.replicate 127 0#8)], a.value.length ≤ 127) ∧
      tlvBuild [⟨0x03#8, payloadT2.drop 2⟩] = some payloadT2 ∧ validOutput busy = payloadT2 ∧
      busy.olen.toNat ≤ busy.bufSize.val := by decide +kernel

theorem witness_ParseThenBuild :
    tlvParse payloadT2 = .ok [⟨0x03#8, payloadT2.drop 2⟩] ∧
      exec .tlvParse (loadedAt 0 payloadT2) = .next (after .tlvParse (loadedAt 0 payloadT2)) ∧
      (after .tlvParse (loadedAt 0 payloadT2)).status.err = false :=
  ⟨by decide +kernel, exec_after (by decide +kernel), by decide +kernel⟩

/-- T3; T4 and T5: a length byte of 128, a tag alone, a value two bytes short. -/
theorem witness_ParsingStopsAtTheFirstBadAttribute :
    tlvParse payloadT3 = .error (.unsupportedLength 6) ∧
      tlvParse (payloadB1 ++ [0x02#8]) = .error (.truncated 6) ∧ tlvParse payloadT5 = .error (.truncated 6) := by
  decide +kernel

/-- D3: an empty window. -/
theorem witness_FailedDecodeIsHiddenByTheChain :
    exec .frmDec State.reset = .next (after .frmDec State.reset) ∧ (after .frmDec State.reset).status.err = true :=
  ⟨exec_after (by decide +kernel), by decide +kernel⟩

theorem witness_BuildReplyChain : ({ State.reset with olen := 1452#32 } : State).olen.toNat + 8 ≤ 1460 := by decide

theorem witness_DiscoveryReply : ([] : List Byte).length ≤ 65535 ∧ (List.replicate 127 0x61#8).length ≤ 127 := by
  decide +kernel

/-- S6, S7, T3, an unused type, a frame with a flipped bit. -/
theorem witness_GetsetReply :
    (∀ a ∈ [Attr.mk 0x03#8 (payloadT2.drop 2)], a.value.length ≤ 127) ∧
      (tlvBytes [Attr.mk 0x03#8 (payloadT2.drop 2)]).length ≤ 65535 ∧
      Attr.mk 0x03#8 (payloadT2.drop 2) ∈
        [Attr.mk 0x03#8 (payloadT2.drop 2)].find? (fun a => a.tag == 0x03#8) ∧
      (∀ a ∈ [Attr.mk 0x04#8 [1#8]], a.tag ≠ 0x03#8) ∧ tlvParse payloadT3 = .error (.unsupportedLength 6) ∧
      0x0003#16 ≠ 0x0002#16 ∧ 0x0003#16 ≠ 0x0004#16 ∧ frameDecode (flipBit frameE1 7 0) = .error .badChecksum := by
  decide +kernel

/-- A listener that ignores sender 1 answers sender 2. -/
theorem witness_IgnoredSendersGetNoReply :
    (discoveryListener [1] some [.received 1 frameE1, .received 2 frameE1]).1 = [(2, frameE1)] ∧
      (controlListener ⟨.listener, .listener⟩ [1] some [.received 1 frameE1, .received 2 frameE1]).1 = [(2, frameE1)] := by
  decide +kernel

end Sys2Proof.Tests
end

section
/-! PROOFS. Decoding and encoding are inverse, and encoding is the formula of its format (spec/30_encoding.md R71 to R77).
A command is its mnemonic and the value of the immediate its format has; both directions go through that form. -/

namespace Sys2Proof

/-! ## A command from its mnemonic and immediate -/

theorem instrOf_toAsm (i : Instr) : instrOf i.toAsm.mnemonic (i.toAsm.imm.getD 0) = i := by
  cases i <;> simp [Instr.toAsm, instrOf]

/-- A command is its mnemonic, with a value of the immediate of its format. -/
theorem exists_instrOf (i : Instr) :
    (∃ m : Mnemonic, m.format = .N ∧ i = instrOf m 0) ∨
    (∃ (m : Mnemonic) (a : Byte), m.format = .A ∧ i = instrOf m a.toNat) ∨
    (∃ (m : Mnemonic) (b : Half), m.format = .B ∧ i = instrOf m b.toNat) := by
  have hi := (instrOf_toAsm i).symm
  cases i with
  | crcByte a | tlvPut a => exact .inr (.inl ⟨_, a, rfl, hi⟩)
  | frmEnc b | tlvPuta b => exact .inr (.inr ⟨_, b, rfl, hi⟩)
  | nop | crcInit | crcBuf | frmDec | tlvParse | obufClr | tlvBuild | movO2i | srst => exact .inl ⟨_, rfl, hi⟩

theorem mnemonicOfOp_opOf_instrOf (m : Mnemonic) (n : Nat) : mnemonicOfOp (opOf (instrOf m n)) = some m := by
  cases m <;> rfl

/-! ## Encoding, by the format of the mnemonic -/

/-- In formats A and B too, a word whose immediate is 0 is the op alone. -/
theorem encode_instrOf_zero (m : Mnemonic) : encode (instrOf m 0) = wordN (opOf (instrOf m 0)) := by
  cases m <;> rfl

theorem encode_instrOf_formatA {m : Mnemonic} (h : m.format = .A) (a : Byte) :
    encode (instrOf m a.toNat) = wordA (opOf (instrOf m a.toNat)) a := by
  cases m with
  | CRC_BYTE | TLV_PUT => simp [instrOf, encode]
  | _ => cases h

theorem encode_instrOf_formatB {m : Mnemonic} (h : m.format = .B) (b : Half) :
    encode (instrOf m b.toNat) = wordB (opOf (instrOf m b.toNat)) b := by
  cases m with
  | FRM_ENC | TLV_PUTA => simp [instrOf, encode]
  | _ => cases h

/-! ## Decoding, by the format of the mnemonic -/

/-- All the commands that `decode` answers with (R76). -/
theorem decodeFields_eq_ok_iff {op a : Byte} {b : Half} {i : Instr} :
    decodeFields op a b = .ok i ↔ ∃ m, mnemonicOfOp op = some m ∧
      (m.format = .N ∧ (a = 0#8 ∧ b = 0#16) ∧ instrOf m 0 = i ∨
       m.format = .A ∧ b = 0#16 ∧ instrOf m a.toNat = i ∨
       m.format = .B ∧ a = 0#8 ∧ instrOf m b.toNat = i) := by
  unfold decodeFields
  cases mnemonicOfOp op with
  | none => simp
  | some m => cases hf : m.format <;> simp [hf, ite_eq_iff]

theorem decode_encode (i : Instr) : decode (encode i) = .ok i := by
  obtain ⟨m, hf, rfl⟩ | ⟨m, a, hf, rfl⟩ | ⟨m, b, hf, rfl⟩ := exists_instrOf i
  · rw [encode_instrOf_zero, wordN, decode_cat, decodeFields_eq_ok_iff]
    exact ⟨m, mnemonicOfOp_opOf_instrOf m _, .inl ⟨hf, ⟨rfl, rfl⟩, rfl⟩⟩
  · rw [encode_instrOf_formatA hf, wordA, decode_cat, decodeFields_eq_ok_iff]
    exact ⟨m, mnemonicOfOp_opOf_instrOf m _, .inr (.inl ⟨hf, rfl, rfl⟩)⟩
  · rw [encode_instrOf_formatB hf, wordB, decode_cat, decodeFields_eq_ok_iff]
    exact ⟨m, mnemonicOfOp_opOf_instrOf m _, .inr (.inr ⟨hf, rfl, rfl⟩)⟩

theorem encode_of_decode {w : Word} {i : Instr} (h : decode w = .ok i) : encode i = w := by
  obtain ⟨m, hm, hcases⟩ := decodeFields_eq_ok_iff.mp h
  have hop := eq_opOf_of_mnemonicOfOp hm
  obtain ⟨hf, ⟨ha, hb⟩, rfl⟩ | ⟨hf, hb, rfl⟩ | ⟨hf, ha, rfl⟩ := hcases
  · rw [encode_instrOf_zero, ← hop, wordN, ← ha, ← hb, fields_cat]
  · rw [encode_instrOf_formatA hf, ← hop, wordA, ← hb, fields_cat]
  · rw [encode_instrOf_formatB hf, ← hop, wordB, ← ha, fields_cat]

/-! ## The formulas of R77 -/

/-- The three fields side by side are the three fields shifted to their places (R70). -/
theorem cat_eq_or (op a : Byte) (b : Half) :
    op ++ a ++ b = op.setWidth 32 <<< 24 ||| a.setWidth 32 <<< 16 ||| b.setWidth 32 :=
  (BitVec.setWidth_eq _).symm.trans BitVec.setWidth_append_append_eq_shiftLeft_setWidth_or

theorem wordN_eq_shift (op : Byte) : wordN op = op.setWidth 32 <<< 24 := by
  simp [wordN, cat_eq_or]

theorem wordA_eq_shift_or (op imm8 : Byte) : wordA op imm8 = op.setWidth 32 <<< 24 ||| imm8.setWidth 32 <<< 16 := by
  simp [wordA, cat_eq_or]

theorem wordB_eq_shift_or (op : Byte) (imm16 : Half) :
    wordB op imm16 = op.setWidth 32 <<< 24 ||| imm16.setWidth 32 := by
  simp [wordB, cat_eq_or]

/-- Settles O2: both round trips through the mnemonic and immediate of a command, and the formula of each format. -/
theorem decodeAndEncodeAgree : Obligations.DecodeAndEncodeAgree := by
  refine ⟨decode_encode, fun _ _ => encode_of_decode, fun i => ?_⟩
  cases i with
  | crcByte a | tlvPut a => exact wordA_eq_shift_or _ a
  | frmEnc b | tlvPuta b => exact wordB_eq_shift_or _ b
  | nop | crcInit | crcBuf | frmDec | tlvParse | obufClr | tlvBuild | movO2i | srst => exact wordN_eq_shift _

end Sys2Proof
end

section
/-! PROOFS. The CRC32C engine: CRC_INIT and CRC_BUF (spec/40_crc.md R93, R95), and the algebra of the checksum: its table
form, its linearity, and that one flipped bit changes it (R97 to R99). -/

namespace Sys2Proof.Machine

/-! ## What a change leaves as it was, and the end of a command after it -/

theorem Part.Same.refl (p : Part) (s : State) : p.Same s s := by
  cases p with
  | ibuf | obuf | atab => exact fun _ => rfl
  | _ => rfl

theorem Part.Same.trans {p : Part} {s t u : State} (hst : p.Same s t) (htu : p.Same t u) : p.Same s u := by
  cases p with
  | ibuf | obuf | atab => exact fun i => (htu i).trans (hst i)
  | _ => exact Eq.trans htu hst

theorem OutsideSame.trans {s t u : State} (hst : OutsideSame s t) (htu : OutsideSame t u) : OutsideSame s u := by
  obtain ⟨hbuf, hpend, hresp, hres, hdraw⟩ := hst
  obtain ⟨hbuf', hpend', hresp', hres', hdraw'⟩ := htu
  exact ⟨hbuf'.trans hbuf, hpend'.trans hpend, hresp'.trans hresp, hres'.trans hres, hdraw'.trans hdraw⟩

theorem OnlyChanges.refl (s : State) : OnlyChanges [] s s :=
  ⟨fun p _ => Part.Same.refl p s, rfl, rfl, rfl, rfl, rfl⟩

/-- Two changes one after the other change the parts of both; the later one's stand first. -/
theorem OnlyChanges.trans {ps qs : List Part} {s t u : State} (hst : OnlyChanges ps s t) (htu : OnlyChanges qs t u) :
    OnlyChanges (qs ++ ps) s u := by
  refine ⟨fun p hp => ?_, hst.2.trans htu.2⟩
  obtain ⟨hqs, hps⟩ := not_or.mp (mt List.mem_append.mpr hp)
  exact (hst.1 p hps).trans (htu.1 p hqs)

/-- R194. -/
theorem onlyChanges_succeed (s : State) : OnlyChanges (endWrites false) s (succeed s) := by
  refine ⟨fun p hp => ?_, rfl, rfl, rfl, rfl, rfl⟩
  cases p with
  | err | ecode | einfo => exact absurd hp (by decide)
  | ibuf | obuf | atab => exact fun _ => rfl
  | _ => rfl

/-- R195. -/
theorem onlyChanges_raise (e : CmdError) (info : Word) (s : State) :
    OnlyChanges (endWrites true) s (raise e info s) := by
  refine ⟨fun p hp => ?_, rfl, rfl, rfl, rfl, rfl⟩
  cases p with
  | err | sticky | ecode | einfo => exact absurd hp (by decide)
  | ibuf | obuf | atab => exact fun _ => rfl
  | _ => rfl

/-- A command that completes after a change to other parts than STICKY. -/
theorem OnlyChanges.succeedsChanging {parts : List Part} {s t : State} (h : OnlyChanges parts s t)
    (hsticky : Part.sticky ∉ parts) : SucceedsChanging parts s (succeed t) :=
  ⟨⟨rfl, rfl, rfl, h.1 .sticky hsticky⟩, h.trans (onlyChanges_succeed t)⟩

/-- A command that raises after a change. -/
theorem OnlyChanges.failsChanging {parts : List Part} {s t : State} (e : CmdError) (info : Word)
    (h : OnlyChanges parts s t) : FailsChanging e info parts s (raise e info t) :=
  ⟨⟨rfl, rfl, rfl, rfl⟩, h.trans (onlyChanges_raise e info t)⟩

/-! ## The commands CRC_INIT and CRC_BUF -/

theorem onlyChanges_crc (s : State) (c : Word) : OnlyChanges [.crc] s { s with crc := c } := by
  refine ⟨fun p hp => ?_, rfl, rfl, rfl, rfl, rfl⟩
  cases p with
  | crc => exact absurd hp (by decide)
  | ibuf | obuf | atab => exact fun _ => rfl
  | _ => rfl

/-- A command that sets CRC and completes. -/
theorem succeedsChanging_crc (s : State) (c : Word) : SucceedsChanging [.crc] s (succeed { s with crc := c }) :=
  (onlyChanges_crc s c).succeedsChanging (by decide)

theorem exec_crcInit (s : State) : exec .crcInit s = .next (succeed { s with crc := 0xFFFFFFFF#32 }) := rfl

theorem exec_crcBuf_of_inRange {s : State} (h : s.soff.toNat + s.slen.toNat ≤ s.bufSize.val) :
    exec .crcBuf s = .next (succeed { s with crc := crcRun s.crc (window s) }) :=
  if_pos ((windowInRange_iff s).mpr h)

theorem exec_crcBuf_of_outOfRange {s : State} (h : s.bufSize.val < s.soff.toNat + s.slen.toNat) :
    exec .crcBuf s = .next (raise .range s.soff s) :=
  if_neg (mt (windowInRange_iff s).mp h.not_ge)

/-- The fold over the window, byte by byte in the order of the indices. -/
theorem crcRun_window (c : Word) (s : State) :
    crcRun c (window s) =
      (List.range s.slen.toNat).foldl (fun c j => crcStep c (ibufByte s (s.soff.toNat + j))) c :=
  List.foldl_map

/-- Settles O31: CRC_INIT is one change of CRC and a success, and the complement of 0xFFFFFFFF is 0. -/
theorem crcInitResult : Obligations.CrcInitResult :=
  ⟨by decide, fun s => ⟨_, exec_crcInit s, rfl, BitVec.xor_self, succeedsChanging_crc s _⟩⟩

/-- Settles O34, by the two cases of the range check. -/
theorem crcBufResult : Obligations.CrcBufResult := by
  refine ⟨by decide, fun s => ⟨fun hout => ?_, fun hin => ?_⟩⟩
  · exact ⟨_, exec_crcBuf_of_outOfRange hout, (OnlyChanges.refl s).failsChanging .range s.soff⟩
  · exact ⟨_, exec_crcBuf_of_inRange hin, crcRun_window s.crc s, succeedsChanging_crc s _⟩

/-! ## The table form of the byte step -/

/-- A byte that is exclusive-ored in does not reach the bits that eight shifts keep. -/
theorem xor_byte_shiftRight_8 (c : Word) (b : Byte) : (c ^^^ b.setWidth 32) >>> 8 = c >>> 8 := by
  ext i hi
  simp

/-- The rounds of a word are those of its low byte, for the rest is only shifted down. -/
theorem crcRounds_eq_lowByte_xor_shift (x : Word) :
    crcRounds x = crcRounds ((x.setWidth 8).setWidth 32) ^^^ (x >>> 8) := by
  let low : Word := (x.setWidth 8).setWidth 32
  have hsplit : low ^^^ (x ^^^ low) = x := by
    rw [BitVec.xor_comm x, ← BitVec.xor_assoc, BitVec.xor_self, BitVec.zero_xor]
  have hzero : (x ^^^ low).setWidth 8 = 0#8 := by simp [low, BitVec.setWidth_xor]
  calc crcRounds x = crcRounds low ^^^ crcRounds (x ^^^ low) := by rw [← crcRounds_xor, hsplit]
    _ = crcRounds low ^^^ ((x ^^^ low) >>> 8) := by rw [crcRounds_of_low_zero hzero]
    _ = crcRounds low ^^^ (x >>> 8) := by rw [xor_byte_shiftRight_8]

/-- The table form, the table being the step from a remainder of one byte with byte 0. -/
theorem crcStep_eq_table_xor_shift (c : Word) (b : Byte) :
    crcStep c b = crcStep (((c ^^^ b.setWidth 32).setWidth 8).setWidth 32) 0#8 ^^^ (c >>> 8) := by
  have h := crcRounds_eq_lowByte_xor_shift (c ^^^ b.setWidth 32)
  rw [xor_byte_shiftRight_8] at h
  simpa [crcStep_eq_rounds] using h

/-- Settles O36: the table form for every remainder and byte; the printed entries by evaluation. -/
theorem tableFormOfTheByteStep : Obligations.TableFormOfTheByteStep :=
  ⟨crcStep_eq_table_xor_shift, by decide +kernel⟩

/-! ## Linearity -/

/-- Two folds side by side: at each byte the step is linear. -/
theorem crcRun_xor (c d : Word) {bs cs : List Byte} (h : bs.length = cs.length) :
    crcRun (c ^^^ d) (List.zipWith (· ^^^ ·) bs cs) = crcRun c bs ^^^ crcRun d cs := by
  induction bs generalizing c d cs with
  | nil =>
    obtain rfl := List.length_eq_zero_iff.mp h.symm
    rfl
  | cons b bs ih =>
    obtain ⟨e, cs, rfl⟩ := List.exists_cons_of_length_eq_add_one h.symm
    rw [List.zipWith_cons_cons, crcRun_cons, crcStep_xor]
    exact ih _ _ (Nat.succ.inj h)

/-- The final complement cancels in a difference. -/
theorem not32_xor_not32 (v w : Word) : not32 v ^^^ not32 w = v ^^^ w := by
  unfold not32
  rw [BitVec.xor_comm w, BitVec.xor_assoc, ← BitVec.xor_assoc (0xFFFFFFFF#32), BitVec.xor_self, BitVec.zero_xor]

/-- The initial remainder cancels too, and the difference of the messages is folded from 0. -/
theorem crc32c_xor {bs cs : List Byte} (h : bs.length = cs.length) :
    crc32c bs ^^^ crc32c cs = crcRun 0#32 (List.zipWith (· ^^^ ·) bs cs) := by
  rw [crc32c, crc32c, not32_xor_not32, ← crcRun_xor _ _ h, BitVec.xor_self]

/-- Settles O37, by the linearity of the fold. -/
theorem checksumsAreLinear : Obligations.ChecksumsAreLinear :=
  ⟨fun c d _ _ h => crcRun_xor c d h, fun _ _ h => crc32c_xor h⟩

/-! ## One flipped bit -/

/-- The fold loses nothing of the remainder. -/
theorem crcRun_injective {c d : Word} {bs : List Byte} (h : crcRun c bs = crcRun d bs) : c = d := by
  induction bs generalizing c d with
  | nil => exact h
  | cons b bs ih => exact crcStep_injective (ih h)

/-- The final complement loses nothing. -/
theorem crcRun_eq_of_crc32c_eq {bs cs : List Byte} (h : crc32c bs = crc32c cs) :
    crcRun crcInitial bs = crcRun crcInitial cs :=
  (BitVec.xor_left_inj _).mp h

theorem xor_bit_ne_self (b : Byte) {k : Nat} (hk : k < 8) : b ^^^ (1#8 <<< k) ≠ b := by
  intro h
  have hbit := congrArg (fun v => BitVec.getLsbD v k) h
  simp [hk] at hbit

theorem crcRun_flipBit_ne (c : Word) {bs : List Byte} {i k : Nat} (hi : i < bs.length) (hk : k < 8) :
    crcRun c (flipBit bs i k) ≠ crcRun c bs := by
  induction bs generalizing c i with
  | nil => cases hi
  | cons b bs ih =>
    cases i with
    | zero => exact fun h => xor_bit_ne_self b hk (crcStep_byte_injective (crcRun_injective h))
    | succ i => exact ih (crcStep c b) (Nat.lt_of_succ_lt_succ hi)

/-- Settles O38, by the induction of `crcRun_flipBit_ne`. -/
theorem oneFlippedBitChangesTheChecksum : Obligations.OneFlippedBitChangesTheChecksum :=
  fun _ _ _ hi hk h => crcRun_flipBit_ne crcInitial hi hk (crcRun_eq_of_crc32c_eq h)

end Sys2Proof.Machine
end

section
/-! PROOFS. The frame codec (spec/41_frame.md R110 to R119): what `frame_decode` accepts and refuses, that it inverts
`frame_encode` in both directions, which error a flipped bit gives, and the commands FRM_ENC, MOV_O2I and FRM_DEC by their
cases. -/

namespace Sys2Proof.Machine

/-! ## What `frame_decode` accepts and refuses -/

theorem frameDecode_of_badLength {bs : List Byte} (h : 8 ≤ bs.length → frameLengthField bs ≠ bs.length - 8) :
    frameDecode bs = .error .badLength := by
  unfold frameDecode
  split
  · rfl
  · rename_i hlen
    exact if_pos (h (not_lt.mp hlen))

theorem frameDecode_of_badChecksum {bs : List Byte} (hlen : 8 ≤ bs.length)
    (hfield : frameLengthField bs = bs.length - 8) (hsum : frameChecksum bs ≠ frameTrailer bs) :
    frameDecode bs = .error .badChecksum := by
  rw [frameDecode, if_neg hlen.not_gt, if_neg (not_not_intro hfield), if_pos hsum]

/-- All that `frame_decode` accepts, and its answer (R111). -/
theorem frameDecode_eq_ok_iff {bs : List Byte} {t : Half} {p : List Byte} :
    frameDecode bs = .ok (t, p) ↔
      8 ≤ bs.length ∧ frameLengthField bs = bs.length - 8 ∧ frameChecksum bs = frameTrailer bs ∧
        frombe16 (slice bs 0 2) = t ∧ slice bs 4 (bs.length - 4) = p := by
  by_cases hlen : 8 ≤ bs.length
  · by_cases hfield : frameLengthField bs = bs.length - 8
    · by_cases hsum : frameChecksum bs = frameTrailer bs
      · simp [frameDecode, hlen.not_gt, hlen, hfield, hsum]
      · simp [frameDecode_of_badChecksum hlen hfield hsum, hsum]
    · simp [frameDecode_of_badLength fun _ => hfield, hfield]
  · simp [frameDecode_of_badLength fun h => absurd h hlen, hlen]

/-! ## The two directions of the codec -/

theorem frameDecode_frameBytes (t : Half) {p : List Byte} (h : p.length ≤ 65535) :
    frameDecode (frameBytes t p) = .ok (t, p) := by
  have hfield : frameLengthField (frameBytes t p) = (frameBytes t p).length - 8 := by
    rw [frameLengthField_frameBytes t h, length_frameBytes, Nat.add_sub_cancel]
  have hsum : frameChecksum (frameBytes t p) = frameTrailer (frameBytes t p) :=
    (frameChecksum_frameBytes t p).trans (frameTrailer_frameBytes t p).symm
  exact frameDecode_eq_ok_iff.mpr ⟨by simp, hfield, hsum, frame_type t p, frame_payload t p⟩

theorem frameEncode_of_le (t : Half) {p : List Byte} (h : p.length ≤ 65535) :
    frameEncode t p = some (frameBytes t p) := if_pos h

theorem frameDecode_of_frameEncode {t : Half} {p f : List Byte} (h : frameEncode t p = some f) :
    frameDecode f = .ok (t, p) := by
  obtain ⟨hp, hf⟩ := Option.ite_none_right_eq_some.mp h
  cases hf
  exact frameDecode_frameBytes t hp

/-- What stands between header and trailer; for a sequence too short to have both, 0 on either side. -/
theorem length_framePayload (bs : List Byte) : (slice bs 4 (bs.length - 4)).length = bs.length - 8 := by
  rw [length_slice]; omega

/-- The header of a sequence whose length field is right is its first four bytes. -/
theorem frameHeader_of_lengthField {bs : List Byte} (hlen : 8 ≤ bs.length)
    (hfield : frameLengthField bs = bs.length - 8) :
    frameHeader (frombe16 (slice bs 0 2)) (slice bs 4 (bs.length - 4)) = slice bs 0 4 := by
  have htype : be16 (frombe16 (slice bs 0 2)) = slice bs 0 2 := be16_frombe16 (by rw [length_slice]; omega)
  have hlength : be16 (frombe16 (slice bs 2 4)) = slice bs 2 4 := be16_frombe16 (by rw [length_slice]; omega)
  rw [frameHeader, length_framePayload, ← hfield, htype]
  exact (congrArg _ hlength).trans (slice_append_slice bs (by omega) (by omega))

/-- Put together again, the parts of an accepted sequence are the sequence. -/
theorem frameBytes_of_frameDecode {bs : List Byte} {t : Half} {p : List Byte} (h : frameDecode bs = .ok (t, p)) :
    frameBytes t p = bs := by
  obtain ⟨hlen, hfield, hsum, rfl, rfl⟩ := frameDecode_eq_ok_iff.mp h
  have hbody : slice bs 0 4 ++ slice bs 4 (bs.length - 4) = slice bs 0 (bs.length - 4) :=
    slice_append_slice bs (by omega) (by omega)
  have htrailer : be32 (frameTrailer bs) = slice bs (bs.length - 4) bs.length :=
    be32_frombe32 (by rw [length_slice]; omega)
  calc frameBytes _ _ = slice bs 0 (bs.length - 4) ++ be32 (frameChecksum bs) := by
        rw [frameBytes, frameHeader_of_lengthField hlen hfield, hbody, frameChecksum]
    _ = slice bs 0 (bs.length - 4) ++ slice bs (bs.length - 4) bs.length := by rw [hsum, htrailer]
    _ = bs := by rw [slice_append_slice bs (by omega) (by omega), slice_all]

theorem payload_le_of_frameDecode {bs : List Byte} {t : Half} {p : List Byte} (h : frameDecode bs = .ok (t, p)) :
    p.length ≤ 65535 := by
  obtain ⟨hlen, hfield, -, -, rfl⟩ := frameDecode_eq_ok_iff.mp h
  have hlt : frameLengthField bs < 65536 := fromBe_two_lt (by rw [length_slice]; omega)
  rw [length_framePayload, ← hfield]
  exact Nat.le_of_lt_succ hlt

theorem frameEncode_of_frameDecode {bs : List Byte} {t : Half} {p : List Byte} (h : frameDecode bs = .ok (t, p)) :
    frameEncode t p = some bs := by
  rw [frameEncode_of_le t (payload_le_of_frameDecode h), frameBytes_of_frameDecode h]

/-- Settles O42: the accepted sequence is the encoding; two with one answer are one encoding. -/
theorem framesAreUnique : Obligations.FramesAreUnique :=
  ⟨fun _ _ _ => frameEncode_of_frameDecode, fun _ _ _ h h' =>
    Option.some.inj ((frameEncode_of_frameDecode h).symm.trans (frameEncode_of_frameDecode h'))⟩

/-! ## One flipped bit -/

@[simp] theorem length_flipBit (bs : List Byte) (i k : Nat) : (flipBit bs i k).length = bs.length :=
  List.length_modify ..

theorem flipBit_ne_self {bs : List Byte} {i k : Nat} (hi : i < bs.length) (hk : k < 8) : flipBit bs i k ≠ bs :=
  fun h => crcRun_flipBit_ne crcInitial hi hk (congrArg _ h)

theorem slice_flipBit_before (bs : List Byte) {i a : Nat} (k b : Nat) (h : i < a) :
    slice (flipBit bs i k) a b = slice bs a b := by
  rw [slice, flipBit, List.take_modify, List.drop_modify_of_lt _ _ _ _ h, slice]

theorem slice_flipBit_after (bs : List Byte) {i b : Nat} (k a : Nat) (h : b ≤ i) :
    slice (flipBit bs i k) a b = slice bs a b := by
  rw [slice, flipBit, List.take_modify, List.modify_eq_self ((List.length_take_le ..).trans h), slice]

theorem slice_flipBit_inside (bs : List Byte) {i a : Nat} (k b : Nat) (h : a ≤ i) :
    slice (flipBit bs i k) a b = flipBit (slice bs a b) (i - a) k := by
  rw [slice, flipBit, List.take_modify, List.drop_modify_of_ge _ _ _ _ h, slice, flipBit]

/-- A slice that the bit lies in is changed. -/
theorem slice_flipBit_ne {bs : List Byte} {i k a b : Nat} (ha : a ≤ i) (hb : i < b) (hi : i < bs.length) (hk : k < 8) :
    slice (flipBit bs i k) a b ≠ slice bs a b := by
  rw [slice_flipBit_inside bs k b ha]
  exact flipBit_ne_self (by rw [length_slice]; omega) hk

/-- Two bytes are told apart by the number they spell. -/
theorem eq_of_fromBe_eq_of_length_two {bs cs : List Byte} (hb : bs.length = 2) (hc : cs.length = 2)
    (h : fromBe bs = fromBe cs) : bs = cs := by
  rw [← be16_frombe16 hb, frombe16, h, ← frombe16, be16_frombe16 hc]

/-- Four bytes are told apart by the word they spell. -/
theorem eq_of_frombe32_eq {bs cs : List Byte} (hb : bs.length = 4) (hc : cs.length = 4)
    (h : frombe32 bs = frombe32 cs) : bs = cs := by
  rw [← be32_frombe32 hb, h, be32_frombe32 hc]

section
variable {bs : List Byte} {i k : Nat}

theorem frameLengthField_flipBit_ne (h : i = 2 ∨ i = 3) (hlen : 4 ≤ bs.length) (hk : k < 8) :
    frameLengthField (flipBit bs i k) ≠ frameLengthField bs := fun heq =>
  slice_flipBit_ne (bs := bs) (a := 2) (b := 4) (by omega) (by omega) (by omega) hk
    (eq_of_fromBe_eq_of_length_two (by rw [length_slice, length_flipBit]; omega) (by rw [length_slice]; omega) heq)

theorem frameLengthField_flipBit (h : ¬ (i = 2 ∨ i = 3)) :
    frameLengthField (flipBit bs i k) = frameLengthField bs := by
  rcases (by omega : i < 2 ∨ 4 ≤ i) with hi | hi
  · rw [frameLengthField, slice_flipBit_before bs k 4 hi, frameLengthField]
  · rw [frameLengthField, slice_flipBit_after bs k 2 hi, frameLengthField]

theorem frameChecksum_flipBit_ne (hi : i < bs.length - 4) (hk : k < 8) :
    frameChecksum (flipBit bs i k) ≠ frameChecksum bs := by
  rw [frameChecksum, length_flipBit, slice_flipBit_inside bs k _ (Nat.zero_le i), frameChecksum]
  exact oneFlippedBitChangesTheChecksum _ _ _ (by rw [length_slice]; omega) hk

theorem frameChecksum_flipBit (hi : bs.length - 4 ≤ i) : frameChecksum (flipBit bs i k) = frameChecksum bs := by
  rw [frameChecksum, length_flipBit, slice_flipBit_after bs k 0 hi, frameChecksum]

theorem frameTrailer_flipBit (hi : i < bs.length - 4) : frameTrailer (flipBit bs i k) = frameTrailer bs := by
  rw [frameTrailer, length_flipBit, slice_flipBit_before bs k _ hi, frameTrailer]

theorem frameTrailer_flipBit_ne (hlen : 4 ≤ bs.length) (hi : bs.length - 4 ≤ i) (hi' : i < bs.length) (hk : k < 8) :
    frameTrailer (flipBit bs i k) ≠ frameTrailer bs := by
  intro heq
  rw [frameTrailer, length_flipBit] at heq
  exact slice_flipBit_ne hi hi' hi' hk
    (eq_of_frombe32_eq (by rw [length_slice, length_flipBit]; omega) (by rw [length_slice]; omega) heq)

/-- A flipped bit changes the checksum or the trailer, never both. -/
theorem frameChecksum_ne_frameTrailer_flipBit (hlen : 4 ≤ bs.length) (hsum : frameChecksum bs = frameTrailer bs)
    (hi : i < bs.length) (hk : k < 8) : frameChecksum (flipBit bs i k) ≠ frameTrailer (flipBit bs i k) := by
  rcases Nat.lt_or_ge i (bs.length - 4) with hbody | htrailer
  · rw [frameTrailer_flipBit hbody, ← hsum]
    exact frameChecksum_flipBit_ne hbody hk
  · rw [frameChecksum_flipBit htrailer, hsum]
    exact (frameTrailer_flipBit_ne hlen htrailer hi hk).symm

/-- R118 for every sequence that decodes. -/
theorem frameDecode_flipBit {t : Half} {p : List Byte} (h : frameDecode bs = .ok (t, p)) (hi : i < bs.length)
    (hk : k < 8) :
    frameDecode (flipBit bs i k) = .error (if i = 2 ∨ i = 3 then .badLength else .badChecksum) := by
  obtain ⟨hlen, hfield, hsum, -, -⟩ := frameDecode_eq_ok_iff.mp h
  split
  · rename_i hpos
    refine frameDecode_of_badLength fun _ => ?_
    rw [length_flipBit, ← hfield]
    exact frameLengthField_flipBit_ne hpos (by omega) hk
  · rename_i hpos
    refine frameDecode_of_badChecksum (by rwa [length_flipBit]) ?_
      (frameChecksum_ne_frameTrailer_flipBit (by omega) hsum hi hk)
    rw [length_flipBit, frameLengthField_flipBit hpos, hfield]

end

/-- Settles O43, by the field of the frame the bit lies in. -/
theorem oneFlippedBitOfAFrameIsFound : Obligations.OneFlippedBitOfAFrameIsFound :=
  fun _ _ _ _ _ hf hi hk => frameDecode_flipBit (frameDecode_of_frameEncode hf) hi hk

/-! ## The commands by their cases -/

section
variable {s : State}

theorem exec_frmEnc_of_outOfRange (ty : Half) (h : s.bufSize.val < s.soff.toNat + s.slen.toNat) :
    exec (.frmEnc ty) s = .next (raise .range s.soff { s with olen := 0#32 }) :=
  if_neg (mt (windowInRange_iff s).mp h.not_ge)

theorem exec_frmEnc_of_overflow (ty : Half) (h : s.soff.toNat + s.slen.toNat ≤ s.bufSize.val)
    (hfit : s.bufSize.val < s.slen.toNat + 8) :
    exec (.frmEnc ty) s =
      .next (raise .overflow (BitVec.ofNat 32 (s.slen.toNat + 8)) { s with olen := 0#32 }) :=
  (if_pos ((windowInRange_iff s).mpr h)).trans (if_neg hfit.not_ge)

theorem exec_frmEnc_of_fits (ty : Half) (h : s.soff.toNat + s.slen.toNat ≤ s.bufSize.val)
    (hfit : s.slen.toNat + 8 ≤ s.bufSize.val) :
    exec (.frmEnc ty) s =
      .next (succeed (setOutput (frameBytes ty (window s))
        { s with crc := not32 (crc32c (slice (frameBytes ty (window s)) 0 (s.slen.toNat + 4))) })) :=
  (if_pos ((windowInRange_iff s).mpr h)).trans (if_pos hfit)

theorem exec_frmDec_of_outOfRange (h : s.bufSize.val < s.soff.toNat + s.slen.toNat) :
    exec .frmDec s = .next (raise .range s.soff { s with olen := 0#32 }) :=
  if_neg (mt (windowInRange_iff s).mp h.not_ge)

theorem exec_frmDec_of_badLength (h : s.soff.toNat + s.slen.toNat ≤ s.bufSize.val)
    (hdec : frameDecode (window s) = .error .badLength) :
    exec .frmDec s = .next (raise .badLength s.slen { s with olen := 0#32 }) := by
  simp [exec, execFrmDec, windowInRange_iff, h, hdec]

theorem exec_frmDec_of_badChecksum (h : s.soff.toNat + s.slen.toNat ≤ s.bufSize.val)
    (hdec : frameDecode (window s) = .error .badChecksum) :
    exec .frmDec s = .next (raise .badChecksum (frameChecksum (window s))
      { s with crc := not32 (frameChecksum (window s)), olen := 0#32 }) := by
  simp [exec, execFrmDec, windowInRange_iff, h, hdec]

theorem exec_frmDec_of_ok (h : s.soff.toNat + s.slen.toNat ≤ s.bufSize.val) {t : Half} {p : List Byte}
    (hdec : frameDecode (window s) = .ok (t, p)) :
    exec .frmDec s =
      .next (succeed (setOutput p { s with crc := not32 (frameChecksum (window s)), ftype := t })) := by
  simp [exec, execFrmDec, windowInRange_iff, h, hdec]

/-! ## The round trip in commands -/

/-- FRM_ENC without an error: the payload fits, and the valid output is its frame. -/
theorem frmEnc_succeeded {ty : Half} {t : State} (h : exec (.frmEnc ty) s = .next t) (herr : t.status.err = false) :
    s.slen.toNat + 8 ≤ s.bufSize.val ∧ t.bufSize = s.bufSize ∧ validOutput t = frameBytes ty (window s) := by
  have hsize := bufSize_lt s.bufSize
  rcases Nat.lt_or_ge s.bufSize.val (s.soff.toNat + s.slen.toNat) with hout | hin
  · rw [exec_frmEnc_of_outOfRange ty hout] at h
    cases h
    cases herr
  rcases Nat.lt_or_ge s.bufSize.val (s.slen.toNat + 8) with hover | hfit
  · rw [exec_frmEnc_of_overflow ty hin hover] at h
    cases h
    cases herr
  · rw [exec_frmEnc_of_fits ty hin hfit] at h
    cases h
    exact ⟨hfit, rfl, validOutput_setOutput (by rw [length_frameBytes, length_window]; omega) _⟩

theorem exec_movO2i (s : State) : exec .movO2i s =
    .next (succeed { s with ibuf := s.ibuf.writeBytes 0 (validOutput s), soff := 0#32, slen := s.olen }) := rfl

/-- After MOV_O2I the window holds what was the valid output. -/
theorem window_movO2i (s : State) :
    window (succeed { s with ibuf := s.ibuf.writeBytes 0 (validOutput s), soff := 0#32, slen := s.olen }) =
      validOutput s := by
  apply List.ext_getElem
  · simp
  · intro j _ hj
    have hread := getD_read?_writeBytes s.ibuf 0 (validOutput s) j (Config.ibufAtReset s.resets j)
    rw [dif_pos ⟨Nat.zero_le j, by omega⟩] at hread
    refine (getElem_ibufBytes ..).trans ?_
    simpa [ibufByte] using hread

theorem execAll_cons_of_next {i : Instr} {is : List Instr} {t : State} (h : exec i s = .next t) :
    execAll (i :: is) s = execAll is t := by
  simp [execAll, h]

/-- MOV_O2I and FRM_DEC on a valid output that decodes. -/
theorem execAll_movO2i_frmDec {ty : Half} {p : List Byte} (hsize : s.olen.toNat ≤ s.bufSize.val)
    (hdec : frameDecode (validOutput s) = .ok (ty, p)) :
    ∃ u, execAll [.movO2i, .frmDec] s = .next u ∧ u.status.err = false ∧ u.ftype = ty ∧ validOutput u = p := by
  rw [← window_movO2i] at hdec
  have hp := payload_le_of_frameDecode hdec
  have hrun := exec_frmDec_of_ok (by simpa using hsize) hdec
  have hrunAll := (execAll_cons_of_next (exec_movO2i s)).trans (execAll_cons_of_next (is := []) hrun)
  exact ⟨_, hrunAll, rfl, rfl, validOutput_setOutput (by omega) _⟩

end

/-- Settles O41: the codec on lists; in commands, the frame that FRM_ENC leaves goes through the two commands. -/
theorem frameRoundTrip : Obligations.FrameRoundTrip := by
  refine ⟨fun t p hp => ⟨_, frameEncode_of_le t hp, frameDecode_frameBytes t hp⟩, fun ty s t h herr => ?_⟩
  obtain ⟨hfit, hbuf, hout⟩ := frmEnc_succeeded h herr
  have hsize := s.bufSize.2.2
  refine execAll_movO2i_frmDec ?_ (hout ▸ frameDecode_frameBytes ty (by rw [length_window]; omega))
  rwa [← length_validOutput, hout, length_frameBytes, length_window, hbuf]

/-! ## Statelessness -/

/-- What R119 lets a frame command depend on besides its immediate. -/
structure SameOperands (s s' : State) : Prop where
  bufSize : s.bufSize = s'.bufSize
  soff : s.soff = s'.soff
  slen : s.slen = s'.slen
  window : window s = window s'

/-- What R119 calls the result of a frame command. -/
def ResultsAgree (i : Instr) (t t' : State) : Prop :=
  t.status.err = t'.status.err ∧ t.status.ecode = t'.status.ecode ∧ t.einfo = t'.einfo ∧ t.olen = t'.olen ∧
    validOutput t = validOutput t' ∧
    (t.status.err = false ∨ t.status.ecode = CmdError.code .badChecksum → t.crc = t'.crc) ∧
    (t.status.err = false → i = .frmDec → t.ftype = t'.ftype)

theorem eq_badChecksum_of_code_eq {e : CmdError} (h : e.code = CmdError.code .badChecksum) : e = .badChecksum := by
  cases e with
  | badChecksum => rfl
  | _ => exact absurd h (by decide)

/-- Two errors with one code and info; CRC is compared after BadChecksum. -/
theorem resultsAgree_raise (i : Instr) (e : CmdError) {info info' : Word} {u u' : State} (hinfo : info = info')
    (holen : u.olen = 0#32) (holen' : u'.olen = 0#32) (hcrc : e = .badChecksum → u.crc = u'.crc) :
    ResultsAgree i (raise e info u) (raise e info' u') := by
  refine ⟨rfl, rfl, hinfo, holen.trans holen'.symm, ?_, ?_, nofun⟩
  · exact (validOutput_of_olen_zero holen).trans (validOutput_of_olen_zero holen').symm
  · rintro (herr | hcode)
    · cases herr
    · exact hcrc (eq_badChecksum_of_code_eq hcode)

/-- Two successes with one output and CRC; FTYPE is compared for FRM_DEC. -/
theorem resultsAgree_succeed {i : Instr} {bs bs' : List Byte} {u u' : State} (hbs : bs = bs') (hlen : bs.length < 2 ^ 32)
    (hcrc : u.crc = u'.crc) (hftype : i = .frmDec → u.ftype = u'.ftype) :
    ResultsAgree i (succeed (setOutput bs u)) (succeed (setOutput bs' u')) := by
  subst hbs
  exact ⟨rfl, rfl, rfl, rfl, (validOutput_setOutput hlen u).trans (validOutput_setOutput hlen u').symm, fun _ => hcrc,
    fun _ => hftype⟩

section
variable {s s' : State}

theorem frmEnc_resultsAgree (ty : Half) (hop : SameOperands s s') :
    ∃ t t', exec (.frmEnc ty) s = .next t ∧ exec (.frmEnc ty) s' = .next t' ∧ ResultsAgree (.frmEnc ty) t t' := by
  obtain ⟨hbuf, hoff, hlen, hwin⟩ := hop
  have hsize := bufSize_lt s.bufSize
  rcases Nat.lt_or_ge s.bufSize.val (s.soff.toNat + s.slen.toNat) with hout | hin
  · exact ⟨_, _, exec_frmEnc_of_outOfRange ty hout, exec_frmEnc_of_outOfRange ty (by rwa [← hbuf, ← hoff, ← hlen]),
      resultsAgree_raise _ _ hoff rfl rfl nofun⟩
  have hin' : s'.soff.toNat + s'.slen.toNat ≤ s'.bufSize.val := by rwa [← hbuf, ← hoff, ← hlen]
  rcases Nat.lt_or_ge s.bufSize.val (s.slen.toNat + 8) with hover | hfit
  · exact ⟨_, _, exec_frmEnc_of_overflow ty hin hover, exec_frmEnc_of_overflow ty hin' (by rwa [← hbuf, ← hlen]),
      resultsAgree_raise _ _ (by rw [hlen]) rfl rfl nofun⟩
  · exact ⟨_, _, exec_frmEnc_of_fits ty hin hfit, exec_frmEnc_of_fits ty hin' (by rwa [← hbuf, ← hlen]),
      resultsAgree_succeed (by rw [hwin]) (by rw [length_frameBytes, length_window]; omega)
        (by simp only [hwin, hlen]) nofun⟩

theorem frmDec_resultsAgree (hop : SameOperands s s') :
    ∃ t t', exec .frmDec s = .next t ∧ exec .frmDec s' = .next t' ∧ ResultsAgree .frmDec t t' := by
  obtain ⟨hbuf, hoff, hlen, hwin⟩ := hop
  rcases Nat.lt_or_ge s.bufSize.val (s.soff.toNat + s.slen.toNat) with hout | hin
  · exact ⟨_, _, exec_frmDec_of_outOfRange hout, exec_frmDec_of_outOfRange (by rwa [← hbuf, ← hoff, ← hlen]),
      resultsAgree_raise _ _ hoff rfl rfl nofun⟩
  have hin' : s'.soff.toNat + s'.slen.toNat ≤ s'.bufSize.val := by rwa [← hbuf, ← hoff, ← hlen]
  match hdec : frameDecode (window s) with
  | .error .badLength =>
    exact ⟨_, _, exec_frmDec_of_badLength hin hdec, exec_frmDec_of_badLength hin' (hwin ▸ hdec),
      resultsAgree_raise _ _ hlen rfl rfl nofun⟩
  | .error .badChecksum =>
    exact ⟨_, _, exec_frmDec_of_badChecksum hin hdec, exec_frmDec_of_badChecksum hin' (hwin ▸ hdec),
      resultsAgree_raise _ _ (by rw [hwin]) rfl rfl fun _ => by simp only [hwin]⟩
  | .ok (ty, p) =>
    have hp := payload_le_of_frameDecode hdec
    exact ⟨_, _, exec_frmDec_of_ok hin hdec, exec_frmDec_of_ok hin' (hwin ▸ hdec),
      resultsAgree_succeed rfl (by omega) (by simp only [hwin]) fun _ => rfl⟩

end

/-- Settles O25: each command answers on both states, and the answers agree. -/
theorem frameCommandsAreStateless : Obligations.FrameCommandsAreStateless := by
  intro i s s' t t' hi hbuf hoff hlen hwin ht ht'
  have hop : SameOperands s s' := ⟨hbuf, hoff, hlen, hwin⟩
  obtain ⟨u, u', hu, hu', hagree⟩ :
      ∃ u u', exec i s = .next u ∧ exec i s' = .next u' ∧ ResultsAgree i u u' := by
    obtain rfl | ⟨ty, rfl⟩ := hi
    · exact frmDec_resultsAgree hop
    · exact frmEnc_resultsAgree ty hop
  cases hu.symm.trans ht
  cases hu'.symm.trans ht'
  exact hagree

end Sys2Proof.Machine
end

section
/-! PROOFS. The TLV codec (spec/42_tlv.md R130 to R142): what `tlv_parse` answers and that it inverts `tlv_build`, the
commands TLV_PARSE, TLV_PUT, TLV_PUTA and TLV_BUILD by their cases, and that TLV_BUILD after TLV_PARSE gives the window
back. -/

namespace Sys2Proof.Machine

/-! ## What `tlv_parse` answers -/

theorem tlvScanAll_tlvBytes {as : List Attr} (hs : Supported as) :
    tlvScanAll (tlvBytes as) = ⟨withOffsets 0 as, .ok (tlvBytes as).length⟩ := by
  simpa using tlvScanAll_of hs (rem := []) .done

theorem tlvParse_tlvBytes {as : List Attr} (hs : Supported as) : tlvParse (tlvBytes as) = .ok as := by
  simp [tlvParse, tlvScanAll_tlvBytes hs]

/-- All that `tlv_parse` accepts, and its answer (R130, R131). -/
theorem tlvParse_eq_ok_iff {bs : List Byte} {as : List Attr} :
    tlvParse bs = .ok as ↔ Supported as ∧ bs = tlvBytes as := by
  refine ⟨fun h => ?_, fun ⟨hs, hbs⟩ => hbs ▸ tlvParse_tlvBytes hs⟩
  obtain ⟨as', rem, hbs, hs, -, ⟨hrem, -, hok⟩ | ⟨e, -, herr, -⟩⟩ := tlvParse_cases bs
  · cases hok.symm.trans h
    exact ⟨hs, by simpa [hrem] using hbs⟩
  · cases herr.symm.trans h

theorem tlvParse_eq_error_iff_ending {bs : List Byte} {e : TlvError} :
    tlvParse bs = .error e ↔ (tlvScanAll bs).ending = .error e := by
  unfold tlvParse
  cases (tlvScanAll bs).ending <;> simp

/-- All that `tlv_parse` refuses: attributes, then something a pass stops at. -/
theorem tlvParse_eq_error_iff {bs : List Byte} {e : TlvError} :
    tlvParse bs = .error e ↔
      ∃ as rem, Supported as ∧ bs = tlvBytes as ++ rem ∧ StopsAt (tlvBytes as).length rem (.error e) := by
  rw [tlvParse_eq_error_iff_ending]
  constructor
  · intro hend
    obtain ⟨as, rem, hbs, hs, -, hstop⟩ := tlvScanAll_spec bs
    exact ⟨as, rem, hs, hbs, hend ▸ hstop⟩
  · rintro ⟨as, rem, hs, rfl, hstop⟩
    rw [tlvScanAll_of hs hstop]

theorem stopsAt_unsupportedLength_iff {c off : Nat} {rem : List Byte} :
    StopsAt c rem (.error (.unsupportedLength off)) ↔
      off = c ∧ ∃ tag len tail, rem = tag :: len :: tail ∧ 128 ≤ len.toNat := by
  constructor
  · rintro ⟨⟩
    case unsupported tag len tail h => exact ⟨rfl, tag, len, tail, rfl, h⟩
  · rintro ⟨rfl, tag, len, tail, rfl, h⟩
    exact .unsupported tag len tail h

theorem stopsAt_truncated_iff {c off : Nat} {rem : List Byte} :
    StopsAt c rem (.error (.truncated off)) ↔
      off = c ∧ ((∃ tag, rem = [tag]) ∨
        ∃ tag len tail, rem = tag :: len :: tail ∧ len.toNat ≤ 127 ∧ tail.length < len.toNat) := by
  constructor
  · rintro ⟨⟩
    case noLength tag => exact ⟨rfl, .inl ⟨tag, rfl⟩⟩
    case shortValue tag len tail h hs => exact ⟨rfl, .inr ⟨tag, len, tail, rfl, h, hs⟩⟩
  · rintro ⟨rfl, ⟨tag, rfl⟩ | ⟨tag, len, tail, rfl, h, hs⟩⟩
    · exact .noLength tag
    · exact .shortValue tag len tail h hs

/-- Settles O50, by what a pass stops at. -/
theorem parsingStopsAtTheFirstBadAttribute : Obligations.ParsingStopsAtTheFirstBadAttribute := by
  refine ⟨fun bs off => ?_, fun bs off => ?_⟩
  · rw [tlvParse_eq_error_iff]
    constructor
    · rintro ⟨as, rem, hs, hbs, hstop⟩
      obtain ⟨hoff, tag, len, tail, rfl, hlen⟩ := stopsAt_unsupportedLength_iff.mp hstop
      exact ⟨as, tag, len, tail, hs, hbs, hlen, hoff⟩
    · rintro ⟨as, tag, len, tail, hs, hbs, hlen, hoff⟩
      exact ⟨as, _, hs, hbs, stopsAt_unsupportedLength_iff.mpr ⟨hoff, tag, len, tail, rfl, hlen⟩⟩
  · rw [tlvParse_eq_error_iff]
    constructor
    · rintro ⟨as, rem, hs, hbs, hstop⟩
      obtain ⟨hoff, hrem⟩ := stopsAt_truncated_iff.mp hstop
      exact ⟨as, rem, hs, hbs, hoff, hrem⟩
    · rintro ⟨as, rem, hs, hbs, hoff, hrem⟩
      exact ⟨as, rem, hs, hbs, stopsAt_truncated_iff.mpr ⟨hoff, hrem⟩⟩

/-! ## Parsed attributes as table entries -/

theorem toNat_lengthByte {n : Nat} (h : n ≤ Config.maxAttrLen) : (BitVec.ofNat 8 n).toNat = n := by
  rw [BitVec.toNat_ofNat]
  exact Nat.mod_eq_of_lt (h.trans_lt (by decide))

theorem ibufBytes_add (s : State) (start m n : Nat) :
    ibufBytes s start (m + n) = ibufBytes s start m ++ ibufBytes s (start + m) n := by
  simp [ibufBytes, List.range_add, Nat.add_assoc]

/-- The entries that TLV_PARSE writes for these attributes of a window that starts at `base` (R133). -/
def entriesOf (base : Nat) (as : List Attr) : List AtabEntry := (withOffsets 0 as).map (entryOf base)

@[simp] theorem length_entriesOf (base : Nat) (as : List Attr) : (entriesOf base as).length = as.length := by
  simp [entriesOf]

theorem entriesSize_entriesOf (base : Nat) {as : List Attr} (hs : Supported as) :
    entriesSize (entriesOf base as) = (tlvBytes as).length := entriesSize_entryOf base hs 0

/-- Where IBUF holds the bytes of attributes, the entry of each points at its value. -/
theorem entryValue_entryOf {s : State} {base : Nat} {as : List Attr} (hs : Supported as) {cur : Nat}
    (hread : ibufBytes s (base + cur) (tlvBytes as).length = tlvBytes as)
    (hfit : base + cur + (tlvBytes as).length < 2 ^ 32) :
    ∀ found ∈ withOffsets cur as, entryValue s (entryOf base found) = found.2.value := by
  induction as generalizing cur with
  | nil => simp [withOffsets]
  | cons a as ih =>
    obtain ⟨ha, has⟩ := List.forall_mem_cons.mp hs
    have hlen : (tlvBytes (a :: as)).length = 2 + a.value.length + (tlvBytes as).length := by simp
    have hcur : base + (cur + 2 + a.value.length) = base + cur + (2 + a.value.length) := by omega
    have hbytes : tlvBytes (a :: as) = [a.tag, BitVec.ofNat 8 a.value.length] ++ a.value ++ tlvBytes as := rfl
    rw [hlen, ibufBytes_add, ibufBytes_add, hbytes] at hread
    obtain ⟨hhead, htail⟩ := List.append_inj hread (by simp; omega)
    obtain ⟨-, hvalue⟩ := List.append_inj hhead (by simp)
    rw [hlen] at hfit
    refine List.forall_mem_cons.mpr ⟨?_, ih has (by rwa [hcur]) (by omega)⟩
    rwa [entryValue, entryOf, toNat_lengthByte ha, toNat_ofNat_word (by omega)]

/-- Where IBUF holds the bytes of attributes, their entries spell them out again. -/
theorem flatMap_entriesOf {s : State} {base : Nat} {as : List Attr} (hs : Supported as)
    (hread : ibufBytes s base (tlvBytes as).length = tlvBytes as) (hfit : base + (tlvBytes as).length < 2 ^ 32) :
    ((entriesOf base as).flatMap fun e => e.tag :: e.len :: entryValue s e) = tlvBytes as := by
  have hvalue := entryValue_entryOf hs (cur := 0) hread hfit
  calc ((entriesOf base as).flatMap fun e => e.tag :: e.len :: entryValue s e)
      = (withOffsets 0 as).flatMap fun found => attrBytes found.2 := by
        rw [entriesOf, List.flatMap_map]
        exact List.flatMap_congr fun found hmem => by rw [hvalue found hmem]; rfl
    _ = ((withOffsets 0 as).map Prod.snd).flatMap attrBytes := (List.flatMap_map ..).symm
    _ = tlvBytes as := by rw [map_snd_withOffsets, tlvBytes]

/-- The state with these attributes of the window in the table, and CUR at the window's end (R133). -/
def withTable (s : State) (as : List Attr) : State :=
  { s with
    atab := writeAtab (entriesOf s.soff.toNat as) s.atab, acnt := BitVec.ofNat 32 as.length, cur := s.slen }

theorem validEntries_withTable (s : State) {as : List Attr} (h : as.length < 2 ^ 32) :
    validEntries (withTable s as) = entriesOf s.soff.toNat as :=
  validEntries_writeAtab rfl ((toNat_ofNat_word h).trans (length_entriesOf ..).symm)

/-! ## The commands by their cases -/

/-- The offset that an error of `tlv_parse` carries. -/
def TlvError.offset : TlvError → Nat
  | .unsupportedLength offset | .truncated offset => offset

/-- The error that TLV_PARSE raises for one of `tlv_parse`. -/
def TlvError.raised : TlvError → CmdError
  | .unsupportedLength _ => .unsupportedLength
  | .truncated _ => .truncated

section
variable {s : State}

theorem exec_tlvParse_of_outOfRange (h : s.bufSize.val < s.soff.toNat + s.slen.toNat) :
    exec .tlvParse s = .next (raise .range s.soff { s with acnt := 0#32, cur := 0#32 }) :=
  if_neg (mt (windowInRange_iff s).mp h.not_ge)

theorem exec_tlvParse_of_error (h : s.soff.toNat + s.slen.toNat ≤ s.bufSize.val) {e : TlvError}
    (hparse : tlvParse (window s) = .error e) :
    ∃ table, exec .tlvParse s = .next (raise e.raised (BitVec.ofNat 32 e.offset)
      { s with atab := table, acnt := 0#32, cur := BitVec.ofNat 32 e.offset }) := by
  have hend := tlvParse_eq_error_iff_ending.mp hparse
  refine ⟨writeAtab ((tlvScanAll (window s)).found.map (entryOf s.soff.toNat)) s.atab, ?_⟩
  cases e <;> simp [exec, execTlvParse, windowInRange_iff, h, hend, TlvError.offset, TlvError.raised]

theorem exec_tlvParse_of_ok (h : s.soff.toNat + s.slen.toNat ≤ s.bufSize.val) {as : List Attr}
    (hparse : tlvParse (window s) = .ok as) :
    exec .tlvParse s = .next (succeed (withTable s as)) := by
  obtain ⟨hs, hwin⟩ := tlvParse_eq_ok_iff.mp hparse
  have hscan := tlvScanAll_tlvBytes hs
  rw [← hwin, length_window] at hscan
  simp [exec, execTlvParse, windowInRange_iff, h, hscan, withTable, entriesOf]

theorem exec_tlvPut_of_outOfRange (tag : Byte) (h : s.bufSize.val < s.soff.toNat + s.slen.toNat) :
    exec (.tlvPut tag) s = .next (raise .range s.soff s) :=
  if_neg (mt (windowInRange_iff s).mp h.not_ge)

theorem exec_tlvPut_of_unsupported (tag : Byte) (h : s.soff.toNat + s.slen.toNat ≤ s.bufSize.val)
    (hlen : 127 < s.slen.toNat) : exec (.tlvPut tag) s = .next (raise .unsupportedLength s.slen s) :=
  (if_pos ((windowInRange_iff s).mpr h)).trans (if_neg hlen.not_ge)

theorem exec_tlvPut_of_overflow (tag : Byte) (h : s.soff.toNat + s.slen.toNat ≤ s.bufSize.val)
    (hlen : s.slen.toNat ≤ 127) (hfull : s.bufSize.val < s.olen.toNat + 2 + s.slen.toNat) :
    exec (.tlvPut tag) s =
      .next (raise .overflow (BitVec.ofNat 32 (s.olen.toNat + 2 + s.slen.toNat)) s) :=
  (if_pos ((windowInRange_iff s).mpr h)).trans ((if_pos hlen).trans (if_neg hfull.not_ge))

theorem exec_tlvPut_of_fits (tag : Byte) (h : s.soff.toNat + s.slen.toNat ≤ s.bufSize.val)
    (hlen : s.slen.toNat ≤ 127) (hfit : s.olen.toNat + 2 + s.slen.toNat ≤ s.bufSize.val) :
    exec (.tlvPut tag) s =
      .next (succeed (appendAttr tag (BitVec.ofNat 8 s.slen.toNat) (window s) s)) := by
  rw [BitVec.ofNat_toNat]
  exact (if_pos ((windowInRange_iff s).mpr h)).trans ((if_pos hlen).trans (if_pos hfit))

theorem exec_tlvPuta_of_outOfRange {k : Half} (h : s.acnt.toNat ≤ k.toNat) :
    exec (.tlvPuta k) s = .next (raise .range (k.setWidth 32) s) :=
  if_neg h.not_gt

theorem exec_tlvPuta_of_overflow {k : Half} (h : k.toNat < s.acnt.toNat)
    (hfull : s.bufSize.val < s.olen.toNat + 2 + (atabEntry s k.toNat).len.toNat) :
    exec (.tlvPuta k) s =
      .next (raise .overflow (BitVec.ofNat 32 (s.olen.toNat + 2 + (atabEntry s k.toNat).len.toNat)) s) :=
  (if_pos h).trans (if_neg hfull.not_ge)

theorem exec_tlvPuta_of_fits {k : Half} (h : k.toNat < s.acnt.toNat)
    (hfit : s.olen.toNat + 2 + (atabEntry s k.toNat).len.toNat ≤ s.bufSize.val) :
    exec (.tlvPuta k) s = .next (succeed (appendEntry s (atabEntry s k.toNat))) :=
  (if_pos h).trans (if_pos hfit)

theorem exec_tlvBuild (s : State) :
    exec .tlvBuild s = .next (succeed ((validEntries s).foldl appendEntry { s with olen := 0#32 })) := rfl

/-! ## The round trip in commands -/

/-- Entries that fit in OBUF, appended from OLEN 0, stay within the 32 bits of OLEN. -/
theorem olen_zero_add_entriesSize_lt {es : List AtabEntry} (hsize : entriesSize es ≤ s.bufSize.val) :
    ({ s with olen := 0#32 } : State).olen.toNat + entriesSize es < 2 ^ 32 := by
  have hlt := bufSize_lt s.bufSize
  show 0 + entriesSize es < 2 ^ 32
  omega

/-- TLV_BUILD leaves as many bytes as the valid entries take. -/
theorem olen_tlvBuild (hsize : entriesSize (validEntries s) ≤ s.bufSize.val) :
    (succeed ((validEntries s).foldl appendEntry { s with olen := 0#32 })).olen.toNat =
      entriesSize (validEntries s) :=
  (olen_appendEntries (validEntries s) _ (olen_zero_add_entriesSize_lt hsize)).trans (Nat.zero_add _)

/-- TLV_BUILD leaves each valid entry with the value bytes IBUF holds. -/
theorem validOutput_tlvBuild (hsize : entriesSize (validEntries s) ≤ s.bufSize.val) :
    validOutput (succeed ((validEntries s).foldl appendEntry { s with olen := 0#32 })) =
      (validEntries s).flatMap fun e => e.tag :: e.len :: entryValue s e := by
  refine (validOutput_appendEntries (validEntries s) _ (olen_zero_add_entriesSize_lt hsize)).trans ?_
  rw [validOutput_of_olen_zero rfl]
  rfl

/-- The 32 bits of ACNT hold the number of attributes of a window. -/
theorem length_lt_of_tlvParse_window {as : List Attr} (hparse : tlvParse (window s) = .ok as) :
    as.length < 2 ^ 32 := by
  obtain ⟨-, hwin⟩ := tlvParse_eq_ok_iff.mp hparse
  have hcount := two_mul_length_le as
  rw [← hwin, length_window] at hcount
  omega

/-- TLV_PARSE without an error: the window parses, and the table holds the entries of its attributes. -/
theorem tlvParse_succeeded {t : State} (h : exec .tlvParse s = .next t) (herr : t.status.err = false) :
    s.soff.toNat + s.slen.toNat ≤ s.bufSize.val ∧
      ∃ as, tlvParse (window s) = .ok as ∧ t = succeed (withTable s as) := by
  rcases Nat.lt_or_ge s.bufSize.val (s.soff.toNat + s.slen.toNat) with hout | hin
  · rw [exec_tlvParse_of_outOfRange hout] at h
    cases h
    cases herr
  match hparse : tlvParse (window s) with
  | .error e =>
    obtain ⟨table, hrun⟩ := exec_tlvParse_of_error hin hparse
    cases hrun.symm.trans h
    cases herr
  | .ok as =>
    cases (exec_tlvParse_of_ok hin hparse).symm.trans h
    exact ⟨hin, as, rfl, rfl⟩

/-- TLV_BUILD after a TLV_PARSE that put these attributes into the table. -/
theorem validOutput_tlvBuild_withTable (hin : s.soff.toNat + s.slen.toNat ≤ s.bufSize.val) {as : List Attr}
    (hparse : tlvParse (window s) = .ok as) {t : State} (ht : t = succeed (withTable s as)) :
    validOutput (succeed ((validEntries t).foldl appendEntry { t with olen := 0#32 })) = window s := by
  obtain ⟨hs, hwin⟩ := tlvParse_eq_ok_iff.mp hparse
  have hlen : (tlvBytes as).length = s.slen.toNat := by rw [← hwin, length_window]
  have hlt := bufSize_lt s.bufSize
  have hread : ibufBytes t s.soff.toNat (tlvBytes as).length = tlvBytes as := by
    rw [hlen, ← hwin, ht]
    rfl
  have htab : validEntries t = entriesOf s.soff.toNat as :=
    ht ▸ validEntries_withTable s (length_lt_of_tlvParse_window hparse)
  have hbuf : t.bufSize = s.bufSize := ht ▸ rfl
  rw [validOutput_tlvBuild (by rw [htab, entriesSize_entriesOf _ hs, hbuf]; omega), htab,
    flatMap_entriesOf hs hread (by omega), hwin]

end

/-- Settles O49: the codec on lists; in commands, the entries of the table spell the window out again. -/
theorem parseThenBuild : Obligations.ParseThenBuild := by
  refine ⟨fun bs as h => ?_, fun bs cs as h h' => ?_, fun s t h herr => ?_⟩
  · obtain ⟨hs, rfl⟩ := tlvParse_eq_ok_iff.mp h
    exact tlvBuild_of_supported hs
  · exact (tlvParse_eq_ok_iff.mp h).2.trans (tlvParse_eq_ok_iff.mp h').2.symm
  · obtain ⟨hin, as, hparse, ht⟩ := tlvParse_succeeded h herr
    exact ⟨_, exec_tlvBuild t, validOutput_tlvBuild_withTable hin hparse ht⟩

/-! ## TLV_PUT and TLV_PUTA -/

theorem onlyChanges_appendAttr (tag len : Byte) (value : List Byte) (s : State) :
    OnlyChanges [.obuf, .olen] s (appendAttr tag len value s) := by
  refine ⟨fun p hp => ?_, rfl, rfl, rfl, rfl, rfl⟩
  cases p with
  | obuf | olen => exact absurd hp (by decide)
  | ibuf | atab => exact fun _ => rfl
  | _ => rfl

/-- A command that appends to OBUF and completes. -/
theorem succeedsChanging_appendAttr (tag len : Byte) (value : List Byte) (s : State) :
    SucceedsChanging [.obuf, .olen] s (succeed (appendAttr tag len value s)) :=
  (onlyChanges_appendAttr tag len value s).succeedsChanging (by decide)

/-- The bytes of OBUF that an append does not cover. -/
theorem obufByte_appendAttr_outside {tag len : Byte} {value : List Byte} {s : State} {j : Nat}
    (hj : j < s.olen.toNat ∨ s.olen.toNat + 2 + value.length ≤ j) :
    obufByte (appendAttr tag len value s) j = obufByte s j := by
  rw [obufByte_appendAttr, dif_neg (by omega)]

/-- R134 gives the word of TLV_PUT. -/
theorem decode_tlvPut_word (imm8 : Byte) :
    decode (0x31000000#32 ||| imm8.setWidth 32 <<< 16) = .ok (.tlvPut imm8) :=
  (congrArg decode (wordA_eq_shift_or 0x31#8 imm8).symm).trans (decode_encode (.tlvPut imm8))

/-- R135 gives the word of TLV_PUTA. -/
theorem decode_tlvPuta_word (imm16 : Half) :
    decode (0x32000000#32 ||| imm16.setWidth 32) = .ok (.tlvPuta imm16) :=
  (congrArg decode (wordB_eq_shift_or 0x32#8 imm16).symm).trans (decode_encode (.tlvPuta imm16))

/-- An append that fits in OBUF: the OLEN, the valid output, the bytes outside, and what else changes. -/
theorem appendAttr_spec {tag len : Byte} {value : List Byte} {s : State} {n : Nat} (hn : value.length = n)
    (hfit : s.olen.toNat + 2 + n ≤ s.bufSize.val) :
    let t := succeed (appendAttr tag len value s)
    t.olen.toNat = s.olen.toNat + 2 + n ∧ validOutput t = validOutput s ++ (tag :: len :: value) ∧
      (∀ j, j < s.olen.toNat ∨ s.olen.toNat + 2 + n ≤ j → obufByte t j = obufByte s j) ∧
      SucceedsChanging [.obuf, .olen] s t := by
  subst hn
  have hlt := bufSize_lt s.bufSize
  have hword : appendedLen s value.length < 2 ^ 32 := by rw [appendedLen]; omega
  exact ⟨toNat_ofNat_word hword, validOutput_appendAttr hword, fun _ hj => obufByte_appendAttr_outside hj,
    succeedsChanging_appendAttr ..⟩

/-- Settles O45, by the cases of its checks. -/
theorem tlvPutResult : Obligations.TlvPutResult := by
  intro imm8 s
  refine ⟨decode_tlvPut_word imm8, fun hout => ?_, fun hin hlen => ?_, fun hin hlen hfull => ?_,
    fun hin hlen hfit => ?_⟩
  · exact ⟨_, exec_tlvPut_of_outOfRange imm8 hout, (OnlyChanges.refl s).failsChanging _ _⟩
  · exact ⟨_, exec_tlvPut_of_unsupported imm8 hin hlen, (OnlyChanges.refl s).failsChanging _ _⟩
  · exact ⟨_, exec_tlvPut_of_overflow imm8 hin hlen hfull, (OnlyChanges.refl s).failsChanging _ _⟩
  · have hsup : Supported [⟨imm8, window s⟩] := by simpa [Supported, Config.maxAttrLen] using hlen
    have hbytes : tlvBytes [⟨imm8, window s⟩] = imm8 :: BitVec.ofNat 8 s.slen.toNat :: window s := by
      simp [attrBytes]
    exact ⟨_, _, exec_tlvPut_of_fits imm8 hin hlen hfit, (tlvBuild_of_supported hsup).trans (congrArg some hbytes), rfl,
      appendAttr_spec (length_window s) hfit⟩

/-- Settles O46, by the cases of its checks. -/
theorem tlvPutaResult : Obligations.TlvPutaResult := by
  intro imm16 s
  refine ⟨decode_tlvPuta_word imm16, fun hout => ?_, fun hin hfull => ?_, fun hin hfit => ?_⟩
  · exact ⟨_, exec_tlvPuta_of_outOfRange hout, (OnlyChanges.refl s).failsChanging _ _⟩
  · exact ⟨_, exec_tlvPuta_of_overflow hin hfull, (OnlyChanges.refl s).failsChanging _ _⟩
  · exact ⟨_, exec_tlvPuta_of_fits hin hfit, appendAttr_spec (length_entryValue s _) hfit⟩

/-! ## Statelessness -/

/-- What R142 calls the result of TLV_PARSE. -/
def ParseResultsAgree (t t' : State) : Prop :=
  t.status.err = t'.status.err ∧ t.status.ecode = t'.status.ecode ∧ t.einfo = t'.einfo ∧ t.cur = t'.cur ∧
    t.acnt = t'.acnt ∧ validEntries t = validEntries t'

/-- What R142 calls the result of a command that appends at OLEN = `n`. -/
def AppendResultsAgree (n : Nat) (t t' : State) : Prop :=
  t.status.err = t'.status.err ∧ t.status.ecode = t'.status.ecode ∧ t.einfo = t'.einfo ∧ t.olen = t'.olen ∧
    (validOutput t).drop n = (validOutput t').drop n

/-- What R142 calls the result of TLV_BUILD. -/
def BuildResultsAgree (t t' : State) : Prop :=
  t.status.err = t'.status.err ∧ t.olen = t'.olen ∧ validOutput t = validOutput t'

theorem validEntries_of_acnt_zero {s : State} (h : s.acnt = 0#32) : validEntries s = [] := by
  simp [validEntries, h]

/-- Two errors with one code and info, the table emptied. -/
theorem parseResultsAgree_raise (e : CmdError) {info info' : Word} {u u' : State} (hinfo : info = info')
    (hcur : u.cur = u'.cur) (hacnt : u.acnt = 0#32) (hacnt' : u'.acnt = 0#32) :
    ParseResultsAgree (raise e info u) (raise e info' u') :=
  ⟨rfl, rfl, hinfo, hcur, hacnt.trans hacnt'.symm,
    (validEntries_of_acnt_zero hacnt).trans (validEntries_of_acnt_zero hacnt').symm⟩

/-- Two errors with one code and info that append nothing. -/
theorem appendResultsAgree_raise (e : CmdError) {info info' : Word} {s s' : State} (hinfo : info = info')
    (holen : s.olen = s'.olen) : AppendResultsAgree s.olen.toNat (raise e info s) (raise e info' s') := by
  refine ⟨rfl, rfl, hinfo, holen, ?_⟩
  rw [List.drop_of_length_le (by simp), List.drop_of_length_le (by simp [holen])]

/-- The same bytes appended to two outputs of one length. -/
theorem appendResultsAgree_appendAttr (tag len : Byte) {value : List Byte} {s s' : State} (holen : s.olen = s'.olen)
    (hfit : s.olen.toNat + 2 + value.length ≤ s.bufSize.val) :
    AppendResultsAgree s.olen.toNat (succeed (appendAttr tag len value s)) (succeed (appendAttr tag len value s')) := by
  have hlt := bufSize_lt s.bufSize
  have hword : appendedLen s value.length < 2 ^ 32 := by rw [appendedLen]; omega
  have hword' : appendedLen s' value.length < 2 ^ 32 := by rwa [appendedLen, ← holen]
  refine ⟨rfl, rfl, rfl, by simp [appendedLen, holen], ?_⟩
  calc (validOutput (appendAttr tag len value s)).drop s.olen.toNat
      = tag :: len :: value := by rw [validOutput_appendAttr hword, List.drop_left' (length_validOutput s)]
    _ = (validOutput (appendAttr tag len value s')).drop s.olen.toNat := by
        rw [validOutput_appendAttr hword', holen, List.drop_left' (length_validOutput s')]

section
variable {s s' : State}

theorem tlvParse_resultsAgree (hop : SameOperands s s') :
    ∃ t t', exec .tlvParse s = .next t ∧ exec .tlvParse s' = .next t' ∧ ParseResultsAgree t t' := by
  obtain ⟨hbuf, hoff, hlen, hwin⟩ := hop
  rcases Nat.lt_or_ge s.bufSize.val (s.soff.toNat + s.slen.toNat) with hout | hin
  · exact ⟨_, _, exec_tlvParse_of_outOfRange hout, exec_tlvParse_of_outOfRange (by rwa [← hbuf, ← hoff, ← hlen]),
      parseResultsAgree_raise _ hoff rfl rfl rfl⟩
  have hin' : s'.soff.toNat + s'.slen.toNat ≤ s'.bufSize.val := by rwa [← hbuf, ← hoff, ← hlen]
  match hparse : tlvParse (window s) with
  | .error e =>
    obtain ⟨table, hrun⟩ := exec_tlvParse_of_error hin hparse
    obtain ⟨table', hrun'⟩ := exec_tlvParse_of_error hin' (hwin ▸ hparse)
    exact ⟨_, _, hrun, hrun', parseResultsAgree_raise _ rfl rfl rfl rfl⟩
  | .ok as =>
    have htab : validEntries (withTable s as) = validEntries (withTable s' as) := by
      have hcount := length_lt_of_tlvParse_window hparse
      rw [validEntries_withTable s hcount, validEntries_withTable s' hcount, hoff]
    exact ⟨_, _, exec_tlvParse_of_ok hin hparse, exec_tlvParse_of_ok hin' (hwin ▸ hparse),
      rfl, rfl, rfl, hlen, rfl, htab⟩

theorem tlvPut_resultsAgree (tag : Byte) (hop : SameOperands s s') (holen : s.olen = s'.olen) :
    ∃ t t', exec (.tlvPut tag) s = .next t ∧ exec (.tlvPut tag) s' = .next t' ∧
      AppendResultsAgree s.olen.toNat t t' := by
  obtain ⟨hbuf, hoff, hlen, hwin⟩ := hop
  rcases Nat.lt_or_ge s.bufSize.val (s.soff.toNat + s.slen.toNat) with hout | hin
  · exact ⟨_, _, exec_tlvPut_of_outOfRange tag hout, exec_tlvPut_of_outOfRange tag (by rwa [← hbuf, ← hoff, ← hlen]),
      appendResultsAgree_raise _ hoff holen⟩
  have hin' : s'.soff.toNat + s'.slen.toNat ≤ s'.bufSize.val := by rwa [← hbuf, ← hoff, ← hlen]
  rcases Nat.lt_or_ge 127 s.slen.toNat with hlong | hshort
  · exact ⟨_, _, exec_tlvPut_of_unsupported tag hin hlong, exec_tlvPut_of_unsupported tag hin' (hlen ▸ hlong),
      appendResultsAgree_raise _ hlen holen⟩
  have hshort' : s'.slen.toNat ≤ 127 := hlen ▸ hshort
  rcases Nat.lt_or_ge s.bufSize.val (s.olen.toNat + 2 + s.slen.toNat) with hfull | hfit
  · exact ⟨_, _, exec_tlvPut_of_overflow tag hin hshort hfull,
      exec_tlvPut_of_overflow tag hin' hshort' (by rwa [← hbuf, ← holen, ← hlen]),
      appendResultsAgree_raise _ (by rw [holen, hlen]) holen⟩
  · have hrun' := exec_tlvPut_of_fits tag hin' hshort' (by rwa [← hbuf, ← holen, ← hlen])
    rw [← hlen, ← hwin] at hrun'
    exact ⟨_, _, exec_tlvPut_of_fits tag hin hshort hfit, hrun',
      appendResultsAgree_appendAttr _ _ holen (by rwa [length_window])⟩

/-- What R142 lets TLV_PUTA and TLV_BUILD depend on besides OLEN. -/
structure SameTable (s s' : State) : Prop where
  entries : validEntries s = validEntries s'
  values : ∀ e ∈ validEntries s, entryValue s e = entryValue s' e

theorem SameTable.acnt (htab : SameTable s s') : s.acnt.toNat = s'.acnt.toNat := by
  rw [← length_validEntries, htab.entries, length_validEntries]

theorem atabEntry_mem_validEntries {k : Nat} (h : k < s.acnt.toNat) : atabEntry s k ∈ validEntries s :=
  List.mem_map_of_mem (List.mem_range.mpr h)

theorem SameTable.atabEntry_eq (htab : SameTable s s') {k : Nat} (h : k < s.acnt.toNat) :
    atabEntry s k = atabEntry s' k := by
  have hget := congrArg (·[k]?) htab.entries
  simpa [validEntries, h, htab.acnt ▸ h] using hget

theorem tlvPuta_resultsAgree (k : Half) (hbuf : s.bufSize = s'.bufSize) (htab : SameTable s s')
    (holen : s.olen = s'.olen) :
    ∃ t t', exec (.tlvPuta k) s = .next t ∧ exec (.tlvPuta k) s' = .next t' ∧
      AppendResultsAgree s.olen.toNat t t' := by
  rcases Nat.lt_or_ge k.toNat s.acnt.toNat with hin | hout
  · have hin' : k.toNat < s'.acnt.toNat := htab.acnt ▸ hin
    have hentry := htab.atabEntry_eq hin
    have hvalue := htab.values _ (atabEntry_mem_validEntries hin)
    rcases Nat.lt_or_ge s.bufSize.val (s.olen.toNat + 2 + (atabEntry s k.toNat).len.toNat) with hfull | hfit
    · exact ⟨_, _, exec_tlvPuta_of_overflow hin hfull,
        exec_tlvPuta_of_overflow hin' (by rwa [← hbuf, ← holen, ← hentry]),
        appendResultsAgree_raise _ (by rw [holen, hentry]) holen⟩
    · have hrun' := exec_tlvPuta_of_fits hin' (by rwa [← hbuf, ← holen, ← hentry])
      rw [← hentry, appendEntry, ← hvalue] at hrun'
      exact ⟨_, _, exec_tlvPuta_of_fits hin hfit, hrun',
        appendResultsAgree_appendAttr _ _ holen (by rwa [length_entryValue])⟩
  · exact ⟨_, _, exec_tlvPuta_of_outOfRange hout, exec_tlvPuta_of_outOfRange (htab.acnt ▸ hout),
      appendResultsAgree_raise _ rfl holen⟩

theorem tlvBuild_resultsAgree (hinv : s.Inv) (hinv' : s'.Inv) (htab : SameTable s s') :
    ∃ t t', exec .tlvBuild s = .next t ∧ exec .tlvBuild s' = .next t' ∧ BuildResultsAgree t t' := by
  refine ⟨_, _, exec_tlvBuild s, exec_tlvBuild s', rfl, ?_, ?_⟩
  · apply BitVec.eq_of_toNat_eq
    rw [olen_tlvBuild hinv.entries_size, olen_tlvBuild hinv'.entries_size, htab.entries]
  · rw [validOutput_tlvBuild hinv.entries_size, validOutput_tlvBuild hinv'.entries_size, ← htab.entries]
    exact List.flatMap_congr fun e he => by rw [htab.values e he]

/-- A command has one answer: what holds of some pair of answers holds of every pair. -/
theorem rel_of_exec {i : Instr} {t t' : State} {Rel : State → State → Prop}
    (h : ∃ u u', exec i s = .next u ∧ exec i s' = .next u' ∧ Rel u u') (ht : exec i s = .next t)
    (ht' : exec i s' = .next t') : Rel t t' := by
  obtain ⟨u, u', hu, hu', hrel⟩ := h
  cases hu.symm.trans ht
  cases hu'.symm.trans ht'
  exact hrel

end

/-- Settles O26: each command answers on both states, and the answers agree. -/
theorem tlvCommandsAreStateless : Obligations.TlvCommandsAreStateless := by
  refine ⟨fun s s' t t' hbuf hoff hlen hwin => ?_, fun tag s s' t t' hbuf hoff hlen hwin holen => ?_,
    fun k s s' t t' hbuf hentries hvalues holen => ?_, fun s s' t t' hinv hinv' hentries hvalues => ?_⟩
  · exact rel_of_exec (tlvParse_resultsAgree ⟨hbuf, hoff, hlen, hwin⟩)
  · exact rel_of_exec (tlvPut_resultsAgree tag ⟨hbuf, hoff, hlen, hwin⟩ holen)
  · exact rel_of_exec (tlvPuta_resultsAgree k hbuf ⟨hentries, hvalues⟩ holen)
  · exact rel_of_exec (tlvBuild_resultsAgree hinv hinv' ⟨hentries, hvalues⟩)

end Sys2Proof.Machine
end

section
/-! PROOFS. The buffer and control commands NOP and MOV_O2I (spec/43_buffer_control.md R150, R152). -/

namespace Sys2Proof.Machine

/-! ## NOP -/

theorem exec_nop (s : State) : exec .nop s = .next (succeed s) := rfl

/-- After a success only STICKY can be left in STATUS, and it is bit 1 (R23, R194). -/
theorem word_succeeded (st : Status) : st.succeeded.word = if st.sticky then 0x00000002#32 else 0x00000000#32 := by
  have hword : ∀ sticky : Bool,
      (Status.mk false sticky 0#8).word = if sticky then 0x00000002#32 else 0x00000000#32 := by decide
  exact hword st.sticky

/-- Settles O27: NOP is a success after no change. -/
theorem nopResult : Obligations.NopResult :=
  ⟨by decide, fun s => ⟨_, exec_nop s, (OnlyChanges.refl s).succeedsChanging (by decide),
    fun hsticky => (word_succeeded s.status).trans (if_pos hsticky)⟩⟩

/-! ## MOV_O2I -/

/-- The state with the valid output copied to the start of IBUF, and the window onto the copy (R152). -/
def withOutputInWindow (s : State) : State :=
  { s with ibuf := s.ibuf.writeBytes 0 (validOutput s), soff := 0#32, slen := s.olen }

/-- Every byte of IBUF after the copy. -/
theorem ibufByte_withOutputInWindow (s : State) (j : Nat) :
    ibufByte (withOutputInWindow s) j = if j < s.olen.toNat then obufByte s j else ibufByte s j := by
  have hread := getD_read?_writeBytes s.ibuf 0 (validOutput s) j (Config.ibufAtReset s.resets j)
  simpa [ibufByte, withOutputInWindow, getElem_validOutput] using hread

theorem onlyChanges_withOutputInWindow (s : State) : OnlyChanges [.ibuf, .soff, .slen] s (withOutputInWindow s) := by
  refine ⟨fun p hp => ?_, rfl, rfl, rfl, rfl, rfl⟩
  cases p with
  | ibuf | soff | slen => exact absurd hp (by decide)
  | obuf | atab => exact fun _ => rfl
  | _ => rfl

/-- Settles O29: MOV_O2I is the copy and a success; a byte of IBUF is below OLEN or not. -/
theorem movO2iResult : Obligations.MovO2iResult := by
  refine ⟨by decide, fun s => ⟨succeed (withOutputInWindow s), exec_movO2i s, fun j hj => ?_, fun j hj => ?_, rfl, rfl,
    window_movO2i s, (onlyChanges_withOutputInWindow s).succeedsChanging (by decide)⟩⟩
  · exact (ibufByte_withOutputInWindow s j).trans (if_pos hj)
  · exact (ibufByte_withOutputInWindow s j).trans (if_neg hj.not_gt)

end Sys2Proof.Machine
end

section
/-! PROOFS. The host software (spec/44_host_protocol.md R164 to R166): the reply frames of the ProtocolHandler, and its
answer to a discovery request. -/

namespace Sys2Proof.Machine

/-! ## Reply frames -/

theorem replyFrame_eq_frameBytes (t : Half) {as : List Attr} (hs : Supported as) (hlen : (tlvBytes as).length ≤ 65535) :
    replyFrame t as = some (frameBytes t (tlvBytes as)) := by
  rw [replyFrame, tlvBuild_of_supported hs, Option.bind_some, frameEncode_of_le t hlen]

/-- A reply is read back by the two decoders as its type and its attributes, in their order. -/
theorem replyFrame_decodes (t : Half) {as : List Attr} (hs : Supported as) (hlen : (tlvBytes as).length ≤ 65535) :
    ∃ r q, replyFrame t as = some r ∧ frameDecode r = .ok (t, q) ∧ tlvParse q = .ok as :=
  ⟨_, _, replyFrame_eq_frameBytes t hs hlen, frameDecode_frameBytes t hlen, tlvParse_tlvBytes hs⟩

/-! ## The discovery reply -/

/-- The integers of a discovery reply take 4, 4 and 1 bytes, so the URL alone decides whether each value has a length
byte (R131, R163). -/
theorem supported_discoverAttrs (urlTag : Byte) {d : DeviceIdentity} (hurl : d.baseUrl.length ≤ 127) :
    Supported (discoverAttrs urlTag d) := by
  have hmax : Config.maxAttrLen = 127 := rfl
  simp [Supported, discoverAttrs, hmax, hurl]

theorem length_tlvBytes_discoverAttrs (urlTag : Byte) (d : DeviceIdentity) :
    (tlvBytes (discoverAttrs urlTag d)).length = 17 + d.baseUrl.length := by
  simp [discoverAttrs]
  omega

/-- The payload of a discovery request is not looked at (R165). -/
theorem protocolHandler_of_discoverReq (urlTag : Byte) (d : DeviceIdentity) {bs p : List Byte}
    (h : frameDecode bs = .ok (discoverReq, p)) :
    protocolHandler urlTag d bs = replyFrame discoverRpy (discoverAttrs urlTag d) := by
  simp [protocolHandler, h]

/-- Settles O53: the request decodes to its type, and the reply to the four attributes. -/
theorem discoveryReply : Obligations.DiscoveryReply := by
  intro urlTag d p hp hurl
  have hlen : (tlvBytes (discoverAttrs urlTag d)).length ≤ 65535 := by
    rw [length_tlvBytes_discoverAttrs]
    omega
  obtain ⟨r, q, hreply, hdec, hparse⟩ := replyFrame_decodes discoverRpy (supported_discoverAttrs urlTag hurl) hlen
  have hhandler := protocolHandler_of_discoverReq urlTag d (frameDecode_frameBytes discoverReq hp)
  exact ⟨r, q, hhandler.trans hreply, hdec, hparse⟩

end Sys2Proof.Machine
end

section
/-! PROOFS. Which words are commands (spec/30_encoding.md R75, R76, R78): the rows of the opcode map, the count of the
legal words, and the assembler's lines (R86). A word is legal when its op is a mnemonic's and the fields the mnemonic's
format does not use are zero. -/

namespace Sys2Proof

/-! ## Legal words -/

/-- Settles O1, by evaluation. -/
theorem decodeOfWordsWrittenOut : Obligations.DecodeOfWordsWrittenOut := by
  unfold Obligations.DecodeOfWordsWrittenOut
  decide

/-- The must-be-zero fields of the mnemonic's format are zero (R71 to R73). -/
def MustBeZero (m : Mnemonic) (w : Word) : Prop :=
  (m.format ≠ .A → fieldA w = 0#8) ∧ (m.format ≠ .B → fieldB w = 0#16)

theorem not_mustBeZero_iff {m : Mnemonic} {w : Word} :
    ¬ MustBeZero m w ↔ (m.format ≠ .A ∧ fieldA w ≠ 0#8) ∨ (m.format ≠ .B ∧ fieldB w ≠ 0#16) := by
  rw [MustBeZero, not_and_or, Classical.not_imp, Classical.not_imp]

section
variable {w : Word} {m : Mnemonic}

theorem decode_eq_unassignedOp_iff : decode w = .error .unassignedOp ↔ mnemonicOfOp (fieldOp w) = none := by
  unfold decode decodeFields
  cases mnemonicOfOp (fieldOp w) with
  | none => simp
  | some m => cases hf : m.format <;> simp [hf, ite_eq_iff]

/-- A word of an assigned op is refused for its must-be-zero fields alone. -/
theorem decode_eq_nonzeroMustBeZero_iff (hm : mnemonicOfOp (fieldOp w) = some m) :
    decode w = .error .nonzeroMustBeZero ↔ ¬ MustBeZero m w := by
  cases hf : m.format <;> simp [decode, decodeFields, hm, hf, MustBeZero]

/-- R76, with the three formats in one. -/
theorem exists_decode_iff : (∃ i, decode w = .ok i) ↔ ∃ m, mnemonicOfOp (fieldOp w) = some m ∧ MustBeZero m w := by
  cases hm : mnemonicOfOp (fieldOp w) with
  | none => simp [decode_eq_unassignedOp_iff.mpr hm]
  | some m =>
    have hzero := decode_eq_nonzeroMustBeZero_iff hm
    cases hd : decode w with
    | ok i => simpa [hd] using hzero
    | error r =>
      cases r with
      | unassignedOp => simp [decode_eq_unassignedOp_iff.mp hd] at hm
      | nonzeroMustBeZero => simpa [hd] using hzero

end

theorem mnemonic_instrOf (m : Mnemonic) (n : Nat) : (instrOf m n).toAsm.mnemonic = m := by
  cases m <;> rfl

theorem mnemonicOfOp_of_decode {w : Word} {i : Instr} (h : decode w = .ok i) :
    mnemonicOfOp (fieldOp w) = some i.toAsm.mnemonic := by
  obtain ⟨m, hm, ⟨-, -, rfl⟩ | ⟨-, -, rfl⟩ | ⟨-, -, rfl⟩⟩ := decodeFields_eq_ok_iff.mp h <;>
    rw [hm, mnemonic_instrOf]

/-! ## The rows of the opcode map -/

/-- The row of a mnemonic: its op, and a mask over the op and the fields that its format does not use. -/
def rowOf (m : Mnemonic) : OpcodeRow :=
  ⟨m, wordN (opOf (instrOf m 0)),
    BitVec.allOnes 8 ++ (if m.format = .A then 0#8 else BitVec.allOnes 8) ++
      (if m.format = .B then 0#16 else BitVec.allOnes 16)⟩

theorem opcodeRows_eq : opcodeRows = Machine.allMnemonics.map rowOf := by decide

theorem cat_eq_cat_iff {op op' a a' : Byte} {b b' : Half} :
    op ++ a ++ b = op' ++ a' ++ b' ↔ op = op' ∧ a = a' ∧ b = b' := by
  refine ⟨fun h => ⟨?_, ?_, ?_⟩, ?_⟩
  · simpa only [fieldOp_cat] using congrArg fieldOp h
  · simpa only [fieldA_cat] using congrArg fieldA h
  · simpa only [fieldB_cat] using congrArg fieldB h
  · rintro ⟨rfl, rfl, rfl⟩
    rfl

theorem mnemonicOfOp_eq_some_iff {op : Byte} {m : Mnemonic} :
    mnemonicOfOp op = some m ↔ op = opOf (instrOf m 0) := by
  refine ⟨fun h => eq_opOf_of_mnemonicOfOp h 0, ?_⟩
  rintro rfl
  exact mnemonicOfOp_opOf_instrOf m 0

theorem and_mask_eq_zero_iff {n : Nat} (x : BitVec n) (p : Prop) [Decidable p] :
    x &&& (if p then 0#n else BitVec.allOnes n) = 0#n ↔ (¬ p → x = 0#n) := by
  split <;> simp [*]

theorem rowOf_selects_iff (m : Mnemonic) (w : Word) :
    (rowOf m).selects w = true ↔ mnemonicOfOp (fieldOp w) = some m ∧ MustBeZero m w := by
  rw [OpcodeRow.selects, beq_iff_eq, rowOf, wordN, mnemonicOfOp_eq_some_iff, MustBeZero]
  conv_lhs => rw [← fields_cat w]
  rw [BitVec.and_append, BitVec.and_append, cat_eq_cat_iff, BitVec.and_allOnes, and_mask_eq_zero_iff,
    and_mask_eq_zero_iff]

theorem mem_allMnemonics (m : Mnemonic) : m ∈ Machine.allMnemonics := by cases m <;> decide

theorem exists_row_iff (w : Word) : (∃ r ∈ opcodeRows, r.selects w = true) ↔ ∃ i, decode w = .ok i := by
  rw [exists_decode_iff, opcodeRows_eq]
  simp [rowOf_selects_iff, mem_allMnemonics]

/-- A row that a word selects is the row of the mnemonic of its op. -/
theorem mnemonicOfOp_of_selects {w : Word} {r : OpcodeRow} (hr : r ∈ opcodeRows) (hsel : r.selects w = true) :
    mnemonicOfOp (fieldOp w) = some r.mnemonic := by
  rw [opcodeRows_eq] at hr
  obtain ⟨m, -, rfl⟩ := List.mem_map.mp hr
  exact ((rowOf_selects_iff m w).mp hsel).1

theorem length_selected_le_one (w : Word) : (opcodeRows.filter fun r => r.selects w).length ≤ 1 := by
  rw [← List.countP_eq_length_filter, opcodeRows_eq, List.countP_map]
  by_cases hsome : ∃ m ∈ Machine.allMnemonics, (rowOf m).selects w = true
  · obtain ⟨m, -, hm⟩ := hsome
    have hop := ((rowOf_selects_iff m w).mp hm).1
    have hsame : ∀ m' ∈ Machine.allMnemonics, (rowOf m').selects w = true → (m' == m) = true := fun m' _ hm' =>
      beq_iff_eq.mpr (Option.some.inj (((rowOf_selects_iff m' w).mp hm').1.symm.trans hop))
    calc _ ≤ Machine.allMnemonics.count m := List.countP_mono_left hsame
      _ ≤ 1 := List.nodup_iff_count_le_one.mp (by decide) m
  · exact (List.countP_eq_zero.mpr fun m hm hsel => hsome ⟨m, hm, hsel⟩).trans_le zero_le_one

/-- Settles O3, by the mnemonic of the word's op. -/
theorem opcodeRowsSelectTheLegalWords : Obligations.OpcodeRowsSelectTheLegalWords := fun w =>
  ⟨length_selected_le_one w, exists_row_iff w, fun _ hdec _ hr hsel =>
    Option.some.inj ((mnemonicOfOp_of_selects hr hsel).symm.trans (mnemonicOfOp_of_decode hdec))⟩

/-! ## The count of the legal words -/

/-- All the values of a field. -/
def allBits (n : Nat) : List (BitVec n) := (List.finRange (2 ^ n)).map BitVec.ofFin

theorem length_allBits (n : Nat) : (allBits n).length = 2 ^ n := by simp [allBits]

theorem mem_allBits {n : Nat} (b : BitVec n) : b ∈ allBits n :=
  List.mem_map.mpr ⟨b.toFin, List.mem_finRange _, rfl⟩

theorem nodup_allBits (n : Nat) : (allBits n).Nodup :=
  (List.nodup_finRange _).map fun _ _ h => congrArg BitVec.toFin h

theorem nodup_map_allBits {n : Nat} {f : BitVec n → Instr} (hf : Function.Injective f) :
    ((allBits n).map f).Nodup :=
  (nodup_allBits n).map hf

/-- Every command once: nine of format N, two of format A with each byte, two of format B with each half word. -/
def allCommands : List Instr :=
  [.nop, .crcInit, .crcBuf, .frmDec, .tlvParse, .obufClr, .tlvBuild, .movO2i, .srst] ++
    ((allBits 8).map .crcByte ++ (allBits 8).map .tlvPut) ++ ((allBits 16).map .frmEnc ++ (allBits 16).map .tlvPuta)

theorem length_allCommands : allCommands.length = 131593 := by
  simp [allCommands, length_allBits]

theorem mem_allCommands (i : Instr) : i ∈ allCommands := by
  cases i <;> simp [allCommands, mem_allBits]

theorem nodup_allCommands : allCommands.Nodup := by
  have hbyte := nodup_map_allBits (f := Instr.crcByte) fun _ _ => Instr.crcByte.inj
  have hput := nodup_map_allBits (f := Instr.tlvPut) fun _ _ => Instr.tlvPut.inj
  have henc := nodup_map_allBits (f := Instr.frmEnc) fun _ _ => Instr.frmEnc.inj
  have hputa := nodup_map_allBits (f := Instr.tlvPuta) fun _ _ => Instr.tlvPuta.inj
  simp [allCommands, List.nodup_append, hbyte, hput, henc, hputa, or_imp, forall_and]

theorem encode_injective {i j : Instr} (h : encode i = encode j) : i = j := by
  simpa [decode_encode] using congrArg decode h

/-- The op values that no mnemonic has. -/
def unassignedOps : List Byte := (allBits 8).filter fun op => (mnemonicOfOp op).isNone

theorem length_unassignedOps : unassignedOps.length = 243 := by decide +kernel

/-- Settles O4: the words of all commands, the ops without a mnemonic, and the must-be-zero fields. -/
theorem legalWordsAreCounted : Obligations.LegalWordsAreCounted := by
  refine ⟨⟨allCommands.map encode, nodup_allCommands.map fun _ _ => encode_injective,
    (List.length_map ..).trans length_allCommands, fun w => ?_⟩,
    ⟨unassignedOps, (nodup_allBits 8).filter _, length_unassignedOps, fun w => ?_⟩,
    fun w m hm => (decode_eq_nonzeroMustBeZero_iff hm).trans not_mustBeZero_iff⟩
  · rw [List.mem_map]
    constructor
    · rintro ⟨i, -, rfl⟩
      exact ⟨i, decode_encode i⟩
    · rintro ⟨i, hdec⟩
      exact ⟨i, mem_allCommands i, encode_of_decode hdec⟩
  · rw [decode_eq_unassignedOp_iff, unassignedOps, List.mem_filter]
    simp [mem_allBits]

/-! ## The assembler's lines -/

theorem wf_toAsm (i : Instr) : i.toAsm.wf = true := by
  cases i with
  | crcByte a | tlvPut a => exact decide_eq_true a.isLt
  | frmEnc b | tlvPuta b => exact decide_eq_true b.isLt
  | _ => rfl

theorem toInstr_toAsm (i : Instr) : i.toAsm.toInstr = some i := by
  rw [AsmCommand.toInstr, if_pos (wf_toAsm i), instrOf_toAsm]

theorem toInstr_of_not_admits {m : Mnemonic} {imm : Option Nat} (h : m.format.admits imm = false) :
    (AsmCommand.mk m imm).toInstr = none := by
  rw [AsmCommand.toInstr, AsmCommand.wf, h]
  rfl

/-- Settles O5, by what each format admits. -/
theorem assemblyIsExact : Obligations.AssemblyIsExact := by
  refine ⟨toInstr_toAsm, fun m n hf hn => ?_, fun m n hf hn => ?_, fun m n hf => ?_, fun m hf => ?_⟩ <;>
    refine toInstr_of_not_admits ?_
  · rw [hf]
    exact decide_eq_false hn.not_gt
  · rw [hf]
    exact decide_eq_false hn.not_gt
  · rw [hf]
    rfl
  · cases h : m.format with
    | N => exact absurd h hf
    | A | B => rfl

end Sys2Proof
end

section
/-! PROOFS. What every command does, said once: the ways it completes and the errors it raises, each with the state it
leaves. From it: every command answers (spec/60_exceptions.md R207), what it writes (spec/10_state.md R34), what it
leaves in STATUS and EINFO (R190 to R195), and that it reads no flag (R35). -/

namespace Sys2Proof.Machine

/-! ## The ways a command ends -/

/-- The command completes after changing `s` to `u`, and how (R194). SRST, which clears STICKY too, is apart. -/
inductive Completes (s : State) : Instr → State → Prop where
  | nop : Completes s .nop s
  | crcInit : Completes s .crcInit { s with crc := 0xFFFFFFFF#32 }
  | crcByte (b : Byte) : Completes s (.crcByte b) { s with crc := crcStep s.crc b }
  | crcBuf (hin : s.soff.toNat + s.slen.toNat ≤ s.bufSize.val) :
      Completes s .crcBuf { s with crc := crcRun s.crc (window s) }
  | frmEnc (ty : Half) (hin : s.soff.toNat + s.slen.toNat ≤ s.bufSize.val) (hfit : s.slen.toNat + 8 ≤ s.bufSize.val) :
      Completes s (.frmEnc ty) (setOutput (frameBytes ty (window s))
        { s with crc := not32 (crc32c (slice (frameBytes ty (window s)) 0 (s.slen.toNat + 4))) })
  | frmDec (hin : s.soff.toNat + s.slen.toNat ≤ s.bufSize.val) (ty : Half) (p : List Byte)
      (hdec : frameDecode (window s) = .ok (ty, p)) :
      Completes s .frmDec (setOutput p { s with crc := not32 (frameChecksum (window s)), ftype := ty })
  | tlvParse (hin : s.soff.toNat + s.slen.toNat ≤ s.bufSize.val) (as : List Attr)
      (hparse : Machine.tlvParse (window s) = .ok as) : Completes s .tlvParse (withTable s as)
  | obufClr : Completes s .obufClr { s with olen := 0#32 }
  | tlvPut (tag : Byte) (hin : s.soff.toNat + s.slen.toNat ≤ s.bufSize.val) (hlen : s.slen.toNat ≤ 127)
      (hfit : s.olen.toNat + 2 + s.slen.toNat ≤ s.bufSize.val) :
      Completes s (.tlvPut tag) (appendAttr tag (BitVec.ofNat 8 s.slen.toNat) (window s) s)
  | tlvPuta (k : Half) (hk : k.toNat < s.acnt.toNat)
      (hfit : s.olen.toNat + 2 + (atabEntry s k.toNat).len.toNat ≤ s.bufSize.val) :
      Completes s (.tlvPuta k) (appendEntry s (atabEntry s k.toNat))
  | tlvBuild : Completes s .tlvBuild ((validEntries s).foldl appendEntry { s with olen := 0#32 })
  | movO2i : Completes s .movO2i (withOutputInWindow s)

/-- The command raises `e(info)` after changing `s` to `u`, and why (the table of R190). -/
inductive Raises (s : State) : Instr → CmdError → Word → State → Prop where
  | crcBufRange (hout : s.bufSize.val < s.soff.toNat + s.slen.toNat) : Raises s .crcBuf .range s.soff s
  | frmEncRange (ty : Half) (hout : s.bufSize.val < s.soff.toNat + s.slen.toNat) :
      Raises s (.frmEnc ty) .range s.soff { s with olen := 0#32 }
  | frmEncOverflow (ty : Half) (hin : s.soff.toNat + s.slen.toNat ≤ s.bufSize.val)
      (hover : s.bufSize.val < s.slen.toNat + 8) :
      Raises s (.frmEnc ty) .overflow (BitVec.ofNat 32 (s.slen.toNat + 8)) { s with olen := 0#32 }
  | frmDecRange (hout : s.bufSize.val < s.soff.toNat + s.slen.toNat) :
      Raises s .frmDec .range s.soff { s with olen := 0#32 }
  | frmDecBadLength (hin : s.soff.toNat + s.slen.toNat ≤ s.bufSize.val)
      (hdec : frameDecode (window s) = .error .badLength) :
      Raises s .frmDec .badLength s.slen { s with olen := 0#32 }
  | frmDecBadChecksum (hin : s.soff.toNat + s.slen.toNat ≤ s.bufSize.val)
      (hdec : frameDecode (window s) = .error .badChecksum) :
      Raises s .frmDec .badChecksum (frameChecksum (window s))
        { s with crc := not32 (frameChecksum (window s)), olen := 0#32 }
  | tlvParseRange (hout : s.bufSize.val < s.soff.toNat + s.slen.toNat) :
      Raises s .tlvParse .range s.soff { s with acnt := 0#32, cur := 0#32 }
  | tlvParse (hin : s.soff.toNat + s.slen.toNat ≤ s.bufSize.val) (e : TlvError) (as : List Attr) (rem : List Byte)
      (hs : Supported as) (hwin : window s = tlvBytes as ++ rem) (hstop : StopsAt (tlvBytes as).length rem (.error e)) :
      Raises s .tlvParse e.raised (BitVec.ofNat 32 e.offset)
        { s with atab := writeAtab (entriesOf s.soff.toNat as) s.atab, acnt := 0#32, cur := BitVec.ofNat 32 e.offset }
  | tlvPutRange (tag : Byte) (hout : s.bufSize.val < s.soff.toNat + s.slen.toNat) :
      Raises s (.tlvPut tag) .range s.soff s
  | tlvPutUnsupported (tag : Byte) (hin : s.soff.toNat + s.slen.toNat ≤ s.bufSize.val) (hlong : 127 < s.slen.toNat) :
      Raises s (.tlvPut tag) .unsupportedLength s.slen s
  | tlvPutOverflow (tag : Byte) (hin : s.soff.toNat + s.slen.toNat ≤ s.bufSize.val) (hlen : s.slen.toNat ≤ 127)
      (hfull : s.bufSize.val < s.olen.toNat + 2 + s.slen.toNat) :
      Raises s (.tlvPut tag) .overflow (BitVec.ofNat 32 (s.olen.toNat + 2 + s.slen.toNat)) s
  | tlvPutaRange (k : Half) (hout : s.acnt.toNat ≤ k.toNat) : Raises s (.tlvPuta k) .range (k.setWidth 32) s
  | tlvPutaOverflow (k : Half) (hk : k.toNat < s.acnt.toNat)
      (hfull : s.bufSize.val < s.olen.toNat + 2 + (atabEntry s k.toNat).len.toNat) :
      Raises s (.tlvPuta k) .overflow (BitVec.ofNat 32 (s.olen.toNat + 2 + (atabEntry s k.toNat).len.toNat)) s

section
variable {i : Instr} {s u : State} {e : CmdError} {info : Word}

theorem offset_of_stopsAt {c : Nat} {rem : List Byte} {e : TlvError} (h : StopsAt c rem (.error e)) :
    e.offset = c := by
  cases h <;> rfl

/-- TLV_PARSE on a window that does not parse, with the entries accepted before the error. -/
theorem exec_tlvParse_of_stopsAt (hin : s.soff.toNat + s.slen.toNat ≤ s.bufSize.val) {e : TlvError} {as : List Attr}
    {rem : List Byte} (hs : Supported as) (hwin : window s = tlvBytes as ++ rem)
    (hstop : StopsAt (tlvBytes as).length rem (.error e)) :
    exec .tlvParse s = .next (raise e.raised (BitVec.ofNat 32 e.offset)
      { s with
        atab := writeAtab (entriesOf s.soff.toNat as) s.atab, acnt := 0#32, cur := BitVec.ofNat 32 e.offset }) := by
  have hscan : tlvScanAll (window s) = ⟨withOffsets 0 as, .error e⟩ := hwin ▸ tlvScanAll_of hs hstop
  cases e <;> simp [exec, execTlvParse, windowInRange_iff, hin, hscan, TlvError.offset, TlvError.raised, entriesOf]

theorem Completes.exec_eq (hu : Completes s i u) : exec i s = .next (succeed u) := by
  cases hu with
  | nop => exact exec_nop s
  | crcInit => exact exec_crcInit s
  | crcByte b => rfl
  | crcBuf hin => exact exec_crcBuf_of_inRange hin
  | frmEnc ty hin hfit => exact exec_frmEnc_of_fits ty hin hfit
  | frmDec hin ty p hdec => exact exec_frmDec_of_ok hin hdec
  | tlvParse hin as hparse => exact exec_tlvParse_of_ok hin hparse
  | obufClr => rfl
  | tlvPut tag hin hlen hfit => exact exec_tlvPut_of_fits tag hin hlen hfit
  | tlvPuta k hk hfit => exact exec_tlvPuta_of_fits hk hfit
  | tlvBuild => exact exec_tlvBuild s
  | movO2i => exact exec_movO2i s

theorem Raises.exec_eq (hu : Raises s i e info u) : exec i s = .next (raise e info u) := by
  cases hu with
  | crcBufRange hout => exact exec_crcBuf_of_outOfRange hout
  | frmEncRange ty hout => exact exec_frmEnc_of_outOfRange ty hout
  | frmEncOverflow ty hin hover => exact exec_frmEnc_of_overflow ty hin hover
  | frmDecRange hout => exact exec_frmDec_of_outOfRange hout
  | frmDecBadLength hin hdec => exact exec_frmDec_of_badLength hin hdec
  | frmDecBadChecksum hin hdec => exact exec_frmDec_of_badChecksum hin hdec
  | tlvParseRange hout => exact exec_tlvParse_of_outOfRange hout
  | tlvParse hin e as rem hs hwin hstop => exact exec_tlvParse_of_stopsAt hin hs hwin hstop
  | tlvPutRange tag hout => exact exec_tlvPut_of_outOfRange tag hout
  | tlvPutUnsupported tag hin hlong => exact exec_tlvPut_of_unsupported tag hin hlong
  | tlvPutOverflow tag hin hlen hfull => exact exec_tlvPut_of_overflow tag hin hlen hfull
  | tlvPutaRange k hout => exact exec_tlvPuta_of_outOfRange hout
  | tlvPutaOverflow k hk hfull => exact exec_tlvPuta_of_overflow hk hfull

/-- How a command on `s` can end in `t`. -/
inductive CommandEnd (i : Instr) (s t : State) : Prop where
  | completes (u : State) (hu : Completes s i u) (ht : t = succeed u)
  | raises (e : CmdError) (info : Word) (u : State) (hu : Raises s i e info u) (ht : t = raise e info u)
  | srst (hi : i = .srst) (ht : t = resetRegisters s)

/-- The command answers, and its answer comes about in one of the ways listed. -/
def Ends (i : Instr) (s : State) : Prop := ∃ t, exec i s = .next t ∧ CommandEnd i s t

theorem Completes.ends (hu : Completes s i u) : Ends i s := ⟨_, hu.exec_eq, .completes u hu rfl⟩

theorem Raises.ends (hu : Raises s i e info u) : Ends i s := ⟨_, hu.exec_eq, .raises e info u hu rfl⟩

theorem crcBuf_ends (s : State) : Ends .crcBuf s := by
  rcases Nat.lt_or_ge s.bufSize.val (s.soff.toNat + s.slen.toNat) with hout | hin
  · exact (Raises.crcBufRange hout).ends
  · exact (Completes.crcBuf hin).ends

theorem frmEnc_ends (ty : Half) (s : State) : Ends (.frmEnc ty) s := by
  rcases Nat.lt_or_ge s.bufSize.val (s.soff.toNat + s.slen.toNat) with hout | hin
  · exact (Raises.frmEncRange ty hout).ends
  rcases Nat.lt_or_ge s.bufSize.val (s.slen.toNat + 8) with hover | hfit
  · exact (Raises.frmEncOverflow ty hin hover).ends
  · exact (Completes.frmEnc ty hin hfit).ends

theorem frmDec_ends (s : State) : Ends .frmDec s := by
  rcases Nat.lt_or_ge s.bufSize.val (s.soff.toNat + s.slen.toNat) with hout | hin
  · exact (Raises.frmDecRange hout).ends
  match hdec : frameDecode (window s) with
  | .error .badLength => exact (Raises.frmDecBadLength hin hdec).ends
  | .error .badChecksum => exact (Raises.frmDecBadChecksum hin hdec).ends
  | .ok (ty, p) => exact (Completes.frmDec hin ty p hdec).ends

theorem tlvParse_ends (s : State) : Ends .tlvParse s := by
  rcases Nat.lt_or_ge s.bufSize.val (s.soff.toNat + s.slen.toNat) with hout | hin
  · exact (Raises.tlvParseRange hout).ends
  match hparse : tlvParse (window s) with
  | .error e =>
    obtain ⟨as, rem, hs, hwin, hstop⟩ := tlvParse_eq_error_iff.mp hparse
    exact (Raises.tlvParse hin e as rem hs hwin hstop).ends
  | .ok as => exact (Completes.tlvParse hin as hparse).ends

theorem tlvPut_ends (tag : Byte) (s : State) : Ends (.tlvPut tag) s := by
  rcases Nat.lt_or_ge s.bufSize.val (s.soff.toNat + s.slen.toNat) with hout | hin
  · exact (Raises.tlvPutRange tag hout).ends
  rcases Nat.lt_or_ge 127 s.slen.toNat with hlong | hlen
  · exact (Raises.tlvPutUnsupported tag hin hlong).ends
  rcases Nat.lt_or_ge s.bufSize.val (s.olen.toNat + 2 + s.slen.toNat) with hfull | hfit
  · exact (Raises.tlvPutOverflow tag hin hlen hfull).ends
  · exact (Completes.tlvPut tag hin hlen hfit).ends

theorem tlvPuta_ends (k : Half) (s : State) : Ends (.tlvPuta k) s := by
  rcases Nat.lt_or_ge k.toNat s.acnt.toNat with hk | hout
  · rcases Nat.lt_or_ge s.bufSize.val (s.olen.toNat + 2 + (atabEntry s k.toNat).len.toNat) with hfull | hfit
    · exact (Raises.tlvPutaOverflow k hk hfull).ends
    · exact (Completes.tlvPuta k hk hfit).ends
  · exact (Raises.tlvPutaRange k hout).ends

theorem exec_ends (i : Instr) (s : State) : Ends i s := by
  cases i with
  | nop => exact Completes.nop.ends
  | crcInit => exact Completes.crcInit.ends
  | crcByte b => exact (Completes.crcByte b).ends
  | crcBuf => exact crcBuf_ends s
  | frmEnc ty => exact frmEnc_ends ty s
  | frmDec => exact frmDec_ends s
  | tlvParse => exact tlvParse_ends s
  | obufClr => exact Completes.obufClr.ends
  | tlvPut tag => exact tlvPut_ends tag s
  | tlvPuta k => exact tlvPuta_ends k s
  | tlvBuild => exact Completes.tlvBuild.ends
  | movO2i => exact Completes.movO2i.ends
  | srst => exact ⟨_, rfl, .srst rfl rfl⟩

theorem exists_exec (i : Instr) (s : State) : ∃ t, exec i s = .next t := by
  obtain ⟨t, h, -⟩ := exec_ends i s
  exact ⟨t, h⟩

/-- All that the answer of a command can be. -/
theorem exec_cases {t : State} (h : exec i s = .next t) : CommandEnd i s t := by
  obtain ⟨t', h', hend⟩ := exec_ends i s
  cases h'.symm.trans h
  exact hend

theorem Completes.ne_srst (hu : Completes s i u) : i ≠ .srst := by
  rintro rfl
  cases hu

end

/-! ## What a command writes (R34) -/

theorem OnlyChanges.mono {ps qs : List Part} {s t : State} (h : OnlyChanges ps s t) (hsub : ps ⊆ qs) :
    OnlyChanges qs s t :=
  ⟨fun p hp => h.1 p (mt (@hsub p) hp), h.2⟩

theorem onlyChanges_olen (s : State) (n : Word) : OnlyChanges [.olen] s { s with olen := n } := by
  refine ⟨fun p hp => ?_, rfl, rfl, rfl, rfl, rfl⟩
  cases p with
  | olen => exact absurd hp (by decide)
  | ibuf | obuf | atab => exact fun _ => rfl
  | _ => rfl

theorem onlyChanges_ftype (s : State) (ty : Half) : OnlyChanges [.ftype] s { s with ftype := ty } := by
  refine ⟨fun p hp => ?_, rfl, rfl, rfl, rfl, rfl⟩
  cases p with
  | ftype => exact absurd hp (by decide)
  | ibuf | obuf | atab => exact fun _ => rfl
  | _ => rfl

theorem onlyChanges_acnt_cur (s : State) (n c : Word) : OnlyChanges [.acnt, .cur] s { s with acnt := n, cur := c } := by
  refine ⟨fun p hp => ?_, rfl, rfl, rfl, rfl, rfl⟩
  cases p with
  | acnt | cur => exact absurd hp (by decide)
  | ibuf | obuf | atab => exact fun _ => rfl
  | _ => rfl

theorem onlyChanges_atab (s : State) (table : List AtabEntry) : OnlyChanges [.atab] s { s with atab := table } := by
  refine ⟨fun p hp => ?_, rfl, rfl, rfl, rfl, rfl⟩
  cases p with
  | atab => exact absurd hp (by decide)
  | ibuf | obuf => exact fun _ => rfl
  | _ => rfl

theorem onlyChanges_output (s : State) (m : Memory) (n : Word) :
    OnlyChanges [.obuf, .olen] s { s with obuf := m, olen := n } := by
  refine ⟨fun p hp => ?_, rfl, rfl, rfl, rfl, rfl⟩
  cases p with
  | obuf | olen => exact absurd hp (by decide)
  | ibuf | atab => exact fun _ => rfl
  | _ => rfl

theorem onlyChanges_resetRegisters (s : State) : OnlyChanges Part.registers s (resetRegisters s) := by
  refine ⟨fun p hp => ?_, rfl, rfl, rfl, rfl, rfl⟩
  cases p with
  | ibuf | obuf | atab => exact fun _ => rfl
  | _ => exact absurd hp (by decide)

theorem onlyChanges_crc_olen (s : State) (c n : Word) : OnlyChanges [.olen, .crc] s { s with crc := c, olen := n } :=
  (onlyChanges_crc s c).trans (onlyChanges_olen _ n)

theorem onlyChanges_crc_ftype (s : State) (c : Word) (ty : Half) :
    OnlyChanges [.ftype, .crc] s { s with crc := c, ftype := ty } :=
  (onlyChanges_crc s c).trans (onlyChanges_ftype _ ty)

/-- The table and the two registers that speak of it. -/
theorem onlyChanges_table (s : State) (table : List AtabEntry) (n c : Word) :
    OnlyChanges [.acnt, .cur, .atab] s { s with atab := table, acnt := n, cur := c } :=
  (onlyChanges_atab s table).trans (onlyChanges_acnt_cur _ n c)

theorem onlyChanges_appendEntries (es : List AtabEntry) (s : State) :
    OnlyChanges [.obuf, .olen] s (es.foldl appendEntry s) := by
  obtain ⟨m, n, h⟩ := appendEntries_fields es s
  exact h ▸ onlyChanges_output s m n

section
variable {i : Instr} {s u : State} {e : CmdError} {info : Word}

theorem Completes.onlyChanges (hu : Completes s i u) : OnlyChanges (successWrites i) s u := by
  cases hu with
  | nop => exact OnlyChanges.refl s
  | crcInit | crcByte | crcBuf => exact onlyChanges_crc s _
  | frmEnc => exact (onlyChanges_crc s _).trans (onlyChanges_output _ _ _)
  | frmDec _ ty p =>
    exact ((onlyChanges_crc_ftype s _ ty).trans (onlyChanges_output _ _ _)).mono
      (qs := [.ftype, .obuf, .olen, .crc]) (by decide)
  | tlvParse => exact (onlyChanges_table s _ _ _).mono (by decide)
  | obufClr => exact onlyChanges_olen s _
  | tlvPut | tlvPuta => exact onlyChanges_appendAttr _ _ _ s
  | tlvBuild => exact ((onlyChanges_olen s 0#32).trans (onlyChanges_appendEntries _ _)).mono (by decide)
  | movO2i => exact onlyChanges_withOutputInWindow s

theorem Raises.onlyChanges (hu : Raises s i e info u) : OnlyChanges (errorWrites e.code i) s u := by
  cases hu with
  | crcBufRange | tlvPutRange | tlvPutUnsupported | tlvPutOverflow | tlvPutaRange | tlvPutaOverflow =>
    exact OnlyChanges.refl s
  | frmEncRange | frmEncOverflow | frmDecRange | frmDecBadLength => exact onlyChanges_olen s _
  | frmDecBadChecksum => exact onlyChanges_crc_olen s _ _
  | tlvParseRange => exact onlyChanges_acnt_cur s _ _
  | tlvParse _ e => cases e <;> exact onlyChanges_table s _ _ _

theorem Completes.succeedsChanging (hu : Completes s i u) : SucceedsChanging (successWrites i) s (succeed u) :=
  hu.onlyChanges.succeedsChanging (by cases hu <;> simp [successWrites])

theorem Raises.failsChanging (hu : Raises s i e info u) :
    FailsChanging e info (errorWrites e.code i) s (raise e info u) :=
  hu.onlyChanges.failsChanging e info

end

theorem exec_onlyChanges {i : Instr} {s t : State} (h : exec i s = .next t) :
    OnlyChanges (mayWrite i t.status) s t := by
  cases exec_cases h with
  | completes u hu ht => exact ht ▸ hu.succeedsChanging.2
  | raises e info u hu ht => exact ht ▸ hu.failsChanging.2
  | srst hi ht => exact hi ▸ ht ▸ (onlyChanges_resetRegisters s).mono (List.subset_append_right ..)

/-- Settles O24, by the ways a command ends. -/
theorem commandsWriteOnlyTheirParts : Obligations.CommandsWriteOnlyTheirParts := fun _ _ _ => exec_onlyChanges

/-! ## STATUS and EINFO after a command (R190 to R195) -/

/-- R35. -/
theorem exec_sticky {i : Instr} {s t : State} (h : exec i s = .next t) :
    t.status.sticky = (t.status.err || (s.status.sticky && decide (i ≠ .srst))) := by
  cases exec_cases h with
  | completes u hu ht =>
    obtain ⟨-, -, -, hsticky⟩ := hu.succeedsChanging.1
    subst ht
    simpa [hu.ne_srst] using hsticky
  | raises e info u hu ht => exact ht ▸ rfl
  | srst hi ht => simp [hi, ht]

theorem Raises.mem_raisedBy {i : Instr} {s u : State} {e : CmdError} {info : Word} (hu : Raises s i e info u) :
    e ∈ raisedBy i := by
  cases hu with
  | tlvParse _ e => cases e <;> simp [raisedBy, TlvError.raised]
  | _ => simp [raisedBy]

theorem frameChecksum_window (s : State) : frameChecksum (window s) = crc32c ((window s).take (s.slen.toNat - 4)) := by
  rw [frameChecksum, length_window, slice, List.drop_zero]

/-- Settles O23, by the ways a command ends and, for the info, by the error it raises. -/
theorem endOfEveryCommand : Obligations.EndOfEveryCommand := by
  intro i s t h
  refine ⟨fun herr => ?_, fun herr => ?_⟩
  · have hsticky := exec_sticky h
    rw [herr, Bool.false_or] at hsticky
    cases exec_cases h with
    | completes u hu ht => exact ⟨ht ▸ rfl, ht ▸ rfl, hsticky⟩
    | raises e info u hu ht => exact absurd herr (ht ▸ Bool.true_eq_false_eq_False)
    | srst hi ht => exact ⟨ht ▸ rfl, ht ▸ rfl, hsticky⟩
  · cases exec_cases h with
    | completes u hu ht => exact absurd herr (by simp [ht])
    | srst hi ht => exact absurd herr (by simp [ht])
    | raises e info u hu ht =>
      subst ht
      refine ⟨rfl, ⟨e, hu.mem_raisedBy, rfl⟩, ?_⟩
      cases hu with
      | frmDecBadChecksum => simp [CmdError.code, frameChecksum_window]
      | tlvParse hin e as rem hs hwin hstop =>
        have hparse := tlvParse_eq_error_iff.mpr ⟨as, rem, hs, hwin, hstop⟩
        cases e <;> simp [CmdError.code, TlvError.raised, TlvError.offset, hparse]
      | _ => simp [CmdError.code]

/-! ## No command reads a flag (R35) -/

/-- The state with STATUS changed. -/
def withStatus (st : Status) (s : State) : State := { s with status := st }

theorem appendEntries_withStatus (es : List AtabEntry) (st : Status) (s : State) :
    es.foldl appendEntry (withStatus st s) = withStatus st (es.foldl appendEntry s) := by
  induction es generalizing s with
  | nil => rfl
  | cons e es ih => exact ih (appendEntry s e)

section
variable {i : Instr} {s u : State}

theorem Completes.status_irrelevant (st : Status) (hu : Completes s i u) :
    Completes (withStatus st s) i (withStatus st u) := by
  cases hu with
  | nop => exact .nop
  | crcInit => exact .crcInit
  | crcByte b => exact .crcByte b
  | crcBuf hin => exact .crcBuf hin
  | frmEnc ty hin hfit => exact .frmEnc ty hin hfit
  | frmDec hin ty p hdec => exact .frmDec (s := withStatus st s) hin ty p hdec
  | tlvParse hin as hparse => exact .tlvParse (s := withStatus st s) hin as hparse
  | obufClr => exact .obufClr
  | tlvPut tag hin hlen hfit => exact .tlvPut tag hin hlen hfit
  | tlvPuta k hk hfit => exact .tlvPuta k hk hfit
  | tlvBuild =>
    rw [← appendEntries_withStatus]
    exact .tlvBuild
  | movO2i => exact .movO2i

theorem Raises.status_irrelevant {e : CmdError} {info : Word} (st : Status) (hu : Raises s i e info u) :
    Raises (withStatus st s) i e info (withStatus st u) := by
  cases hu with
  | crcBufRange hout => exact .crcBufRange hout
  | frmEncRange ty hout => exact .frmEncRange ty hout
  | frmEncOverflow ty hin hover => exact .frmEncOverflow ty hin hover
  | frmDecRange hout => exact .frmDecRange hout
  | frmDecBadLength hin hdec => exact .frmDecBadLength hin hdec
  | frmDecBadChecksum hin hdec => exact .frmDecBadChecksum hin hdec
  | tlvParseRange hout => exact .tlvParseRange hout
  | tlvParse hin e as rem hs hwin hstop => exact .tlvParse (s := withStatus st s) hin e as rem hs hwin hstop
  | tlvPutRange tag hout => exact .tlvPutRange tag hout
  | tlvPutUnsupported tag hin hlong => exact .tlvPutUnsupported tag hin hlong
  | tlvPutOverflow tag hin hlen hfull => exact .tlvPutOverflow tag hin hlen hfull
  | tlvPutaRange k hout => exact .tlvPutaRange k hout
  | tlvPutaOverflow k hk hfull => exact .tlvPutaOverflow k hk hfull

end

/-- The outcome is the same whatever STATUS was, but for what STICKY keeps. -/
theorem exec_withStatus {i : Instr} {s t : State} (st : Status) (h : exec i s = .next t) :
    exec i (withStatus st s) =
      .next (withStatus { t.status with sticky := t.status.err || (st.sticky && decide (i ≠ .srst)) } t) := by
  cases exec_cases h with
  | completes u hu ht =>
    rw [(hu.status_irrelevant st).exec_eq, ht]
    simp [hu.ne_srst, succeed, withStatus, Status.succeeded]
  | raises e info u hu ht =>
    rw [(hu.status_irrelevant st).exec_eq, ht]
    rfl
  | srst hi ht =>
    subst hi ht
    simp [exec, execSrst, withStatus, resetRegisters, Status.cleared]

end Sys2Proof.Machine
end

section
/-! PROOFS. The host's accesses (spec/20_memory.md R52 to R58): what a step does at each place of the address map, which
addresses have a place, and the write to CMD (spec/10_state.md R22, spec/30_encoding.md R78). -/

namespace Sys2Proof.Machine

/-! ## The write to CMD -/

theorem runCommand_of_ok {w : Word} {i : Instr} (h : decode w = .ok i) (s : State) : runCommand w s = exec i s := by
  rw [runCommand, h]

theorem runCommand_of_error {w : Word} {r : DecodeReject} (h : decode w = .error r) (s : State) :
    runCommand w s = .next (raise .illegalCommand w s) := by
  rw [runCommand, h]

/-- Settles O6: the head of the queue is the write, and the word's command runs. -/
theorem stepRunsTheDecodedCommand : Obligations.StepRunsTheDecodedCommand :=
  ⟨fun _ _ _ _ hp hdec => (step_command hp).trans (runCommand_of_ok hdec _), fun _ => step_nil⟩

/-- Settles O7: an illegal word is one raise after no change. -/
theorem illegalWordRaisesIllegalCommand : Obligations.IllegalWordRaisesIllegalCommand :=
  fun _ _ _ _ hp hdec => ⟨_, (step_command hp).trans (runCommand_of_error hdec _), rfl,
    (OnlyChanges.refl _).failsChanging _ _⟩

theorem exists_runCommand (w : Word) (s : State) : ∃ t, runCommand w s = .next t := by
  cases hdec : decode w with
  | ok i => exact runCommand_of_ok hdec s ▸ exists_exec i s
  | error r => exact ⟨_, runCommand_of_error hdec s⟩

theorem exists_busWrite32 (a : BitVec 19) (v : Word) (s : State) : ∃ t, busWrite32 a v s = .next t := by
  unfold busWrite32
  split
  · exact exists_runCommand v _
  · exact ⟨_, rfl⟩
  · exact ⟨_, rfl⟩
  · exact ⟨_, rfl⟩

theorem exists_step (s : State) : ∃ t, step s = .next t := by
  match hp : s.pending with
  | [] => exact ⟨s, step_nil hp⟩
  | ev :: rest =>
    rw [step_cons hp]
    cases ev with
    | write32 a v => exact exists_busWrite32 a v _
    | read | write8 | write16 | hardwareReset => exact ⟨_, rfl⟩

/-- Settles O8: only a write to CMD runs a command, and every command answers. -/
theorem everyStepHasANextState : Obligations.EveryStepHasANextState := ⟨exists_step, exists_exec⟩

/-! ## A step on an access at a place of the map -/

section
variable {s : State} {rest : List BusEvent} {a : BitVec 19}

theorem step_read {width : Width} (hp : s.pending = .read a width :: rest) :
    step s = .next (busRead a width { s with pending := rest }) := step_cons hp

theorem step_readReg {r : Reg} (hp : s.pending = .read (regAddr r) .w32 :: rest) :
    step s = .next (s.answered rest (.readWord (readReg s r))) := by
  rw [step_read hp]
  unfold busRead
  rw [placeAt_regAddr]
  rfl

theorem step_readIbuf {i : Nat} (hi : i < s.bufSize.val) (hp : s.pending = .read (ibufAddr i) .w8 :: rest) :
    step s = .next (s.answered rest (.readByte (ibufByte s i))) := by
  rw [step_read hp]
  unfold busRead
  rw [placeAt_ibufAddr hi]
  rfl

theorem step_readObuf {i : Nat} (hi : i < s.bufSize.val) (hp : s.pending = .read (obufAddr i) .w8 :: rest) :
    step s = .next (if i < s.olen.toNat then s.answered rest (.readByte (obufByte s i))
      else { s.answered rest (.readByte (Config.freeByte s.draws)) with draws := s.draws + 1 }) := by
  rw [step_read hp]
  unfold busRead
  rw [placeAt_obufAddr hi]
  rfl

theorem step_readAtab {k : Nat} {second : Bool} (hk : k < Config.atabSize s.bufSize)
    (hp : s.pending = .read (atabAddr k second) .w32 :: rest) :
    step s = .next (if k < s.acnt.toNat then
        s.answered rest (.readWord (if second then (atabEntry s k).word1 else (atabEntry s k).word0))
      else { s.answered rest (.readWord (Config.freeWord s.draws)) with draws := s.draws + 1 }) := by
  rw [step_read hp]
  unfold busRead
  rw [placeAt_atabAddr hk]
  rfl

theorem step_write8 {b : Byte} (hp : s.pending = .write8 a b :: rest) :
    step s = .next (busWrite8 a b { s with pending := rest }) := step_cons hp

theorem step_writeIbuf {i : Nat} {b : Byte} (hi : i < s.bufSize.val) (hp : s.pending = .write8 (ibufAddr i) b :: rest) :
    step s = .next { s.answered rest .written with ibuf := s.ibuf.write i b } := by
  rw [step_write8 hp]
  unfold busWrite8
  rw [placeAt_ibufAddr hi]
  rfl

theorem step_writeObuf {i : Nat} {b : Byte} (hi : i < s.bufSize.val) (hp : s.pending = .write8 (obufAddr i) b :: rest) :
    step s = .next (s.answered rest .written) := by
  rw [step_write8 hp]
  unfold busWrite8
  rw [placeAt_obufAddr hi]
  rfl

theorem step_write32 {v : Word} (hp : s.pending = .write32 a v :: rest) :
    step s = busWrite32 a v { s with pending := rest } := step_cons hp

theorem step_writeAtab {k : Nat} {second : Bool} {v : Word} (hk : k < Config.atabSize s.bufSize)
    (hp : s.pending = .write32 (atabAddr k second) v :: rest) : step s = .next (s.answered rest .written) := by
  rw [step_write32 hp]
  unfold busWrite32
  rw [placeAt_atabAddr hk]
  rfl

theorem step_writeReg {r : Reg} {v : Word} (hr : r ≠ .cmd) (hp : s.pending = .write32 (regAddr r) v :: rest) :
    step s = .next (writeReg (s.answered rest .written) r v) := by
  rw [step_write32 hp]
  unfold busWrite32
  rw [placeAt_regAddr]
  cases r with
  | cmd => exact absurd rfl hr
  | _ => rfl

end

/-! ## Registers -/

/-- The fields of the word that a read of STATUS returns (R23). -/
theorem fields_statusWord (st : Status) :
    st.word.getLsbD 0 = st.err ∧ st.word.getLsbD 1 = st.sticky ∧ st.word.extractLsb' 2 6 = 0#6 ∧
      st.word.extractLsb' 8 8 = st.ecode ∧ st.word.extractLsb' 16 16 = 0#16 := by
  unfold Status.word
  refine ⟨?_, ?_, ?_, ?_, ?_⟩
  · rw [BitVec.getLsbD_append, if_pos (by decide), BitVec.getLsbD_ofBool]
    simp
  · rw [BitVec.getLsbD_append, if_neg (by decide), BitVec.getLsbD_append, if_pos (by decide), BitVec.getLsbD_ofBool]
    simp
  · rw [BitVec.extractLsb'_append_eq_of_le (by decide), BitVec.extractLsb'_append_eq_of_le (by decide),
      BitVec.extractLsb'_append_eq_of_add_le (by decide), BitVec.extractLsb'_zero]
  · rw [BitVec.extractLsb'_append_eq_of_le (by decide), BitVec.extractLsb'_append_eq_of_le (by decide),
      BitVec.extractLsb'_append_eq_of_le (by decide), BitVec.extractLsb'_append_eq_of_add_le (by decide),
      BitVec.extractLsb'_eq_self]
  · rw [BitVec.extractLsb'_append_eq_of_le (by decide), BitVec.extractLsb'_append_eq_of_le (by decide),
      BitVec.extractLsb'_append_eq_of_le (by decide), BitVec.extractLsb'_append_eq_of_le (by decide),
      BitVec.extractLsb'_zero]

/-- R28: FTYPE in the low half, zeros above. -/
theorem fields_zeroExtend (v : Half) :
    (v.zeroExtend 32).extractLsb' 0 16 = v ∧ (v.zeroExtend 32).extractLsb' 16 16 = 0#16 := by
  have hlt := v.isLt
  constructor <;> apply BitVec.eq_of_toNat_eq <;>
    simp [BitVec.extractLsb'_toNat, Nat.shiftRight_eq_div_pow] <;> omega

/-- Settles O9, by the register. -/
theorem registerReadsReturnTheRegister : Obligations.RegisterReadsReturnTheRegister := by
  refine ⟨rfl, fun s rest r hp => ⟨readReg s r, step_readReg hp, ?_⟩⟩
  cases r with
  | status => exact fields_statusWord s.status
  | ftype => exact fields_zeroExtend s.ftype
  | cap => exact toNat_ofNat_word ((bufSize_lt s.bufSize).trans (by decide))
  | _ => rfl

theorem hostWrite_eq (v : Word) (st : Status) :
    st.hostWrite v = { st with sticky := if v.getLsbD 1 then false else st.sticky } := by
  unfold Status.hostWrite
  split <;> rfl

/-- Settles O10, by the register. -/
theorem registerWritesStoreOrAreIgnored : Obligations.RegisterWritesStoreOrAreIgnored := by
  intro s rest r v hp hr
  rw [step_writeReg hr hp]
  cases r with
  | status => rw [writeReg, hostWrite_eq]; rfl
  | _ => rfl

/-! ## Memories -/

/-- A byte of IBUF after a host write of one. -/
theorem ibufByte_write (s : State) (i j : Nat) (b : Byte) :
    ibufByte { s with ibuf := s.ibuf.write i b } j = if j = i then b else ibufByte s j := by
  simp only [ibufByte, Memory.read?_write]
  split <;> rfl

theorem onlyChanges_ibuf (s : State) (m : Memory) : OnlyChanges [.ibuf] s { s with ibuf := m } := by
  refine ⟨fun p hp => ?_, rfl, rfl, rfl, rfl, rfl⟩
  cases p with
  | ibuf => exact absurd hp (by decide)
  | obuf | atab => exact fun _ => rfl
  | _ => rfl

/-- Settles O11: the write is one byte of the buffer; an unwritten byte is the draw made at reset. -/
theorem ibufByteAccess : Obligations.IbufByteAccess := by
  refine ⟨fun s rest i b hi hp => ?_, fun s rest i => step_readIbuf, fun s t i hs ht hresets => ?_⟩
  · exact ⟨_, step_writeIbuf hi hp, (ibufByte_write s i i b).trans (if_pos rfl),
      fun j hj => (ibufByte_write s i j b).trans (if_neg hj), onlyChanges_ibuf _ _⟩
  · rw [ibufByte, ibufByte, hs, ht, hresets]

/-- Settles O12, by the side of OLEN the index is on. -/
theorem obufByteAccess : Obligations.ObufByteAccess := by
  refine ⟨fun s rest i hlt hi hp => ?_, fun s rest i hle hi hp => ?_, fun s rest i b => step_writeObuf⟩
  · rw [step_readObuf hi hp, if_pos hlt]
  · exact ⟨_, (step_readObuf hi hp).trans (congrArg _ (if_neg hle.not_gt))⟩

/-- The fields of the first word of an entry (R56). -/
theorem fields_word0 (e : AtabEntry) :
    e.word0.extractLsb' 0 8 = e.tag ∧ e.word0.extractLsb' 8 8 = e.len ∧ e.word0.extractLsb' 16 16 = 0#16 := by
  unfold AtabEntry.word0
  refine ⟨?_, ?_, ?_⟩
  · rw [BitVec.extractLsb'_append_eq_of_add_le (by decide), BitVec.extractLsb'_eq_self]
  · rw [BitVec.extractLsb'_append_eq_of_le (by decide), BitVec.extractLsb'_append_eq_of_add_le (by decide),
      BitVec.extractLsb'_eq_self]
  · rw [BitVec.extractLsb'_append_eq_of_le (by decide), BitVec.extractLsb'_append_eq_of_le (by decide),
      BitVec.extractLsb'_zero]

/-- Settles O13, by the side of ACNT the entry is on. -/
theorem atabWordAccess : Obligations.AtabWordAccess := by
  refine ⟨fun s rest k hlt hk hp => ?_, fun s rest k hlt hk hp => ?_, fun s rest k second hle hk hp => ?_,
    fun s rest k second v => step_writeAtab⟩
  · exact ⟨_, (step_readAtab hk hp).trans (congrArg _ (if_pos hlt)), fields_word0 _⟩
  · exact (step_readAtab hk hp).trans (congrArg _ (if_pos hlt))
  · exact ⟨_, (step_readAtab hk hp).trans (congrArg _ (if_neg hle.not_gt))⟩

/-! ## Accepted accesses -/

/-- A place that takes 32-bit accesses (R53, R56). -/
def Place.isWord : Place → Bool
  | .reg _ | .atab _ _ => true
  | .ibuf _ | .obuf _ | .unmapped => false

/-- A place that takes 8-bit accesses (R54, R55). -/
def Place.isByte : Place → Bool
  | .ibuf _ | .obuf _ => true
  | .reg _ | .atab _ _ | .unmapped => false

theorem isSome_ofOffset (a : Nat) : (Reg.ofOffset a).isSome = decide (a % 4 = 0 ∧ a ≤ 0x2F) := by
  rw [Bool.eq_iff_iff, decide_eq_true_iff, Reg.ofOffset, List.find?_isSome]
  simp [Reg.all, Reg.offset]
  omega

/-- The table's word accesses are those of the places with words, its byte accesses those of the places with bytes. -/
theorem accepts_eq_place (n : Config.BufSize) (a : BitVec 19) :
    accepted.acceptsWord n a = (placeAt n a).isWord ∧ accepted.acceptsByte n a = (placeAt n a).isByte := by
  obtain ⟨hlow, hhigh⟩ := n.2
  have hreg := isSome_ofOffset a.toNat
  unfold accepted.acceptsWord accepted.acceptsByte placeAt placeInAtab Config.atabSize
  simp only
  split
  · cases ho : Reg.ofOffset a.toNat <;> simp [ho, Place.isWord, Place.isByte] at hreg ⊢ <;> omega
  · split
    · split <;> simp [Place.isWord, Place.isByte] <;> omega
    · split
      · split <;> simp [Place.isWord, Place.isByte] <;> omega
      · split
        · simp [Place.isWord, Place.isByte]
          omega
        · split <;> simp [Place.isWord, Place.isByte] <;> omega

theorem Part.Same.quiet (p : Part) (s : State) (q : List BusEvent) (r : List BusResponse) (d : Nat) :
    p.Same s { s with pending := q, responses := r, draws := d } := by
  cases p with
  | ibuf | obuf | atab => exact fun _ => rfl
  | _ => rfl

theorem runCommand_outsideSame {w : Word} {s t : State} (h : runCommand w s = .next t) : OutsideSame s t := by
  cases hdec : decode w with
  | ok i => exact (exec_onlyChanges ((runCommand_of_ok hdec s).symm.trans h)).2
  | error r =>
    cases (runCommand_of_error hdec s).symm.trans h
    exact (onlyChanges_raise _ _ s).2

/-- The error response on `s`, and nothing else but a free value delivered (R58). -/
def AnswersError (s : State) (a : Answer) : Prop :=
  ∃ r d, r.isError = true ∧ a = .next { s with responses := r :: s.responses, draws := d }

/-- Another response than an error. -/
def AnswersNoError (s : State) (a : Answer) : Prop :=
  ∃ t r, a = .next t ∧ r.isError = false ∧ t.responses = r :: s.responses ∧ t.pending = s.pending

/-- An error response exactly where the access is not accepted. -/
def Answered (ok : Bool) (s : State) (a : Answer) : Prop :=
  (ok = true → AnswersNoError s a) ∧ (ok = false → AnswersError s a)

theorem Answered.of_eq {ok ok' : Bool} {s : State} {a : Answer} (h : Answered ok s a) (heq : ok' = ok) :
    Answered ok' s a := heq ▸ h

section
variable (a : BitVec 19) (s : State)

theorem busRead32_answered : Answered (placeAt s.bufSize a).isWord s (.next (busRead a .w32 s)) := by
  unfold busRead
  cases placeAt s.bufSize a with
  | reg => exact ⟨fun _ => ⟨_, _, rfl, rfl, rfl, rfl⟩, nofun⟩
  | atab =>
    refine ⟨fun _ => ?_, nofun⟩
    simp only
    split <;> exact ⟨_, _, rfl, rfl, rfl, rfl⟩
  | ibuf | obuf | unmapped => exact ⟨nofun, fun _ => ⟨_, _, rfl, rfl⟩⟩

theorem busRead8_answered : Answered (placeAt s.bufSize a).isByte s (.next (busRead a .w8 s)) := by
  unfold busRead
  cases placeAt s.bufSize a with
  | ibuf => exact ⟨fun _ => ⟨_, _, rfl, rfl, rfl, rfl⟩, nofun⟩
  | obuf =>
    refine ⟨fun _ => ?_, nofun⟩
    simp only
    split <;> exact ⟨_, _, rfl, rfl, rfl, rfl⟩
  | reg | atab | unmapped => exact ⟨nofun, fun _ => ⟨_, _, rfl, rfl⟩⟩

theorem busRead16_eq : busRead a .w16 s = busReadError s := by
  unfold busRead
  cases placeAt s.bufSize a <;> rfl

theorem busWrite8_answered (b : Byte) : Answered (placeAt s.bufSize a).isByte s (.next (busWrite8 a b s)) := by
  unfold busWrite8
  cases placeAt s.bufSize a with
  | ibuf | obuf => exact ⟨fun _ => ⟨_, _, rfl, rfl, rfl, rfl⟩, nofun⟩
  | reg | atab | unmapped => exact ⟨nofun, fun _ => ⟨_, _, rfl, rfl⟩⟩

theorem runCommand_answersNoError (w : Word) : AnswersNoError s (runCommand w (respond .written s)) := by
  obtain ⟨t, h⟩ := exists_runCommand w (respond .written s)
  obtain ⟨-, hpend, hresp, -⟩ := runCommand_outsideSame h
  exact ⟨t, _, h, rfl, hresp, hpend⟩

theorem busWrite32_answered (v : Word) : Answered (placeAt s.bufSize a).isWord s (busWrite32 a v s) := by
  unfold busWrite32
  cases placeAt s.bufSize a with
  | reg r =>
    refine ⟨fun _ => ?_, nofun⟩
    cases r with
    | cmd => exact runCommand_answersNoError s v
    | _ => exact ⟨_, _, rfl, rfl, rfl, rfl⟩
  | atab => exact ⟨fun _ => ⟨_, _, rfl, rfl, rfl, rfl⟩, nofun⟩
  | ibuf | obuf | unmapped => exact ⟨nofun, fun _ => ⟨_, _, rfl, rfl⟩⟩

end

theorem handle_answered (s : State) {ev : BusEvent} (hev : ev ≠ .hardwareReset) :
    Answered (accepted s.bufSize ev) s (handle ev s) := by
  cases ev with
  | read a width =>
    cases width with
    | w8 => exact (busRead8_answered a s).of_eq (accepts_eq_place s.bufSize a).2
    | w16 => exact ⟨nofun, fun _ => ⟨_, _, rfl, congrArg _ (busRead16_eq a s)⟩⟩
    | w32 => exact (busRead32_answered a s).of_eq (accepts_eq_place s.bufSize a).1
  | write8 a b => exact (busWrite8_answered a s b).of_eq (accepts_eq_place s.bufSize a).2
  | write16 => exact ⟨nofun, fun _ => ⟨_, _, rfl, rfl⟩⟩
  | write32 a v => exact (busWrite32_answered a s v).of_eq (accepts_eq_place s.bufSize a).1
  | hardwareReset => exact absurd rfl hev

/-- Settles O14, by the place that stands at the address. -/
theorem busErrorsChangeNothing : Obligations.BusErrorsChangeNothing := by
  intro s ev rest hp
  rw [step_cons hp]
  refine ⟨fun hacc => ?_, fun hacc hev => ?_⟩
  · have hev : ev ≠ .hardwareReset := by
      rintro rfl
      cases hacc
    obtain ⟨r, d, hr, h⟩ := (handle_answered { s with pending := rest } hev).2 hacc
    exact ⟨_, r, h, hr, rfl, rfl, fun p => Part.Same.quiet p s _ _ _, rfl, rfl⟩
  · obtain ⟨t, r, h, hr, hresp, hpend⟩ := (handle_answered { s with pending := rest } hev).1 hacc
    exact ⟨t, r, h, hr, hresp, hpend⟩

end Sys2Proof.Machine
end

section
/-! PROOFS. What a step changes (spec/10_state.md sections 1, 2 and 4): the writers of every part, and the flags. -/

namespace Sys2Proof.Machine

/-! ## The writers of every part -/

theorem writtenBy_of_mem_endWrites {p : Part} {failed : Bool} (h : p ∈ endWrites failed) (i : Instr) :
    p.writtenBy i = true := by
  revert p
  cases failed <;> simp [endWrites, Part.writtenBy]

theorem writtenBy_of_mem_successWrites {p : Part} {i : Instr} (h : p ∈ successWrites i) : p.writtenBy i = true := by
  revert p
  cases i <;> simp [successWrites, Part.registers, Part.writtenBy]

theorem writtenBy_of_mem_errorWrites {p : Part} {c : Byte} {i : Instr} (h : p ∈ errorWrites c i) :
    p.writtenBy i = true := by
  cases i with
  | frmDec | tlvParse =>
    simp only [errorWrites] at h
    split at h <;> revert p <;> simp [Part.writtenBy]
  | _ =>
    revert p
    simp [errorWrites, Part.writtenBy]

/-- The rows of R34 name no part that the part's own rule does not. -/
theorem writtenBy_of_mem_mayWrite {p : Part} {i : Instr} {st : Status} (h : p ∈ mayWrite i st) :
    p.writtenBy i = true := by
  rcases List.mem_append.mp h with h | h
  · exact writtenBy_of_mem_endWrites h i
  · split at h
    · exact writtenBy_of_mem_errorWrites h
    · exact writtenBy_of_mem_successWrites h

section
variable {s t : State} {p : Part}

/-- A part that a write to CMD changes: the word is a command that the part's rule names, or it is illegal. -/
theorem runCommand_writers {w : Word} (h : runCommand w s = .next t) (hp : ¬ p.Same s t) :
    (∃ i, w = encode i ∧ p.writtenBy i = true) ∨
      ∃ r, decode w = .error r ∧ p ∈ [Part.err, .sticky, .ecode, .einfo] := by
  cases hdec : decode w with
  | ok i =>
    have honly := exec_onlyChanges ((runCommand_of_ok hdec s).symm.trans h)
    exact .inl ⟨i, (encode_of_decode hdec).symm, writtenBy_of_mem_mayWrite (not_imp_comm.mp (honly.1 p) hp)⟩
  | error r =>
    cases (runCommand_of_error hdec s).symm.trans h
    exact .inr ⟨r, rfl, not_imp_comm.mp ((onlyChanges_raise _ _ s).1 p) hp⟩

/-- A host write to a register changes that register alone, of STATUS only STICKY (R53). -/
theorem writeReg_same {r : Reg} {v : Word}
    (h : (p, r) ∉ [(Part.soff, Reg.soff), (.slen, .slen), (.crc, .crc), (.sticky, .status)]) :
    p.Same s (writeReg s r v) := by
  cases r with
  | status =>
    rw [writeReg, hostWrite_eq]
    cases p with
    | sticky => simp at h
    | ibuf | obuf | atab => exact fun _ => rfl
    | _ => rfl
  | soff =>
    cases p with
    | soff => simp at h
    | ibuf | obuf | atab => exact fun _ => rfl
    | _ => rfl
  | slen =>
    cases p with
    | slen => simp at h
    | ibuf | obuf | atab => exact fun _ => rfl
    | _ => rfl
  | crc =>
    cases p with
    | crc => simp at h
    | ibuf | obuf | atab => exact fun _ => rfl
    | _ => rfl
  | _ => exact Part.Same.refl p s

theorem Part.Same.pending (p : Part) (s : State) (rest : List BusEvent) : p.Same s { s with pending := rest } :=
  Part.Same.quiet p s rest s.responses s.draws

theorem Part.Same.respond (p : Part) (s : State) (r : BusResponse) : p.Same s (respond r s) :=
  Part.Same.quiet p s s.pending (r :: s.responses) s.draws

end

/-- Settles O16, by what the step is. -/
theorem everyPartHasOnlyItsWriters : Obligations.EveryPartHasOnlyItsWriters := by
  intro s t h p hp
  cases step_cases h with
  | quiet q r d ht => exact absurd (Part.Same.quiet p s q r d) (ht ▸ hp)
  | byte rest i b hi hpend ht =>
    have hibuf : p = .ibuf := by
      by_contra hne
      refine hp (ht ▸ ((Part.Same.pending p s rest).trans ?_).trans (Part.Same.respond p _ _))
      exact (onlyChanges_ibuf { s with pending := rest } _).1 p (by simpa using hne)
    exact .inr (.inr (.inr (.inr ⟨i, b, rest, hpend, hi, hibuf⟩)))
  | register rest r v hr hpend ht =>
    refine .inr (.inr (.inr (.inl ⟨r, v, rest, hpend, ?_⟩)))
    by_contra hne
    exact hp (ht ▸ ((Part.Same.pending p s rest).trans (writeReg_same hne)).trans (Part.Same.respond p _ _))
  | command rest w hpend hrun =>
    have hp' : ¬ p.Same (s.answered rest .written) t := fun hsame =>
      hp ((Part.Same.quiet p s rest (.written :: s.responses) s.draws).trans hsame)
    rcases runCommand_writers hrun hp' with ⟨i, rfl, hi⟩ | ⟨r, hdec, hmem⟩
    · exact .inr (.inl ⟨i, rest, hpend, hi⟩)
    · exact .inr (.inr (.inl ⟨w, r, rest, hpend, hdec, hmem⟩))
  | reset rest hpend ht => exact .inl ⟨rest, hpend⟩

/-- Settles O15: the writers of IBUF; a host write changes the one byte it is at. -/
theorem ibufBytesKeepTheirValue : Obligations.IbufBytesKeepTheirValue := by
  intro s t i h hne
  have hibuf : ¬ Part.Same .ibuf s t := fun hsame => hne (hsame i)
  cases step_cases h with
  | quiet q r d ht => exact absurd (Part.Same.quiet .ibuf s q r d) (ht ▸ hibuf)
  | byte rest j b hj hpend ht =>
    have hij : i = j := by
      by_contra hij
      exact hne (ht ▸ (ibufByte_write s j i b).trans (if_neg hij))
    exact .inl ⟨b, rest, hij ▸ hpend, hij ▸ hj⟩
  | register rest r v hr hpend ht =>
    have hsame : Part.Same .ibuf { s with pending := rest } (writeReg { s with pending := rest } r v) :=
      writeReg_same (by simp)
    subst ht
    exact absurd (hsame i) hne
  | command rest w hpend hrun =>
    rcases runCommand_writers hrun (p := .ibuf) hibuf with ⟨c, rfl, hc⟩ | ⟨r, -, hmem⟩
    · have hmov : c = .movO2i := by simpa [Part.writtenBy] using hc
      exact .inr (.inl ⟨rest, hmov ▸ hpend⟩)
    · simp at hmem
  | reset rest hpend ht => exact .inr (.inr ⟨rest, hpend⟩)

/-! ## The flags (R35) -/

/-- STICKY after a write of any word to CMD. -/
theorem runCommand_sticky {w : Word} {s t : State} (h : runCommand w s = .next t) :
    t.status.sticky = (t.status.err || (s.status.sticky && decide (w ≠ encode .srst))) := by
  cases hdec : decode w with
  | ok i =>
    have hw : i = .srst ↔ w = encode .srst := by
      rw [← encode_of_decode hdec]
      exact ⟨congrArg encode, encode_injective⟩
    have hsticky := exec_sticky ((runCommand_of_ok hdec s).symm.trans h)
    simpa only [ne_eq, hw] using hsticky
  | error r =>
    cases (runCommand_of_error hdec s).symm.trans h
    rfl

/-- What a step does to STATUS: nothing; STICKY cleared by the host; a command; reset. -/
inductive StatusEffect (s t : State) : Prop where
  | same (h : t.status = s.status)
  | hostClears (v : Word) (rest : List BusEvent) (hp : s.pending = .write32 (regAddr .status) v :: rest)
      (hv : v.getLsbD 1 = true) (h : t.status = { s.status with sticky := false })
  | command (w : Word) (rest : List BusEvent) (hp : s.pending = .write32 (regAddr .cmd) w :: rest)
      (h : t.status.sticky = (t.status.err || (s.status.sticky && decide (w ≠ encode .srst))))
  | reset (rest : List BusEvent) (hp : s.pending = .hardwareReset :: rest) (h : t.status = Status.cleared)

theorem status_cases {s t : State} (h : step s = .next t) : StatusEffect s t := by
  cases step_cases h with
  | quiet _ _ _ ht => exact .same (ht ▸ rfl)
  | byte _ _ _ _ _ ht => exact .same (ht ▸ rfl)
  | register rest r v hr hpend ht =>
    cases r with
    | status =>
      by_cases hv : v.getLsbD 1 = true
      · exact .hostClears v rest hpend hv (ht ▸ if_pos hv)
      · exact .same (ht ▸ if_neg hv)
    | cmd => exact absurd rfl hr
    | _ => exact .same (ht ▸ rfl)
  | command rest w hpend hrun =>
    have hsticky := runCommand_sticky hrun
    exact .command w rest hpend hsticky
  | reset rest hpend ht => exact .reset rest hpend (ht ▸ rfl)

/-- Settles O21: of the ways STATUS can change, the host's write alone leaves ERR without STICKY. -/
theorem errImpliesStickyUnlessTheHostClearedIt : Obligations.ErrImpliesStickyUnlessTheHostClearedIt := by
  intro s t h herr hsticky
  cases status_cases h with
  | same hst => exact .inl (hst ▸ ⟨herr, hsticky⟩)
  | hostClears v rest hpend hv _ => exact .inr ⟨v, rest, hpend, hv⟩
  | command w rest hpend hst => simp [herr, hsticky] at hst
  | reset rest hpend hst => simp [hst] at herr

/-- Settles O22: STICKY after a command, what a step does to STATUS, and that no command reads it. -/
theorem flagsChangeAsSaidAndAreNeverRead : Obligations.FlagsChangeAsSaidAndAreNeverRead := by
  refine ⟨fun i s t => exec_sticky, fun s t h hset hclear => ?_, fun s t h hclear hset => ?_,
    fun i s t st => exec_withStatus st⟩
  · cases status_cases h with
    | same hst => simp [hst, hset] at hclear
    | hostClears v rest hpend hv _ => exact .inr (.inr ⟨v, rest, hpend, hv⟩)
    | command w rest hpend hst =>
      have hw : w = encode .srst := by
        simp only [hset, hclear, Bool.true_and] at hst
        exact (by simpa using hst.symm : t.status.err = false ∧ w = encode .srst).2
      exact .inr (.inl ⟨rest, hw ▸ hpend⟩)
    | reset rest hpend _ => exact .inl ⟨rest, hpend⟩
  · cases status_cases h with
    | same hst => simp [hst, hclear] at hset
    | hostClears v rest hpend hv hst => simp [hst] at hset
    | command w rest hpend hst => exact ⟨by simpa [hclear, hset] using hst, w, rest, hpend⟩
    | reset rest hpend hst => simp [hst] at hset

end Sys2Proof.Machine
end

section
/-! PROOFS. Every step keeps the invariants R44 and R48 of spec/10_state.md. They are taken in four parts: IBUF, the
output, the table, STATUS. Each is a predicate on the fields it speaks of, so a step that writes none of them keeps it as
it stands. -/

namespace Sys2Proof.Machine

/-! ## The four parts -/

/-- OBUF and OLEN: the valid output fits, and every byte of it has been written. -/
structure OutputOk (n : Config.BufSize) (m : Memory) (len : Word) : Prop where
  fits : m.Fits n
  len_le : len.toNat ≤ n.val
  written : ∀ i < len.toNat, (m.read? i).isSome

/-- ATAB, ACNT and CUR: the valid entries have been written, point into IBUF, and together fit in OBUF. -/
structure TableOk (n : Config.BufSize) (table : List AtabEntry) (acnt cur : Word) : Prop where
  acnt_le : acnt.toNat ≤ Config.atabSize n
  length_le : table.length ≤ Config.atabSize n
  written : acnt.toNat ≤ table.length
  sound : ∀ e ∈ table.take acnt.toNat, e.Sound n
  size_le : entriesSize (table.take acnt.toNat) ≤ n.val
  cur_le : cur.toNat ≤ n.val

/-- STATUS: ERR is 1 exactly when ECODE is not 0. -/
structure Status.Ok (st : Status) : Prop where
  err_iff : st.err = true ↔ st.ecode ≠ 0#8
  ecode_le : st.ecode.toNat ≤ 7

/-- The memories and the registers that speak of them. -/
structure State.BuffersOk (s : State) : Prop where
  input : s.ibuf.Fits s.bufSize
  output : OutputOk s.bufSize s.obuf s.olen
  table : TableOk s.bufSize s.atab s.acnt s.cur

/-- Where every valid entry has been written, the valid entries are the first ACNT positions. -/
theorem validEntries_eq_take {s : State} (h : s.acnt.toNat ≤ s.atab.length) :
    validEntries s = s.atab.take s.acnt.toNat := by
  apply List.ext_getElem
  · simp [h]
  · intro k h1 _
    rw [length_validEntries] at h1
    simp [validEntries, atabEntry_of_lt (h1.trans_le h)]

theorem State.inv_iff (s : State) : s.Inv ↔ s.BuffersOk ∧ s.status.Ok := by
  constructor
  · intro h
    have htake := validEntries_eq_take h.table_written
    exact ⟨⟨h.ibuf_fits, ⟨h.obuf_fits, h.olen_le, h.output_written⟩, ⟨h.acnt_le, h.atab_le, h.table_written,
      htake ▸ h.entries_sound, htake ▸ h.entries_size, h.cur_le⟩⟩, h.err_iff, h.ecode_le⟩
  · rintro ⟨⟨hin, hout, htab⟩, hst⟩
    have htake := validEntries_eq_take htab.written
    exact ⟨hin, hout.fits, hout.len_le, hout.written, htab.acnt_le, htab.length_le, htab.written,
      htake ▸ htab.sound, htake ▸ htab.size_le, htab.cur_le, hst.err_iff, hst.ecode_le⟩

/-! ## STATUS -/

theorem Status.Ok.succeeded (st : Status) : st.succeeded.Ok := ⟨by simp, by simp⟩

theorem Status.Ok.cleared : Status.cleared.Ok := ⟨by simp, by simp⟩

theorem Status.Ok.failed (e : CmdError) : (Status.failed e).Ok := by cases e <;> constructor <;> decide

theorem Status.Ok.hostWrite {st : Status} (h : st.Ok) (v : Word) : (st.hostWrite v).Ok := by
  rw [hostWrite_eq]
  exact ⟨h.err_iff, h.ecode_le⟩

/-! ## The output -/

section
variable {n : Config.BufSize} {m : Memory}

theorem OutputOk.zero (h : m.Fits n) : OutputOk n m 0#32 := ⟨h, Nat.zero_le _, nofun⟩

/-- Bytes written at the end of the valid output, and OLEN raised over them. -/
theorem OutputOk.writeBytes {len len' : Word} (h : OutputOk n m len) {bs : List Byte}
    (hlen : len'.toNat = len.toNat + bs.length) (hfit : len.toNat + bs.length ≤ n.val) :
    OutputOk n (m.writeBytes len.toNat bs) len' := by
  refine ⟨Memory.writeBytes_fits bs h.fits hfit, hlen ▸ hfit, fun i hi => ?_⟩
  rw [Memory.isSome_read?_writeBytes]
  rcases Nat.lt_or_ge i len.toNat with hold | hnew
  · simp [h.written i hold]
  · simp [hnew, hlen ▸ hi]

end

theorem OutputOk.setOutput {s : State} (h : s.obuf.Fits s.bufSize) {bs : List Byte} (hfit : bs.length ≤ s.bufSize.val) :
    OutputOk s.bufSize (setOutput bs s).obuf (setOutput bs s).olen := by
  have hlt := bufSize_lt s.bufSize
  exact (OutputOk.zero h).writeBytes (len' := BitVec.ofNat 32 bs.length)
    ((toNat_ofNat_word (by omega)).trans (Nat.zero_add _).symm) ((Nat.zero_add _).trans_le hfit)

theorem OutputOk.appendAttr {s : State} (h : OutputOk s.bufSize s.obuf s.olen) (tag len : Byte) {value : List Byte}
    (hfit : s.olen.toNat + 2 + value.length ≤ s.bufSize.val) :
    OutputOk s.bufSize (appendAttr tag len value s).obuf (appendAttr tag len value s).olen := by
  have hlt := bufSize_lt s.bufSize
  refine h.writeBytes (len' := BitVec.ofNat 32 (appendedLen s value.length)) ?_ ?_
  · rw [toNat_ofNat_word (by rw [appendedLen]; omega), appendedLen, List.length_cons, List.length_cons]
    omega
  · rw [List.length_cons, List.length_cons]
    omega

theorem OutputOk.appendEntries (es : List AtabEntry) : ∀ {s : State}, OutputOk s.bufSize s.obuf s.olen →
    s.olen.toNat + entriesSize es ≤ s.bufSize.val →
    OutputOk s.bufSize (es.foldl appendEntry s).obuf (es.foldl appendEntry s).olen := by
  induction es with
  | nil => exact fun h _ => h
  | cons e es ih =>
    intro s h hfit
    have hlt := bufSize_lt s.bufSize
    rw [entriesSize_cons] at hfit
    have holen := olen_appendEntry (s := s) (e := e) (by omega)
    have happend := h.appendAttr e.tag e.len (value := entryValue s e) (by rw [length_entryValue]; omega)
    refine ih (s := appendEntry s e) happend ?_
    rw [holen]
    show _ ≤ s.bufSize.val
    omega

/-! ## The table -/

theorem TableOk.zero {n : Config.BufSize} {table : List AtabEntry} {cur : Word}
    (hlen : table.length ≤ Config.atabSize n) (hcur : cur.toNat ≤ n.val) : TableOk n table 0#32 cur :=
  ⟨Nat.zero_le _, hlen, Nat.zero_le _, by simp, by simp, hcur⟩

section
variable {n : Config.BufSize} {base : Nat} {as : List Attr} {old : List AtabEntry}

/-- The entries of attributes that lie inside IBUF are as R44 has them. -/
theorem sound_entryOf (hs : Supported as) {cur : Nat} (hfit : base + cur + (tlvBytes as).length ≤ n.val) :
    ∀ found ∈ withOffsets cur as, (entryOf base found).Sound n := by
  induction as generalizing cur with
  | nil => simp [withOffsets]
  | cons a as ih =>
    obtain ⟨ha, has⟩ := List.forall_mem_cons.mp hs
    have hlt := bufSize_lt n
    rw [tlvBytes_cons, List.length_append, length_attrBytes] at hfit
    refine List.forall_mem_cons.mpr ⟨?_, ih has (by omega)⟩
    refine ⟨(toNat_lengthByte ha).trans_le ha, ?_⟩
    show (BitVec.ofNat 32 (base + cur + 2)).toNat + (BitVec.ofNat 8 a.value.length).toNat ≤ n.val
    rw [toNat_lengthByte ha, toNat_ofNat_word (by omega)]
    omega

theorem length_le_atabSize (hfit : (tlvBytes as).length ≤ n.val) : as.length ≤ Config.atabSize n := by
  have := two_mul_length_le as
  rw [Config.atabSize]
  omega

theorem length_writeAtab_le (hfit : (tlvBytes as).length ≤ n.val) (hold : old.length ≤ Config.atabSize n) :
    (writeAtab (entriesOf base as) old).length ≤ Config.atabSize n := by
  rw [length_writeAtab, length_entriesOf]
  exact max_le (length_le_atabSize hfit) hold

/-- The table that TLV_PARSE leaves for the attributes of a window in range. -/
theorem TableOk.entriesOf (hs : Supported as) (hfit : base + (tlvBytes as).length ≤ n.val)
    (hold : old.length ≤ Config.atabSize n) {cur : Word} (hcur : cur.toNat ≤ n.val) :
    TableOk n (writeAtab (entriesOf base as) old) (BitVec.ofNat 32 as.length) cur := by
  have hlen : (tlvBytes as).length ≤ n.val := by omega
  have hlt := bufSize_lt n
  have hcount : (BitVec.ofNat 32 as.length).toNat = as.length :=
    toNat_ofNat_word (by have := two_mul_length_le as; omega)
  have htake : (writeAtab (Machine.entriesOf base as) old).take as.length = Machine.entriesOf base as :=
    List.take_left' (length_entriesOf base as)
  refine ⟨hcount.trans_le (length_le_atabSize hlen), length_writeAtab_le hlen hold, ?_, ?_, ?_, hcur⟩
  · rw [hcount, length_writeAtab, length_entriesOf]
    exact le_max_left ..
  · rw [hcount, htake]
    exact List.forall_mem_map.mpr (sound_entryOf hs hfit)
  · rw [hcount, htake, entriesSize_entriesOf base hs]
    exact hlen

end

/-! ## Every command -/

section
variable {i : Instr} {s u : State}

theorem payload_le_window {ty : Half} {p : List Byte} (hdec : frameDecode (window s) = .ok (ty, p)) :
    p.length ≤ s.slen.toNat := by
  obtain ⟨-, -, -, -, rfl⟩ := frameDecode_eq_ok_iff.mp hdec
  rw [length_framePayload, length_window]
  omega

theorem Completes.buffersOk (hu : Completes s i u) (h : s.BuffersOk) : u.BuffersOk := by
  obtain ⟨hin, hout, htab⟩ := h
  cases hu with
  | nop | crcInit | crcByte | crcBuf => exact ⟨hin, hout, htab⟩
  | frmEnc ty _ hfit =>
    exact ⟨hin, OutputOk.setOutput (s := { s with crc := _ }) hout.fits (by simpa using hfit), htab⟩
  | frmDec hwin ty p hdec =>
    have hp := payload_le_window hdec
    exact ⟨hin, OutputOk.setOutput (s := { s with crc := _, ftype := ty }) hout.fits (by simp; omega), htab⟩
  | tlvParse hwin as hparse =>
    obtain ⟨hs, hbytes⟩ := tlvParse_eq_ok_iff.mp hparse
    have hlen : (tlvBytes as).length = s.slen.toNat := by rw [← hbytes, length_window]
    have hslen : s.slen.toNat ≤ s.bufSize.val := by omega
    exact ⟨hin, hout, TableOk.entriesOf hs (by omega) htab.length_le hslen⟩
  | obufClr => exact ⟨hin, OutputOk.zero hout.fits, htab⟩
  | tlvPut tag _ _ hfit => exact ⟨hin, hout.appendAttr tag _ (by simpa using hfit), htab⟩
  | tlvPuta k _ hfit => exact ⟨hin, hout.appendAttr _ _ (by simpa using hfit), htab⟩
  | tlvBuild =>
    have hsize : entriesSize (validEntries s) ≤ s.bufSize.val := validEntries_eq_take htab.written ▸ htab.size_le
    have hbuilt := OutputOk.appendEntries (validEntries s) (s := { s with olen := 0#32 }) (OutputOk.zero hout.fits)
      ((Nat.zero_add _).trans_le hsize)
    obtain ⟨m, n, heq⟩ := appendEntries_fields (validEntries s) { s with olen := 0#32 }
    rw [heq] at hbuilt ⊢
    exact ⟨hin, hbuilt, htab⟩
  | movO2i => exact ⟨Memory.writeBytes_fits _ hin (by simpa using hout.len_le), hout, htab⟩

theorem Raises.buffersOk {e : CmdError} {info : Word} (hu : Raises s i e info u) (h : s.BuffersOk) : u.BuffersOk := by
  obtain ⟨hin, hout, htab⟩ := h
  cases hu with
  | crcBufRange | tlvPutRange | tlvPutUnsupported | tlvPutOverflow | tlvPutaRange | tlvPutaOverflow =>
    exact ⟨hin, hout, htab⟩
  | frmEncRange | frmEncOverflow | frmDecRange | frmDecBadLength | frmDecBadChecksum =>
    exact ⟨hin, OutputOk.zero hout.fits, htab⟩
  | tlvParseRange => exact ⟨hin, hout, TableOk.zero htab.length_le (Nat.zero_le _)⟩
  | tlvParse hwin e as rem hs hbytes hstop =>
    have hlt := bufSize_lt s.bufSize
    have hlen : (tlvBytes as).length + rem.length = s.slen.toNat := by
      rw [← List.length_append, ← hbytes, length_window]
    have hoff := offset_of_stopsAt hstop
    have hfit : (tlvBytes as).length ≤ s.bufSize.val := by omega
    have hcur : (BitVec.ofNat 32 e.offset).toNat ≤ s.bufSize.val := by
      rw [toNat_ofNat_word (by omega), hoff]
      exact hfit
    exact ⟨hin, hout, TableOk.zero (length_writeAtab_le hfit htab.length_le) hcur⟩

theorem State.BuffersOk.resetRegisters (h : s.BuffersOk) : (resetRegisters s).BuffersOk :=
  ⟨h.input, OutputOk.zero h.output.fits, TableOk.zero h.table.length_le (Nat.zero_le _)⟩

end

theorem exec_inv {i : Instr} {s t : State} (h : exec i s = .next t) (hinv : s.Inv) : t.Inv := by
  obtain ⟨hbuf, -⟩ := s.inv_iff.mp hinv
  rw [State.inv_iff]
  cases exec_cases h with
  | completes u hu ht =>
    obtain ⟨hin, hout, htab⟩ := hu.buffersOk hbuf
    exact ht ▸ ⟨⟨hin, hout, htab⟩, Status.Ok.succeeded u.status⟩
  | raises e info u hu ht =>
    obtain ⟨hin, hout, htab⟩ := hu.buffersOk hbuf
    exact ht ▸ ⟨⟨hin, hout, htab⟩, Status.Ok.failed e⟩
  | srst hi ht => exact ht ▸ ⟨hbuf.resetRegisters, Status.Ok.cleared⟩

theorem runCommand_inv {w : Word} {s t : State} (h : runCommand w s = .next t) (hinv : s.Inv) : t.Inv := by
  cases hdec : decode w with
  | ok i => exact exec_inv ((runCommand_of_ok hdec s).symm.trans h) hinv
  | error r =>
    cases (runCommand_of_error hdec s).symm.trans h
    obtain ⟨⟨hin, hout, htab⟩, -⟩ := s.inv_iff.mp hinv
    exact (State.inv_iff _).mpr ⟨⟨hin, hout, htab⟩, Status.Ok.failed .illegalCommand⟩

/-! ## Every step -/

/-- Hardware reset gives the invariant, whatever the state was: every part is empty or zero. -/
theorem hardwareReset_inv (s : State) : (hardwareReset s).Inv :=
  (State.inv_iff _).mpr ⟨⟨Memory.nil_fits _, OutputOk.zero (Memory.nil_fits _),
    TableOk.zero (Nat.zero_le _) (Nat.zero_le _)⟩, Status.Ok.cleared⟩

/-- Settles O19: the parts of `State.reset` are those of any state after hardware reset. -/
theorem resetMeetsTheInvariant : Obligations.ResetMeetsTheInvariant := by
  obtain ⟨⟨hin, hout, htab⟩, hst⟩ := (State.inv_iff _).mp (hardwareReset_inv State.reset)
  exact (State.inv_iff _).mpr ⟨⟨hin, hout, htab⟩, hst⟩

/-- Settles O20, by what the step is. -/
theorem everyStepKeepsTheInvariant : Obligations.EveryStepKeepsTheInvariant := by
  intro s t hinv h
  obtain ⟨⟨hin, hout, htab⟩, hst⟩ := s.inv_iff.mp hinv
  cases step_cases h with
  | quiet q r d ht => exact (State.inv_iff _).mpr (ht ▸ ⟨⟨hin, hout, htab⟩, hst⟩)
  | byte rest i b hi _ ht => exact (State.inv_iff _).mpr (ht ▸ ⟨⟨Memory.write_fits hin hi b, hout, htab⟩, hst⟩)
  | register rest r v hr _ ht =>
    rw [State.inv_iff, ht]
    cases r with
    | status => exact ⟨⟨hin, hout, htab⟩, hst.hostWrite v⟩
    | _ => exact ⟨⟨hin, hout, htab⟩, hst⟩
  | command rest w _ hrun =>
    exact runCommand_inv hrun ((State.inv_iff _).mpr ⟨⟨hin, hout, htab⟩, hst⟩)
  | reset rest _ ht => exact ht ▸ hardwareReset_inv _

end Sys2Proof.Machine
end

section
/-! PROOFS. The results of FRM_ENC and FRM_DEC (spec/41_frame.md R114, R115), from the ways they end. -/

namespace Sys2Proof.Machine

/-! ## The fields of a frame, taken from its two ends -/

theorem slice_zero (bs : List Byte) (n : Nat) : slice bs 0 n = bs.take n := List.drop_zero

theorem frameLengthField_eq (bs : List Byte) : frameLengthField bs = fromBe ((bs.drop 2).take 2) := by
  rw [frameLengthField, slice, List.drop_take]

theorem frameChecksum_eq (bs : List Byte) : frameChecksum bs = crc32c (bs.take (bs.length - 4)) := by
  rw [frameChecksum, slice_zero]

theorem frameTrailer_eq (bs : List Byte) : frameTrailer bs = frombe32 (bs.drop (bs.length - 4)) := by
  rw [frameTrailer, slice, List.take_length]

theorem not32_not32 (v : Word) : not32 (not32 v) = v := by
  rw [not32, not32, BitVec.xor_assoc, BitVec.xor_self, BitVec.xor_zero]

/-- The bytes of OBUF above an output written from index 0. -/
theorem obufByte_setOutput_above {bs : List Byte} {s : State} {j : Nat} (hj : bs.length ≤ j) :
    obufByte (setOutput bs s) j = obufByte s j := by
  rw [obufByte_setOutput, dif_neg hj.not_gt]

/-! ## FRM_ENC -/

/-- R114 gives the word of FRM_ENC. -/
theorem decode_frmEnc_word (imm16 : Half) : decode (0x10000000#32 ||| imm16.setWidth 32) = .ok (.frmEnc imm16) :=
  (congrArg decode (wordB_eq_shift_or 0x10#8 imm16).symm).trans (decode_encode (.frmEnc imm16))

/-- All of a frame but its trailer is what its checksum is over, and the trailer is the checksum. -/
theorem frame_checksum_and_trailer (ty : Half) (p : List Byte) :
    crc32c ((frameBytes ty p).take (p.length + 4)) = frombe32 ((frameBytes ty p).drop (p.length + 4)) := by
  have hlen : (frameBytes ty p).length - 4 = p.length + 4 := by
    rw [length_frameBytes]
    omega
  have hsum := (frameChecksum_frameBytes ty p).trans (frameTrailer_frameBytes ty p).symm
  rwa [frameChecksum_eq, frameTrailer_eq, hlen] at hsum

/-- Settles O39, by the ways FRM_ENC ends. -/
theorem frmEncResult : Obligations.FrmEncResult := by
  intro ty s
  refine ⟨decode_frmEnc_word ty, fun hout => ?_, fun hin hover => ?_, fun hin hfit => ?_⟩
  · have hends := Raises.frmEncRange ty hout
    exact ⟨_, hends.exec_eq, rfl, hends.failsChanging⟩
  · have hends := Raises.frmEncOverflow ty hin hover
    exact ⟨_, hends.exec_eq, rfl, hends.failsChanging⟩
  · have hends := Completes.frmEnc ty hin hfit
    have hlt := bufSize_lt s.bufSize
    have hsize := s.bufSize.2.2
    have hlen : (frameBytes ty (window s)).length = s.slen.toNat + 8 := by rw [length_frameBytes, length_window]
    have hsum := frame_checksum_and_trailer ty (window s)
    rw [length_window] at hsum
    refine ⟨_, frameBytes ty (window s), hends.exec_eq, frameEncode_of_le ty (by rw [length_window]; omega), ?_,
      validOutput_setOutput (by omega) _, fun j hj => obufByte_setOutput_above (hlen.trans_le hj), ?_, ?_,
      hends.succeedsChanging⟩
    · exact (toNat_ofNat_word (by omega)).trans hlen
    · exact congrArg (fun bs => not32 (crc32c bs)) (slice_zero _ _)
    · exact (not32_not32 _).trans ((congrArg crc32c (slice_zero _ _)).trans hsum)

/-! ## FRM_DEC -/

/-- Where the length field is right, the checksum decides (R112, R115). -/
theorem frameDecode_of_fields {bs : List Byte} (hlen : 8 ≤ bs.length)
    (hfield : fromBe ((bs.drop 2).take 2) = bs.length - 8) :
    frameDecode bs =
      if crc32c (bs.take (bs.length - 4)) = frombe32 (bs.drop (bs.length - 4)) then
        .ok (frombe16 (bs.take 2), (bs.drop 4).take (bs.length - 8))
      else .error .badChecksum := by
  rw [← frameLengthField_eq] at hfield
  rw [← frameChecksum_eq, ← frameTrailer_eq]
  split
  · rename_i hsum
    refine frameDecode_eq_ok_iff.mpr ⟨hlen, hfield, hsum, by rw [slice_zero], ?_⟩
    rw [slice, List.drop_take, Nat.sub_sub]
  · rename_i hsum
    exact frameDecode_of_badChecksum hlen hfield hsum

theorem frameDecode_of_wrongLength {bs : List Byte}
    (h : bs.length < 8 ∨ fromBe ((bs.drop 2).take 2) ≠ bs.length - 8) : frameDecode bs = .error .badLength :=
  frameDecode_of_badLength fun hlen => frameLengthField_eq bs ▸ h.resolve_left hlen.not_gt

/-- What a FRM_DEC that accepts its window leaves. -/
theorem frmDec_accepts {s : State} (hin : s.soff.toNat + s.slen.toNat ≤ s.bufSize.val) {ty : Half} {p : List Byte}
    (hdec : frameDecode (window s) = .ok (ty, p)) :
    ∃ t, exec .frmDec s = .next t ∧ t.ftype = ty ∧ t.olen.toNat = p.length ∧ validOutput t = p ∧
      (∀ j, p.length ≤ j → obufByte t j = obufByte s j) ∧ t.crc = not32 (frameChecksum (window s)) ∧
      SucceedsChanging [.ftype, .obuf, .olen, .crc] s t := by
  have hends := Completes.frmDec hin ty p hdec
  have hlt : p.length < 2 ^ 32 := (payload_le_of_frameDecode hdec).trans_lt (by decide)
  exact ⟨_, hends.exec_eq, rfl, toNat_ofNat_word hlt, validOutput_setOutput hlt _,
    fun j => obufByte_setOutput_above, rfl, hends.succeedsChanging⟩

/-- Settles O40, by the ways FRM_DEC ends. -/
theorem frmDecResult : Obligations.FrmDecResult := by
  refine ⟨by decide, fun s => ?_⟩
  have hlen := length_window s
  have hsum := frameChecksum_window s
  refine ⟨fun hout => ?_, fun hin hbad => ?_, fun hin h8 hok hne => ?_, fun hin h8 hok heq => ?_⟩
  · have hends := Raises.frmDecRange hout
    exact ⟨_, hends.exec_eq, rfl, hends.failsChanging⟩
  · have hends := Raises.frmDecBadLength hin (frameDecode_of_wrongLength (by rwa [hlen]))
    exact ⟨_, hends.exec_eq, rfl, hends.failsChanging⟩
  · have hdec := frameDecode_of_fields (bs := window s) (by rwa [hlen]) (by rwa [hlen])
    rw [hlen, if_neg hne] at hdec
    have hends := Raises.frmDecBadChecksum hin hdec
    exact ⟨_, hends.exec_eq, rfl, congrArg not32 hsum, hsum ▸ hends.failsChanging⟩
  · have hdec := frameDecode_of_fields (bs := window s) (by rwa [hlen]) (by rwa [hlen])
    rw [hlen, if_pos heq] at hdec
    have hplen : (((window s).drop 4).take (s.slen.toNat - 8)).length = s.slen.toNat - 8 := by
      rw [List.length_take, List.length_drop, hlen]
      omega
    obtain ⟨t, hrun, htype, holen, hvalid, habove, hcrc, hchanges⟩ := frmDec_accepts hin hdec
    rw [hplen] at holen habove
    have hdecoded : frameDecode (window s) = .ok (t.ftype, validOutput t) := by rw [hdec, htype, hvalid]
    exact ⟨t, hrun, htype, holen, hvalid, habove, hcrc.trans (congrArg not32 hsum), hdecoded, hchanges⟩

end Sys2Proof.Machine
end

section
/-! PROOFS. The results of TLV_PARSE and TLV_BUILD (spec/42_tlv.md R133, R136), parsing what was built (R137), and the
chains of commands with MOV_O2I (spec/43_buffer_control.md R153, spec/70_reset_and_hazards.md R233). -/

namespace Sys2Proof.Machine

/-! ## TLV_PARSE -/

theorem atabEntry_withTable (s : State) {as : List Attr} {k : Nat} (h : k < as.length) :
    atabEntry (withTable s as) k = entryOf s.soff.toNat ((tlvBytes (as.take k)).length, as[k]) := by
  have hlen : k < (entriesOf s.soff.toNat as).length := by rwa [length_entriesOf]
  have hread : (withTable s as).atab[k]? = some (entriesOf s.soff.toNat as)[k] :=
    (writeAtab_getElem? _ _ hlen).trans (List.getElem?_eq_getElem hlen)
  simp [atabEntry, hread, entriesOf, withOffsets_getElem]

/-- What a TLV_PARSE that accepts its window leaves (R133). -/
theorem tlvParse_accepts {s : State} (hin : s.soff.toNat + s.slen.toNat ≤ s.bufSize.val) {as : List Attr}
    (hparse : tlvParse (window s) = .ok as) :
    ∃ t, exec .tlvParse s = .next t ∧ t.acnt.toNat = as.length ∧ t.cur = s.slen ∧
      (∀ k (h : k < as.length), (atabEntry t k).tag = as[k].tag ∧ (atabEntry t k).len.toNat = as[k].value.length ∧
        (atabEntry t k).voff.toNat = s.soff.toNat + (tlvBytes (as.take k)).length + 2 ∧
        entryValue t (atabEntry t k) = as[k].value) ∧
      SucceedsChanging [.atab, .acnt, .cur] s t := by
  have hends := Completes.tlvParse hin as hparse
  obtain ⟨hs, hwin⟩ := tlvParse_eq_ok_iff.mp hparse
  have hlt := bufSize_lt s.bufSize
  have hlen : (tlvBytes as).length = s.slen.toNat := by rw [← hwin, length_window]
  refine ⟨_, hends.exec_eq, toNat_ofNat_word (length_lt_of_tlvParse_window hparse), rfl, fun k hk => ?_,
    hends.succeedsChanging⟩
  have hend := attr_end_le as k hk
  have hmem : ((tlvBytes (as.take k)).length, as[k]) ∈ withOffsets 0 as := by
    have := withOffsets_getElem 0 as k (by rwa [length_withOffsets])
    rw [Nat.zero_add] at this
    exact this ▸ List.getElem_mem _
  have hread : ibufBytes s (s.soff.toNat + 0) (tlvBytes as).length = tlvBytes as := by
    rw [hlen, ← hwin]
    rfl
  show (atabEntry (withTable s as) k).tag = _ ∧ (atabEntry (withTable s as) k).len.toNat = _ ∧
    (atabEntry (withTable s as) k).voff.toNat = _ ∧ entryValue s (atabEntry (withTable s as) k) = _
  rw [atabEntry_withTable s hk]
  exact ⟨rfl, toNat_lengthByte (hs _ (List.getElem_mem hk)), toNat_ofNat_word (by omega),
    entryValue_entryOf hs hread (by omega) _ hmem⟩

/-- What a TLV_PARSE that refuses its window leaves (R133). -/
theorem tlvParse_refuses {s : State} (hin : s.soff.toNat + s.slen.toNat ≤ s.bufSize.val) {e : TlvError}
    (hparse : tlvParse (window s) = .error e) :
    ∃ t, exec .tlvParse s = .next t ∧ t.acnt = 0#32 ∧ t.cur.toNat = e.offset ∧
      FailsChanging e.raised t.cur [.acnt, .cur, .atab] s t := by
  obtain ⟨as, rem, hs, hwin, hstop⟩ := tlvParse_eq_error_iff.mp hparse
  have hends := Raises.tlvParse hin e as rem hs hwin hstop
  have hoff := offset_of_stopsAt hstop
  have hlen : (tlvBytes as).length + rem.length = s.slen.toNat := by rw [← List.length_append, ← hwin, length_window]
  have hrows : errorWrites e.raised.code .tlvParse = [.acnt, .cur, .atab] := by cases e <;> rfl
  exact ⟨_, hends.exec_eq, rfl, toNat_ofNat_word (by omega), hrows ▸ hends.failsChanging⟩

/-- Settles O44, by what `tlv_parse` answers on the window. -/
theorem tlvParseResult : Obligations.TlvParseResult := by
  refine ⟨by decide, fun s => ⟨fun hout => ?_, fun hin =>
    ⟨fun _ => tlvParse_refuses hin, fun _ => tlvParse_refuses hin, fun _ => tlvParse_accepts hin⟩⟩⟩
  have hends := Raises.tlvParseRange hout
  exact ⟨_, hends.exec_eq, rfl, rfl, hends.failsChanging⟩

/-! ## Chains with MOV_O2I -/

theorem window_withOutputInWindow (s : State) : window (succeed (withOutputInWindow s)) = validOutput s :=
  window_movO2i s

theorem exec_movO2i_eq (s : State) : exec .movO2i s = .next (succeed (withOutputInWindow s)) := exec_movO2i s

/-- The window after MOV_O2I is in range where the valid output is. -/
theorem inRange_withOutputInWindow {s : State} (h : s.olen.toNat ≤ s.bufSize.val) :
    let t := succeed (withOutputInWindow s)
    t.soff.toNat + t.slen.toNat ≤ t.bufSize.val :=
  (Nat.zero_add _).trans_le h

theorem execAll_movO2i_then {i : Instr} {s t : State} (h : exec i (succeed (withOutputInWindow s)) = .next t) :
    execAll [.movO2i, i] s = .next t :=
  (execAll_cons_of_next (exec_movO2i_eq s)).trans (execAll_cons_of_next h)

theorem tlvBuild_eq_some_iff {as : List Attr} {bs : List Byte} :
    tlvBuild as = some bs ↔ Supported as ∧ tlvBytes as = bs := by
  simp [tlvBuild, Supported]

/-- Settles O48: the codec on lists; in commands, the window after MOV_O2I is the built output. -/
theorem buildThenParse : Obligations.BuildThenParse := by
  refine ⟨fun as hs => ⟨_, tlvBuild_of_supported hs, tlvParse_tlvBytes hs⟩, fun s as bs hbuild hout hsize => ?_⟩
  obtain ⟨hs, rfl⟩ := tlvBuild_eq_some_iff.mp hbuild
  have hparse : tlvParse (window (succeed (withOutputInWindow s))) = .ok as := by
    rw [window_withOutputInWindow, hout, tlvParse_tlvBytes hs]
  obtain ⟨t, hrun, hacnt, -, hentries, ⟨herr, -⟩, -⟩ := tlvParse_accepts (inRange_withOutputInWindow hsize) hparse
  refine ⟨t, execAll_movO2i_then hrun, herr, hacnt, fun k hk => ?_⟩
  obtain ⟨htag, -, -, hvalue⟩ := hentries k hk
  exact ⟨htag, hvalue⟩

theorem Raises.olen_zero_of_frmDec {s u : State} {e : CmdError} {info : Word} (hu : Raises s .frmDec e info u) :
    u.olen = 0#32 := by
  cases hu <;> rfl

/-- A FRM_DEC that failed has emptied the output and set STICKY (R115). -/
theorem frmDec_failed {s t : State} (h : exec .frmDec s = .next t) (herr : t.status.err = true) :
    t.olen = 0#32 ∧ t.status.sticky = true := by
  refine ⟨?_, by simp [exec_sticky h, herr]⟩
  cases exec_cases h with
  | completes u _ ht => simp [ht] at herr
  | raises e info u hu ht => exact ht ▸ hu.olen_zero_of_frmDec
  | srst hi _ => cases hi

/-- Settles O51: the empty output becomes an empty window, which parses as the empty list. -/
theorem failedDecodeIsHiddenByTheChain : Obligations.FailedDecodeIsHiddenByTheChain := by
  intro s t h herr
  obtain ⟨holen, hsticky⟩ := frmDec_failed h herr
  have hparse : tlvParse (window (succeed (withOutputInWindow t))) = .ok [] := by
    rw [window_withOutputInWindow, validOutput_of_olen_zero holen]
    rfl
  have hrun := exec_tlvParse_of_ok (inRange_withOutputInWindow (by simp [holen])) hparse
  exact ⟨_, execAll_movO2i_then hrun, rfl, rfl, hsticky, rfl, rfl, holen, holen⟩

/-- Settles O52: the payload becomes the window, and its frame fits. -/
theorem buildReplyChain : Obligations.BuildReplyChain := by
  intro s ty hfit
  have hsize := s.bufSize.2.2
  have hin := inRange_withOutputInWindow (s := s) (by omega)
  have hrun := exec_frmEnc_of_fits ty hin hfit
  obtain ⟨-, -, hout⟩ := frmEnc_succeeded hrun rfl
  exact ⟨_, _, execAll_movO2i_then hrun, rfl, frameEncode_of_le ty (by rw [length_validOutput]; omega),
    hout.trans (congrArg (frameBytes ty) (window_withOutputInWindow s))⟩

/-! ## TLV_BUILD -/

/-- Entries with supported lengths, as attributes, are built as their tags, lengths and values. -/
theorem tlvBuild_entries {s : State} {es : List AtabEntry} (h : ∀ e ∈ es, e.len.toNat ≤ Config.maxAttrLen) :
    tlvBuild (es.map fun e => ⟨e.tag, entryValue s e⟩) =
      some (es.flatMap fun e => e.tag :: e.len :: entryValue s e) := by
  refine tlvBuild_eq_some_iff.mpr ⟨?_, ?_⟩
  · intro a ha
    obtain ⟨e, he, rfl⟩ := List.mem_map.mp ha
    exact (length_entryValue s e).trans_le (h e he)
  · simp [tlvBytes, List.flatMap_map, attrBytes]

/-- TLV_PUTA of valid entries, one after the other, appends them, while they fit (R135, R136). -/
theorem execAll_tlvPuta (ks : List Nat) : ∀ u : State,
    (∀ k ∈ ks, k < 65536 ∧ k < u.acnt.toNat) → u.olen.toNat + entriesSize (ks.map (atabEntry u)) ≤ u.bufSize.val →
    execAll (ks.map fun k => .tlvPuta (BitVec.ofNat 16 k)) (succeed u) =
      .next (succeed ((ks.map (atabEntry u)).foldl appendEntry u)) := by
  induction ks with
  | nil => exact fun _ _ _ => rfl
  | cons k ks ih =>
    intro u hks hfit
    obtain ⟨⟨hk, hvalid⟩, htail⟩ := List.forall_mem_cons.mp hks
    rw [List.map_cons, entriesSize_cons] at hfit
    have hlt := bufSize_lt u.bufSize
    have hidx : (BitVec.ofNat 16 k).toNat = k := by
      rw [BitVec.toNat_ofNat]
      exact Nat.mod_eq_of_lt hk
    have hone : u.olen.toNat + 2 + (atabEntry u k).len.toNat ≤ u.bufSize.val := by omega
    have hrun : exec (.tlvPuta (BitVec.ofNat 16 k)) (succeed u) = .next (succeed (appendEntry u (atabEntry u k))) := by
      have hstep := exec_tlvPuta_of_fits (s := succeed u) (k := BitVec.ofNat 16 k) (by rwa [hidx])
        (by rw [hidx]; exact hone)
      rw [hidx] at hstep
      exact hstep
    have holen := olen_appendEntry (s := u) (e := atabEntry u k) (by omega)
    refine (execAll_cons_of_next hrun).trans (ih (appendEntry u (atabEntry u k)) htail ?_)
    rw [holen]
    show u.olen.toNat + 2 + (atabEntry u k).len.toNat + entriesSize (ks.map (atabEntry u)) ≤ u.bufSize.val
    omega

/-- OBUF_CLR and TLV_PUTA of every valid entry in order are TLV_BUILD (R136). -/
theorem execAll_tlvPuta_range {s : State} (hinv : s.Inv) :
    execAll (.obufClr :: (List.range s.acnt.toNat).map fun k => .tlvPuta (BitVec.ofNat 16 k)) s = exec .tlvBuild s := by
  have hcount := hinv.acnt_le
  have hsize := s.bufSize.2.2
  rw [Config.atabSize] at hcount
  refine (execAll_cons_of_next (t := succeed { s with olen := 0#32 }) rfl).trans
    (execAll_tlvPuta (List.range s.acnt.toNat) _ (fun k hk => ?_) ?_)
  · have hk := List.mem_range.mp hk
    exact ⟨by omega, hk⟩
  · exact (Nat.zero_add _).trans_le hinv.entries_size

/-- Settles O47: the end of TLV_BUILD, the appended entries, and the chain. -/
theorem tlvBuildResult : Obligations.TlvBuildResult := by
  refine ⟨by decide, fun s => ⟨_, exec_tlvBuild s, Completes.tlvBuild.succeedsChanging⟩, fun s hinv =>
    ⟨⟨_, exec_tlvBuild s, olen_tlvBuild hinv.entries_size, ?_, validOutput_tlvBuild hinv.entries_size, ?_, ?_⟩,
      execAll_tlvPuta_range hinv⟩⟩
  · rw [olen_tlvBuild hinv.entries_size]
    exact hinv.entries_size
  · rw [validOutput_tlvBuild hinv.entries_size]
    exact tlvBuild_entries fun e he => (hinv.entries_sound e he).1
  · intro j hj
    exact obufByte_appendEntries (validEntries s) { s with olen := 0#32 }
      (olen_zero_add_entriesSize_lt hinv.entries_size) j (.inr ((Nat.zero_add _).trans_le hj))

end Sys2Proof.Machine
end

section
/-! PROOFS. Reset (spec/10_state.md R47, spec/70_reset_and_hazards.md R220) and the commands OBUF_CLR and SRST
(spec/43_buffer_control.md R151, R156). -/

namespace Sys2Proof.Machine

/-- Settles O17, by evaluation. -/
theorem resetStateHasTheValuesOfTheTable : Obligations.ResetStateHasTheValuesOfTheTable := by
  unfold Obligations.ResetStateHasTheValuesOfTheTable
  decide

/-- After either reset every register but CAP reads as in the reset state (R47). -/
theorem readReg_resetRegisters (s : State) {r : Reg} (hr : r ≠ .cap) :
    readReg (resetRegisters s) r = readReg State.reset r := by
  cases r with
  | cap => exact absurd rfl hr
  | _ => rfl

theorem exec_srst (s : State) : exec .srst s = .next (resetRegisters s) := rfl

/-- Settles O18: hardware reset is the reset of the registers, with the memories unwritten. -/
theorem bothResetsGiveTheValuesOfTheTable : Obligations.BothResetsGiveTheValuesOfTheTable := by
  refine ⟨fun s rest hp => ⟨_, step_cons hp, fun r hr => ?_, rfl, rfl, rfl, fun i => ⟨rfl, rfl⟩⟩,
    fun s => ⟨_, exec_srst s, fun r => readReg_resetRegisters s, rfl, fun _ => rfl⟩⟩
  cases r with
  | cap => exact absurd rfl hr
  | _ => rfl

/-- Settles O28, by the way OBUF_CLR ends. -/
theorem obufClrResult : Obligations.ObufClrResult :=
  ⟨by decide, fun _ => ⟨_, Completes.obufClr.exec_eq, rfl, Completes.obufClr.succeedsChanging⟩⟩

theorem word_cleared : Status.cleared.word = 0#32 := by decide

/-- Settles O30: SRST is the reset of the registers and nothing else. -/
theorem srstResult : Obligations.SrstResult :=
  ⟨by decide, fun s =>
    ⟨_, exec_srst s, word_cleared, rfl, rfl, rfl, rfl, rfl, rfl, rfl, rfl, onlyChanges_resetRegisters s⟩⟩

end Sys2Proof.Machine
end

section
/-! PROOFS. CRC_BYTE (spec/40_crc.md R94), a fixed point of the byte step that its remark denies, and checksums over any
split of a byte sequence (R96). -/

namespace Sys2Proof.Machine

/-! ## CRC_BYTE -/

/-- R91 writes the test of bit 0 as a mask. -/
theorem crcBit_eq_mask (c : Word) :
    crcBit c = if c &&& 1#32 = 1#32 then (c >>> 1) ^^^ 0x82F63B78#32 else c >>> 1 := by
  have hbit : c.getLsbD 0 = true ↔ c &&& 1#32 = 1#32 := by
    rw [BitVec.and_one_eq_setWidth_ofBool_getLsbD]
    cases c.getLsbD 0 <;> decide
  simp only [crcBit, hbit, crcPoly]

/-- The byte step of R91, round by round. -/
theorem crcStep_eq_foldl (c : Word) (b : Byte) :
    crcStep c b = (List.range 8).foldl
      (fun c _ => if c &&& 1#32 = 1#32 then (c >>> 1) ^^^ 0x82F63B78#32 else c >>> 1) (c ^^^ b.setWidth 32) := by
  simp only [← crcBit_eq_mask]
  rfl

/-- R94 gives the word of CRC_BYTE. -/
theorem decode_crcByte_word (imm8 : Byte) :
    decode (0x02000000#32 ||| imm8.setWidth 32 <<< 16) = .ok (.crcByte imm8) :=
  (congrArg decode (wordA_eq_shift_or 0x02#8 imm8).symm).trans (decode_encode (.crcByte imm8))

/-- Settles O32: CRC_BYTE is one byte step and a success. -/
theorem crcByteResult : Obligations.CrcByteResult := fun imm8 s =>
  ⟨decode_crcByte_word imm8, _, (Completes.crcByte imm8).exec_eq, crcStep_eq_foldl s.crc imm8,
    succeedsChanging_crc s _⟩

/-- Refutes O33: 0xFCA42DAF is another remainder that a zero byte leaves as it is. -/
theorem not_zeroIsTheOnlyFixedPointOfAZeroByte : ¬ Obligations.ZeroIsTheOnlyFixedPointOfAZeroByte := by
  intro h
  have hfixed : crcStep 0xFCA42DAF#32 0#8 = 0xFCA42DAF#32 := by decide
  exact absurd (h _ hfixed) (by decide)

/-! ## Checksums over a split (R96) -/

theorem crcRun_append (c : Word) (bs cs : List Byte) : crcRun c (bs ++ cs) = crcRun (crcRun c bs) cs :=
  List.foldl_append

/-- What the pieces of a split read is the same in both states: IBUF and its size. -/
structure SameInput (s t : State) : Prop where
  ibuf : t.ibuf = s.ibuf
  resets : t.resets = s.resets
  bufSize : t.bufSize = s.bufSize

theorem SameInput.refl (s : State) : SameInput s s := ⟨rfl, rfl, rfl⟩

/-- One piece, on any state with the input it was cut from. -/
theorem CrcPiece.run_spec {s₀ s : State} {p : CrcPiece} (hin : p.InRange s₀) (h : SameInput s₀ s) :
    ∃ t, p.run s = .next t ∧ SameInput s₀ t ∧ t.crc = crcRun s.crc (p.bytes s₀) := by
  obtain ⟨hbuf, hres, hsize⟩ := h
  cases p with
  | byte b => exact ⟨_, (Completes.crcByte b).exec_eq, ⟨hbuf, hres, hsize⟩, rfl⟩
  | buf soff slen =>
    have hrange : soff.toNat + slen.toNat ≤ s.bufSize.val := hsize ▸ hin
    exact ⟨_, exec_crcBuf_of_inRange (s := { s with soff := soff, slen := slen }) hrange, ⟨hbuf, hres, hsize⟩,
      congrArg (crcRun s.crc) (ibufBytes_congr hbuf hres ..)⟩

/-- Pieces one after the other fold their bytes, concatenated, into CRC. -/
theorem CrcPiece.runAll_spec {s₀ : State} {ps : List CrcPiece} (hin : ∀ p ∈ ps, p.InRange s₀) :
    ∀ {s : State}, SameInput s₀ s →
      ∃ u, CrcPiece.runAll ps s = .next u ∧ u.crc = crcRun s.crc (ps.flatMap (CrcPiece.bytes s₀)) := by
  induction ps with
  | nil => exact fun {s} _ => ⟨s, rfl, rfl⟩
  | cons p ps ih =>
    intro s h
    obtain ⟨hp, hps⟩ := List.forall_mem_cons.mp hin
    obtain ⟨t, hrun, ht, hcrc⟩ := CrcPiece.run_spec hp h
    obtain ⟨u, hrunAll, hu⟩ := ih hps ht
    refine ⟨u, by rw [CrcPiece.runAll, hrun]; exact hrunAll, ?_⟩
    rw [hu, hcrc, ← crcRun_append, List.flatMap_cons]

/-- CRC_BYTE for each byte of a sequence. -/
theorem execAll_crcByte (bs : List Byte) (s : State) :
    ∃ u, execAll (bs.map .crcByte) s = .next u ∧ u.crc = crcRun s.crc bs := by
  induction bs generalizing s with
  | nil => exact ⟨s, rfl, rfl⟩
  | cons b bs ih =>
    obtain ⟨u, hrun, hu⟩ := ih (succeed { s with crc := crcStep s.crc b })
    exact ⟨u, (execAll_cons_of_next (Completes.crcByte b).exec_eq).trans hrun, hu⟩

theorem crcval_of_crc {u : State} {bs : List Byte} (h : u.crc = crcRun crcInitial bs) :
    readReg u .crcval = crc32c bs :=
  congrArg not32 h

/-- A window in two parts by two CRC_BUF (R96). -/
theorem crcBuf_twoParts {s : State} {n : Nat} (hin : s.soff.toNat + s.slen.toNat ≤ s.bufSize.val)
    (hn : n ≤ s.slen.toNat) :
    ∃ t u, exec .crcBuf { s with slen := BitVec.ofNat 32 n } = .next t ∧
      exec .crcBuf { t with soff := BitVec.ofNat 32 (s.soff.toNat + n), slen := BitVec.ofNat 32 (s.slen.toNat - n) } =
        .next u ∧
      u.crc = crcRun s.crc (window s) := by
  have hlt := bufSize_lt s.bufSize
  have hfirst : (BitVec.ofNat 32 n).toNat = n := toNat_ofNat_word (by omega)
  have hoff : (BitVec.ofNat 32 (s.soff.toNat + n)).toNat = s.soff.toNat + n := toNat_ofNat_word (by omega)
  have hrest : (BitVec.ofNat 32 (s.slen.toNat - n)).toNat = s.slen.toNat - n := toNat_ofNat_word (by omega)
  have hin₁ : CrcPiece.InRange s (.buf s.soff (BitVec.ofNat 32 n)) := by
    show _ + (BitVec.ofNat 32 n).toNat ≤ _
    omega
  have hin₂ : CrcPiece.InRange s
      (.buf (BitVec.ofNat 32 (s.soff.toNat + n)) (BitVec.ofNat 32 (s.slen.toNat - n))) := by
    show (BitVec.ofNat 32 _).toNat + (BitVec.ofNat 32 _).toNat ≤ _
    omega
  obtain ⟨t, hrun₁, ht, hcrc₁⟩ := CrcPiece.run_spec hin₁ (.refl s)
  obtain ⟨u, hrun₂, -, hcrc₂⟩ := CrcPiece.run_spec hin₂ ht
  refine ⟨t, u, hrun₁, hrun₂, ?_⟩
  rw [hcrc₂, hcrc₁, ← crcRun_append, CrcPiece.bytes, CrcPiece.bytes, hfirst, hoff, hrest, ← ibufBytes_add,
    Nat.add_sub_cancel' hn, window]

/-- Settles O35: the pieces fold into CRC one after the other, whatever they are. -/
theorem checksumsAreIncremental : Obligations.ChecksumsAreIncremental := by
  refine ⟨crcRun_append, fun s ps hps => ⟨?_, ?_⟩, fun s s' ps ps' hps hps' => ?_, fun s n hin hn => ?_,
    fun s hin => ?_, fun s bs => ?_⟩
  · obtain ⟨u, hrun, hu⟩ := CrcPiece.runAll_spec hps (.refl s)
    exact ⟨u, hrun, hu, fun hwhole hin => ⟨_, exec_crcBuf_of_inRange hin, by rw [hu, hwhole]; rfl⟩⟩
  · obtain ⟨u, hrun, hu⟩ := CrcPiece.runAll_spec hps (s := succeed { s with crc := crcInitial }) ⟨rfl, rfl, rfl⟩
    exact ⟨_, u, exec_crcInit s, hrun, crcval_of_crc hu⟩
  · obtain ⟨u, hrun, hu⟩ := CrcPiece.runAll_spec hps (.refl s)
    obtain ⟨v, hrun', hv⟩ := CrcPiece.runAll_spec hps' (s := { s' with crc := u.crc }) ⟨rfl, rfl, rfl⟩
    exact ⟨u, v, hrun, hrun', by rw [hv, hu, crcRun_append]⟩
  · obtain ⟨t, u, hrun, hrun', hu⟩ := crcBuf_twoParts hin hn
    exact ⟨t, u, _, hrun, hrun', exec_crcBuf_of_inRange hin, hu⟩
  · obtain ⟨u, hrun, hu⟩ := execAll_crcByte (window s) s
    exact ⟨u, _, hrun, exec_crcBuf_of_inRange hin, hu⟩
  · obtain ⟨u, hrun, hu⟩ := execAll_crcByte bs (succeed { s with crc := crcInitial })
    exact ⟨u, (execAll_cons_of_next (exec_crcInit s)).trans hrun, crcval_of_crc hu⟩

end Sys2Proof.Machine
end

section
/-! PROOFS. The host software (spec/44_host_protocol.md R167 to R170, R175): the answer to a get/set request, the
requests without an answer, and the IgnoreSet. -/

namespace Sys2Proof.Machine

/-! ## The get/set reply -/

section
variable (urlTag : Byte) (d : DeviceIdentity)

theorem protocolHandler_of_getsetReq {bs p : List Byte} (h : frameDecode bs = .ok (getsetReq, p)) :
    protocolHandler urlTag d bs = getsetReply p := by
  simp [protocolHandler, h, getsetReq, discoverReq]

theorem protocolHandler_of_otherType {bs p : List Byte} {t : Half} (h : frameDecode bs = .ok (t, p))
    (hdiscover : t ≠ discoverReq) (hgetset : t ≠ getsetReq) : protocolHandler urlTag d bs = none := by
  simp [protocolHandler, h, hdiscover, hgetset]

theorem protocolHandler_of_error {bs : List Byte} {e : FrameError} (h : frameDecode bs = .error e) :
    protocolHandler urlTag d bs = none := by
  simp [protocolHandler, h]

end

theorem getsetReply_of_error {p : List Byte} {e : TlvError} (h : tlvParse p = .error e) : getsetReply p = none := by
  simp [getsetReply, h]

theorem getsetReply_tlvBytes {as : List Attr} (hs : Supported as) :
    getsetReply (tlvBytes as) = (echoAttrs as).bind (replyFrame getsetRpy) := by
  simp [getsetReply, tlvParse_tlvBytes hs]

/-- What is echoed of supported attributes is supported. -/
theorem supported_echo {as : List Attr} (hs : Supported as) {name : Attr} {tag tag' : Byte}
    (hname : firstWithTag tag as = some name) : Supported (name :: (firstWithTag tag' as).toList) := by
  refine List.forall_mem_cons.mpr ⟨hs name (List.mem_of_find?_eq_some hname), fun a ha => ?_⟩
  exact hs a (List.mem_of_find?_eq_some (Option.mem_toList.mp ha))

/-- Two supported attributes take at most 258 bytes. -/
theorem length_tlvBytes_echo {name : Attr} {value : Option Attr} (hs : Supported (name :: value.toList)) :
    (tlvBytes (name :: value.toList)).length ≤ 65535 := by
  have hmax : Config.maxAttrLen = 127 := rfl
  have hname := hs name (List.mem_cons_self ..)
  cases value with
  | none =>
    simp
    omega
  | some v =>
    have hvalue := hs v (by simp)
    simp
    omega

/-! ## The IgnoreSet (R175) -/

/-- A listener's replies go to senders outside the IgnoreSet. -/
theorem listener_ignores (receive : List Byte → List Byte) (policy : FailurePolicy) (ignored : List Sender)
    (handler : List Byte → Option (List Byte)) (inputs : List ListenerInput) :
    ∀ r ∈ (listener receive policy ignored handler inputs).1, r.1 ∉ ignored := by
  induction inputs with
  | nil => exact nofun
  | cons input inputs ih =>
    cases input with
    | transportFault => exact nofun
    | connectionFault =>
      rw [listener]
      cases policy.exception with
      | listener => exact nofun
      | connection => exact ih
    | received sender bytes =>
      rw [listener]
      split
      · exact nofun
      · split
        · exact ih
        · rename_i hsender
          split
          · exact nofun
          · cases handler (receive bytes) with
            | none => exact ih
            | some reply => exact List.forall_mem_cons.mpr ⟨hsender, ih⟩

/-- Settles O55: both listeners are `listener`. -/
theorem ignoredSendersGetNoReply : Obligations.IgnoredSendersGetNoReply :=
  fun policy ignored handler inputs =>
    ⟨listener_ignores id ⟨.connection, .listener⟩ ignored handler inputs,
      listener_ignores (List.take Config.maxPacket) policy ignored handler inputs⟩

end Sys2Proof.Machine

/-! ## The answers to get/set requests -/

namespace Sys2Proof

open Machine

/-- Settles O54, by what the request holds. -/
theorem getsetReply : Obligations.GetsetReply := by
  refine ⟨fun urlTag d as hs hlen => ?_, fun urlTag d p e hp herr => ?_, fun urlTag d t p hp ht ht' => ?_,
    fun urlTag d bs e => protocolHandler_of_error urlTag d⟩
  · have hreply : protocolHandler urlTag d (frameBytes 0x0004#16 (tlvBytes as)) =
        (echoAttrs as).bind (replyFrame getsetRpy) :=
      (protocolHandler_of_getsetReq urlTag d (frameDecode_frameBytes getsetReq hlen)).trans (getsetReply_tlvBytes hs)
    refine ⟨fun hnone => ?_, fun name hname => ?_⟩
    · have hfind : firstWithTag tagName as = none := List.find?_eq_none.mpr fun a ha => by
        simpa [tagName] using hnone a ha
      rw [hreply, echoAttrs, hfind]
      rfl
    · have hfind : firstWithTag tagName as = some name := hname
      have hecho : Supported (name :: (firstWithTag tagValue as).toList) := supported_echo hs hfind
      rw [hreply, echoAttrs, hfind]
      exact replyFrame_decodes getsetRpy hecho (length_tlvBytes_echo hecho)
  · have hdec := frameDecode_frameBytes getsetReq hp
    exact (protocolHandler_of_getsetReq urlTag d hdec).trans (getsetReply_of_error herr)
  · exact protocolHandler_of_otherType urlTag d (frameDecode_frameBytes t hp) ht ht'

end Sys2Proof
end
